-- ==== Sys2Proof/Word.lean ====
section
/-! DEFINITION. The two bit-vector types of the machine (rules R10, R14, R61): a byte and a register index. -/

namespace Sys2Proof

/-- `u8` of rule R14: an unsigned 8-bit byte, bit 0 the least significant. -/
abbrev Byte := BitVec 8

/-- A chip register index: 6 bits, 64 addresses (rules R10, R61). -/
abbrev RegAddr := BitVec 6

end Sys2Proof
end

