-- ==== Sys2Proof/Config.lean ====
section
/-! DEFINITION. What is fixed for one machine (rules R10, R11, R13, R47, R88, R91, R224), the answers an environment
can give (rule R8), and the free values: the answers of an environment under no law (decision D1). -/

namespace Sys2Proof

/-! ## The configuration record `Cfg` (rule R13)

Every field is a parameter of the model; `Cfg.default` holds the spec's defaults, which the spec marks as general
knowledge. A statement that needs a default names `Cfg.default` as a premise. -/

/-- The register map (rule R27): the address of each named register, of which the core accesses nineteen. An address that
no register has is reserved. -/
structure RegMap where
  command : RegAddr
  comIEn : RegAddr
  divIEn : RegAddr
  comIrq : RegAddr
  divIrq : RegAddr
  error : RegAddr
  status1 : RegAddr
  status2 : RegAddr
  fifoData : RegAddr
  fifoLevel : RegAddr
  waterLevel : RegAddr
  control : RegAddr
  bitFraming : RegAddr
  coll : RegAddr
  mode : RegAddr
  txMode : RegAddr
  rxMode : RegAddr
  txControl : RegAddr
  txAsk : RegAddr
  txSel : RegAddr
  rxSel : RegAddr
  rxThreshold : RegAddr
  demod : RegAddr
  mfTx : RegAddr
  mfRx : RegAddr
  serialSpeed : RegAddr
  crcResultH : RegAddr
  crcResultL : RegAddr
  modWidth : RegAddr
  rfCfg : RegAddr
  gsN : RegAddr
  cwGsP : RegAddr
  modGsP : RegAddr
  tMode : RegAddr
  tPrescaler : RegAddr
  tReloadH : RegAddr
  tReloadL : RegAddr
  tCounterValH : RegAddr
  tCounterValL : RegAddr
  testSel1 : RegAddr
  testSel2 : RegAddr
  testPinEn : RegAddr
  testPinValue : RegAddr
  testBus : RegAddr
  autoTest : RegAddr
  version : RegAddr
  analogTest : RegAddr
  testDac1 : RegAddr
  testDac2 : RegAddr
  testAdc : RegAddr
  deriving DecidableEq, Repr

/-- Mask and value parameters (rule R47). -/
structure Masks where
  rxIRq : Byte
  idleIRq : Byte
  timerIRq : Byte
  comIrqClearAll : Byte
  crcIRq : Byte
  errTransceive : Byte
  errAuth : Byte
  mfCrypto1On : Byte
  flushBuffer : Byte
  fifoLevel : Byte
  rxLastBits : Byte
  startSend : Byte
  txLastBits : Byte
  valuesAfterColl : Byte
  antenna : Byte
  deriving DecidableEq, Repr

/-- Chip command codes, the whole `CommandReg` byte (rule R88): all ten, of which the core issues five. -/
structure Commands where
  idle : Byte
  mem : Byte
  genRandomId : Byte
  calcCrc : Byte
  transmit : Byte
  noCmdChange : Byte
  receive : Byte
  transceive : Byte
  mfAuthent : Byte
  softReset : Byte
  deriving DecidableEq, Repr

/-- Card command bytes (rule R91). -/
structure CardBytes where
  reqa : Byte
  selCl1 : Byte
  nvbAnticoll : Byte
  nvbSelect : Byte
  authKeyA : Byte
  read : Byte
  write : Byte
  ack : Byte
  deriving DecidableEq, Repr

/-- Init values (rule R224). -/
structure InitValues where
  tMode : Byte
  tPrescaler : Byte
  tReloadL : Byte
  tReloadH : Byte
  txAsk : Byte
  mode : Byte
  deriving DecidableEq, Repr

/-- The configuration record of rule R13. -/
structure Cfg where
  reg : RegMap
  mask : Masks
  cmd : Commands
  card : CardBytes
  init : InitValues
  /-- `RX_BEFORE_TIMER` (rule R152, decision D7). -/
  rxBeforeTimer : Bool
  /-- `REAUTH_BEFORE_VERIFY` (rule R238, decision D39): a parameter of the host's reference cycle. -/
  reauthBeforeVerify : Bool
  deriving DecidableEq, Repr

/-- The default values of rules R27, R47, R88, R91, R152, R224 and R238. -/
def Cfg.default : Cfg where
  reg :=
    { command := 0x01, comIEn := 0x02, divIEn := 0x03, comIrq := 0x04, divIrq := 0x05, error := 0x06
      status1 := 0x07, status2 := 0x08, fifoData := 0x09, fifoLevel := 0x0A, waterLevel := 0x0B, control := 0x0C
      bitFraming := 0x0D, coll := 0x0E, mode := 0x11, txMode := 0x12, rxMode := 0x13, txControl := 0x14
      txAsk := 0x15, txSel := 0x16, rxSel := 0x17, rxThreshold := 0x18, demod := 0x19, mfTx := 0x1C, mfRx := 0x1D
      serialSpeed := 0x1F, crcResultH := 0x21, crcResultL := 0x22, modWidth := 0x24, rfCfg := 0x26, gsN := 0x27
      cwGsP := 0x28, modGsP := 0x29, tMode := 0x2A, tPrescaler := 0x2B, tReloadH := 0x2C, tReloadL := 0x2D
      tCounterValH := 0x2E, tCounterValL := 0x2F, testSel1 := 0x31, testSel2 := 0x32, testPinEn := 0x33
      testPinValue := 0x34, testBus := 0x35, autoTest := 0x36, version := 0x37, analogTest := 0x38
      testDac1 := 0x39, testDac2 := 0x3A, testAdc := 0x3B }
  mask :=
    { rxIRq := 0x20, idleIRq := 0x10, timerIRq := 0x01, comIrqClearAll := 0x7F, crcIRq := 0x04
      errTransceive := 0x0B, errAuth := 0x0B, mfCrypto1On := 0x08, flushBuffer := 0x80, fifoLevel := 0x7F
      rxLastBits := 0x07, startSend := 0x80, txLastBits := 0x07, valuesAfterColl := 0x80, antenna := 0x03 }
  cmd :=
    { idle := 0x00, mem := 0x01, genRandomId := 0x02, calcCrc := 0x03, transmit := 0x04, noCmdChange := 0x07
      receive := 0x08, transceive := 0x0C, mfAuthent := 0x0E, softReset := 0x0F }
  card :=
    { reqa := 0x26, selCl1 := 0x93, nvbAnticoll := 0x20, nvbSelect := 0x70, authKeyA := 0x60, read := 0x30
      write := 0xA0, ack := 0x0A }
  init := { tMode := 0x8D, tPrescaler := 0x3E, tReloadL := 0x1E, tReloadH := 0x00, txAsk := 0x40, mode := 0x3D }
  rxBeforeTimer := true
  reauthBeforeVerify := true

/-! ## Values the source fixes (rules R10, R11, R84) -/

namespace Config

/-- `FIFO_CAPACITY` (rule R10). -/
def fifoCapacity : Nat := 64
/-- `UID_LEN` (rule R10). -/
def uidLen : Nat := 4
/-- `KEY_LEN` (rule R10). -/
def keyLen : Nat := 6
/-- `BLOCK_LEN` (rule R10). -/
def blockLen : Nat := 16
/-- `PAD`, the second byte of a read exchange (rule R84, decision D4). -/
def pad : Byte := 0x00
/-- `T_CRC` (rule R11). -/
def tCrc : Nat := 50
/-- `T_SETTLE` (rule R11). -/
def tSettle : Nat := 50
/-- `T_REQA` (rule R11). -/
def tReqa : Nat := 80
/-- `T_ANTICOLL` (rule R11). -/
def tAnticoll : Nat := 80
/-- `T_SELECT` (rule R11). -/
def tSelect : Nat := 80
/-- `T_AUTH` (rule R11). -/
def tAuth : Nat := 150
/-- `T_READ` (rule R11). -/
def tRead : Nat := 250
/-- `T_WRITE1` (rule R11). -/
def tWrite1 : Nat := 250
/-- `T_WRITE2` (rule R11). -/
def tWrite2 : Nat := 400

end Config

/-! ## What the environment can answer (rules R8, R110, R117; decisions D1, D44) -/

/-- The answer to one `Exchange`: reply bytes, whatever their number (a wrong number is
`TransportError(LengthMismatch)`, decision D44), or a failure with an opaque reason code. -/
inductive ExchangeAnswer where
  | reply (rx : List Byte)
  | fail (reason : Nat)
  deriving DecidableEq, Repr, Inhabited

/-- The answer to `TransportOpen` and to `TransportClose` (rules R117, R118). -/
inductive LinkAnswer where
  | ok
  | fail (reason : Nat)
  deriving DecidableEq, Repr, Inhabited

/-! ## Free values (log entry 2)

The environment answers under no law (decision D1). These constants have no body: nothing can be proved of their
values, so a theorem about an answer drawn from them holds whatever the environment answers. The step applies them to
the plain counter `State.draws`. -/

/-- The reply to the exchange `tx` that is the `n`-th question put to the environment. -/
opaque Config.freeExchange : Nat → List Byte → ExchangeAnswer

/-- The answer to the opening or closing that is the `n`-th question. -/
opaque Config.freeLink : Nat → LinkAnswer

/-- How many times `Expired` answers false before it answers true, for the deadline that is the `n`-th question. That
this is a number is the fairness assumption of decision D2. -/
opaque Config.freeExpiry : Nat → Nat

/-! ## Free values of the reference chip (log entry 9): what the spec calls "any value" or leaves unspecified of a chip -/

/-- The byte behind the `n`-th read of the chip: its reserved bits, registers without a layout, an empty FIFO. -/
opaque Config.freeChipByte : Nat → Byte

/-- What a register holds after the `n`-th reset where no reset value is documented. -/
opaque Config.freeChipReset : Nat → RegAddr → Byte

/-- "Whether the chip stays in CalcCRC after `calcCrc`: unspecified" (93_implementation_defined.md; rule R304). -/
opaque Config.staysInCalcCrc : Bool

end Sys2Proof
end

