-- ==== Sys2Proof/Syntax.lean ====
section
/-! DEFINITION. The instructions: one constructor per row of spec/opcode_table.json. A row's layer (its `format` in the
table) says in which of the spec's encodings its word is written. -/

namespace Sys2Proof

/-- The `format` of an opcode-table row: the encoding its word belongs to. Only a word of the layer `hostCall` is a
call of the host (rules R102, R104); the others are the encodings the core itself emits or accepts below that
(rules R80 to R94, R194), and the internal steps of rule R102. -/
inductive Layer where
  | hostCall
  | internalStep
  | exchange
  | chipCommand
  | cardFrame
  | cardAnswer
  deriving DecidableEq, Repr

/-- The instruction set (rule R2): a constructor's docstring names the rule that gives its meaning. Naturals are
`Nat`, `u8` operands are `Byte`, register indexes of the inner layers are `RegAddr`. -/
inductive Instr where
  /-- row `open` (rule R117); `open` is a Lean keyword -/
  | openTransport (busIndex deviceIndex clockHz : Nat)
  /-- row `close` (rule R118) -/
  | close
  /-- row `writeRegister` (rule R112) -/
  | writeRegister (a v : Byte)
  /-- row `readRegister` (rule R111) -/
  | readRegister (a : Byte)
  /-- row `writeRegisterBurst` (rule R113) -/
  | writeRegisterBurst (a : Byte) (bs : List Byte)
  /-- row `flushFifo` (rule R130) -/
  | flushFifo
  /-- row `fifoLevel` (rule R131) -/
  | fifoLevel
  /-- row `readFifoBytes` (rule R132) -/
  | readFifoBytes (n : Nat)
  /-- row `calcCrc` (rule R136) -/
  | calcCrc (buffer : List Byte)
  /-- row `transceive` (rule R150) -/
  | transceive (frame : List Byte) (validBits : Byte) (timeoutMs : Nat)
  /-- row `requestA` (rule R170) -/
  | requestA
  /-- row `anticollCL1` (rule R175) -/
  | anticollCL1
  /-- row `selectCL1` (rule R178) -/
  | selectCL1 (uid : List Byte)
  /-- row `mifareAuthKeyA` (rule R183) -/
  | mifareAuthKeyA (blk : Nat) (key uid : List Byte)
  /-- row `mifareReadBlock` (rule R187) -/
  | mifareReadBlock (blk : Nat)
  /-- row `mifareWriteBlock` (rule R193) -/
  | mifareWriteBlock (blk : Nat) (payload : List Byte)
  /-- row `softReset` (rule R220) -/
  | softReset
  /-- row `init` (rule R222) -/
  | init
  /-- row `isTrailerBlock` (rule R198) -/
  | isTrailerBlock (b : Nat)
  /-- row `ensure16Bytes` (rule R199) -/
  | ensure16Bytes (xs : List Byte)
  /-- row `detectCard` (rule R202) -/
  | detectCard
  /-- row `SetBits` (rule R114) -/
  | setBits (a : RegAddr) (m : Byte)
  /-- row `ClearBits` (rule R115) -/
  | clearBits (a : RegAddr) (m : Byte)
  /-- row `pollUntil` (rule R116) -/
  | pollUntil (a : RegAddr) (stopMask : Byte) (ms : Nat)
  /-- row `antennaOn` (rule R223) -/
  | antennaOn
  /-- row `spi_write_byte` (rule R83) -/
  | spiWriteByte (a : RegAddr) (v : Byte)
  /-- row `spi_read_byte` (rule R84) -/
  | spiReadByte (a : RegAddr)
  /-- row `spi_burst_write` (rule R85) -/
  | spiBurstWrite (a : RegAddr) (bs : List Byte)
  /-- row `CMD_IDLE` (rule R88) -/
  | cmdIdle
  /-- row `CMD_CALCCRC` (rule R88) -/
  | cmdCalcCrc
  /-- row `CMD_TRANSCEIVE` (rule R88) -/
  | cmdTransceive
  /-- row `CMD_MFAUTHENT` (rule R88) -/
  | cmdMfAuthent
  /-- row `CMD_SOFTRESET` (rule R88) -/
  | cmdSoftReset
  /-- row `PICC_REQA` (rule R92) -/
  | piccReqa
  /-- row `PICC_SEL_CL1_+_NVB_ANTICOLL` (rule R92) -/
  | piccAnticoll
  /-- row `PICC_SEL_CL1_+_NVB_SELECT` (rule R92): the UID and the CRC of the 9-byte frame; its check byte is rule R95's -/
  | piccSelect (uid : List Byte) (crcLo crcHi : Byte)
  /-- row `MF_AUTH_KEY_A` (rule R92) -/
  | mfAuthKeyA (blk : Byte) (key uid : List Byte)
  /-- row `MF_READ` (rule R92) -/
  | mfRead (blk crcLo crcHi : Byte)
  /-- row `MF_WRITE` (rule R92) -/
  | mfWrite (blk crcLo crcHi : Byte)
  /-- row `MF_ACK` (rule R194): the card's answer byte is `high`, then the ACK code 0xA; `fourBits` says whether 4 bits of
  it are valid (the other permitted count is 0, the whole byte) -/
  | mfAck (high : BitVec 4) (fourBits : Bool)
  deriving DecidableEq, Repr

/-- The encoding an instruction's word is written in: its row's `format` in spec/opcode_table.json. -/
def Instr.layer : Instr → Layer
  | .openTransport _ _ _ | .close | .writeRegister _ _ | .readRegister _ | .writeRegisterBurst _ _ | .flushFifo
  | .fifoLevel | .readFifoBytes _ | .calcCrc _ | .transceive _ _ _ | .requestA | .anticollCL1 | .selectCL1 _
  | .mifareAuthKeyA _ _ _ | .mifareReadBlock _ | .mifareWriteBlock _ _ | .softReset | .init | .isTrailerBlock _
  | .ensure16Bytes _ | .detectCard => .hostCall
  | .setBits _ _ | .clearBits _ _ | .pollUntil _ _ _ | .antennaOn => .internalStep
  | .spiWriteByte _ _ | .spiReadByte _ | .spiBurstWrite _ _ => .exchange
  | .cmdIdle | .cmdCalcCrc | .cmdTransceive | .cmdMfAuthent | .cmdSoftReset => .chipCommand
  | .piccReqa | .piccAnticoll | .piccSelect _ _ _ | .mfAuthKeyA _ _ _ | .mfRead _ _ _ | .mfWrite _ _ _ => .cardFrame
  | .mfAck _ _ => .cardAnswer

end Sys2Proof
end

