-- ==== Sys2Proof/WellFormed.lean ====
section
/-! DEFINITION. Which instructions have a word: an instruction is well formed if its word form exists (rule R104 for
host calls, rule R92 for card frames) and no other row of its layer spells the same word. It is not a test of whether
the call is accepted: a call that its rule refuses still has a word (vector V-ENC-6, `selectCL1` of three bytes). -/

namespace Sys2Proof

/-- A natural operand has a word form if it fits four bytes (rule R104). -/
abbrev FitsNat (n : Nat) : Prop := n < 2 ^ 32

/-- "A list longer than 255 bytes has no word form" (rule R104). -/
abbrev FitsList (bs : List Byte) : Prop := bs.length ≤ 255

/-- The codes of a configuration tell the rows of a layer apart: the issued commands (rule R88), the first bytes of the
frames and the two select bytes (rules R91, R92). -/
abbrev Cfg.CodesDistinct (c : Cfg) : Prop :=
  [c.cmd.idle, c.cmd.calcCrc, c.cmd.transceive, c.cmd.mfAuthent, c.cmd.softReset].Nodup ∧
  [c.card.reqa, c.card.selCl1, c.card.authKeyA, c.card.read, c.card.write].Nodup ∧
  c.card.nvbAnticoll ≠ c.card.nvbSelect

/-- Well-formedness of an instruction, one case per constructor. -/
def Instr.wf : Instr → Bool
  | .openTransport bus dev hz => decide (FitsNat bus ∧ FitsNat dev ∧ FitsNat hz)
  | .close => true
  | .writeRegister _ _ => true
  | .readRegister _ => true
  | .writeRegisterBurst _ bs => decide (FitsList bs)
  | .flushFifo => true
  | .fifoLevel => true
  | .readFifoBytes n => decide (FitsNat n)
  | .calcCrc buffer => decide (FitsList buffer)
  | .transceive frame _ ms => decide (FitsList frame ∧ FitsNat ms)
  | .requestA => true
  | .anticollCL1 => true
  | .selectCL1 uid => decide (FitsList uid)
  | .mifareAuthKeyA blk key uid => decide (FitsNat blk ∧ FitsList key ∧ FitsList uid)
  | .mifareReadBlock blk => decide (FitsNat blk)
  | .mifareWriteBlock blk payload => decide (FitsNat blk ∧ FitsList payload)
  | .softReset => true
  | .init => true
  | .isTrailerBlock b => decide (FitsNat b)
  | .ensure16Bytes xs => decide (FitsList xs)
  | .detectCard => true
  | .setBits _ _ => true
  | .clearBits _ _ => true
  | .pollUntil _ _ ms => decide (FitsNat ms)
  | .antennaOn => true
  | .spiWriteByte _ _ => true
  | .spiReadByte _ => true
  /- A burst of one byte has the bytes of a single write (95_test_vectors.md, Conventions): its word is that row's. -/
  | .spiBurstWrite _ bs => decide (bs.length ≠ 1)
  | .cmdIdle => true
  | .cmdCalcCrc => true
  | .cmdTransceive => true
  | .cmdMfAuthent => true
  | .cmdSoftReset => true
  | .piccReqa => true
  | .piccAnticoll => true
  | .piccSelect uid _ _ => decide (uid.length = 4)
  | .mfAuthKeyA _ key uid => decide (key.length = 6 ∧ uid.length = 4)
  | .mfRead _ _ _ => true
  | .mfWrite _ _ _ => true
  | .mfAck _ _ => true

end Sys2Proof
end

