-- ==== Sys2Proof/Decode.lean ====
section
/-! DEFINITION. Decoding and encoding of every layer: the host-call word (rules R102, R104), the exchange bytes
(rules R80 to R85), the chip command byte (rule R88), the card frame (rule R92) and the card's ACK (rule R194); and
`decodeTableWord`, the same decoder on a word numbered as spec/opcode_table.json numbers it. -/

namespace Sys2Proof

/-! ## The address byte (rules R80, R81) -/

/-- `addrByte(dir, a) = (dir << 7) | ((a << 1) & 0x7E) | 0`, with `dir = 1` for a read (rule R80). -/
def addrByte (read : Bool) (a : RegAddr) : Byte :=
  ((BitVec.ofBool read).setWidth 8 <<< 7) ||| ((a.setWidth 8 <<< 1) &&& 0x7E)

/-- `encW(a)` (rule R80). -/
def encW (a : RegAddr) : Byte := addrByte false a

/-- `encR(a)` (rule R80). -/
def encR (a : RegAddr) : Byte := addrByte true a

/-- The direction bit of an address byte, `true` for a read (rule R80). -/
def addrIsRead (b : Byte) : Bool := b.getLsbD 7

/-- The register index in bits 6:1 of an address byte (rule R80). -/
def addrReg (b : Byte) : RegAddr := b.extractLsb' 1 6

/-- The reserved bit 0 of an address byte (rule R81). -/
def addrReserved (b : Byte) : Bool := b.getLsbD 0

/-- A host register operand as a register index: an operand above 63 has no encoding (rules R61, R81). -/
def toRegAddr (a : Byte) : Option RegAddr :=
  if a.toNat < 64 then some (a.setWidth 6) else none

/-! ## Check byte (rule R95) -/

/-- The exclusive-or of the bytes of a UID (rule R95). -/
def bcc (uid : List Byte) : Byte := uid.foldl (fun x u => x ^^^ u) 0

/-! ## Opcode identifiers (rule R102) -/

/-- The operations of rule R102. -/
inductive OpName where
  | openTransport | close | writeRegister | readRegister | writeRegisterBurst | flushFifo | fifoLevel
  | readFifoBytes | calcCrc | transceive | requestA | anticollCL1 | selectCL1 | mifareAuthKeyA | mifareReadBlock
  | mifareWriteBlock | softReset | init | isTrailerBlock | ensure16Bytes | detectCard
  | setBits | clearBits | pollUntil | antennaOn
  deriving DecidableEq, Repr

/-- The identifier of an operation (rule R102). -/
def OpName.id : OpName → Byte
  | .openTransport => 0x01 | .close => 0x02 | .writeRegister => 0x03 | .readRegister => 0x04
  | .writeRegisterBurst => 0x05 | .flushFifo => 0x06 | .fifoLevel => 0x07 | .readFifoBytes => 0x08
  | .calcCrc => 0x09 | .transceive => 0x0A | .requestA => 0x0B | .anticollCL1 => 0x0C | .selectCL1 => 0x0D
  | .mifareAuthKeyA => 0x0E | .mifareReadBlock => 0x0F | .mifareWriteBlock => 0x10 | .softReset => 0x11
  | .init => 0x12 | .isTrailerBlock => 0x13 | .ensure16Bytes => 0x14 | .detectCard => 0x15
  | .setBits => 0x20 | .clearBits => 0x21 | .pollUntil => 0x22 | .antennaOn => 0x23

/-- "Internal steps (not host-callable)": 0x20 to 0x23 (rule R102). -/
def OpName.internal : OpName → Bool
  | .setBits | .clearBits | .pollUntil | .antennaOn => true
  | _ => false

/-- Every operation of rule R102, in its order. -/
def OpName.all : List OpName :=
  [.openTransport, .close, .writeRegister, .readRegister, .writeRegisterBurst, .flushFifo, .fifoLevel,
   .readFifoBytes, .calcCrc, .transceive, .requestA, .anticollCL1, .selectCL1, .mifareAuthKeyA, .mifareReadBlock,
   .mifareWriteBlock, .softReset, .init, .isTrailerBlock, .ensure16Bytes, .detectCard, .setBits, .clearBits,
   .pollUntil, .antennaOn]

/-- The operation an identifier spells, if any (rule R102). -/
def opOfId (b : Byte) : Option OpName := OpName.all.find? (fun op => op.id == b)

/-! ## Operand fields (rule R104) -/

/-- Why a word is not an instruction of its layer. In the layer of host calls each of them is the refusal
`UnknownOperation` (rules R102, R104). -/
inductive DecodeError where
  /-- the word has no byte at all -/
  | empty
  /-- an identifier that spells no operation (rule R102) -/
  | unknownIdentifier (id : Byte)
  /-- an internal step's identifier in a host call, or a host call's in an internal step (rules R102, R104) -/
  | wrongLayer (id : Byte)
  /-- too few operand bytes (rule R104) -/
  | tooFew
  /-- too many operand bytes (rule R104) -/
  | tooMany
  /-- a register operand above 63 in a layer whose register field has 6 bits (rule R61) -/
  | badRegister (a : Byte)
  /-- an exchange whose address byte has the reserved bit set (rules R81, R100) -/
  | reservedBit
  /-- a read exchange that is not two bytes with the pad 0x00 (rules R84, R87) -/
  | badRead
  /-- a `CommandReg` byte that the core never writes (rule R89) -/
  | unknownCommand (b : Byte)
  /-- bytes that begin no frame of rule R92 -/
  | unknownFrame
  /-- a SELECT frame whose check byte is not that of its UID (rules R92, R95) -/
  | badCheckByte
  /-- an answer byte whose low nibble is not the ACK code, or a valid-bits count other than 4 or 0 (rule R194) -/
  | notAck
  deriving DecidableEq, Repr

/-- A one-byte operand (rule R104). A parse answers the value read and the bytes left. -/
def takeByte : List Byte → Except DecodeError (Byte × List Byte)
  | b :: r => .ok (b, r)
  | [] => .error .tooFew

/-- A natural operand: "four bytes, most significant first" (rule R104). -/
def takeNat : List Byte → Except DecodeError (Nat × List Byte)
  | b3 :: b2 :: b1 :: b0 :: r =>
    .ok (b3.toNat * 16777216 + b2.toNat * 65536 + b1.toNat * 256 + b0.toNat, r)
  | _ => .error .tooFew

/-- `n` bytes. -/
def takeBytes (n : Nat) (bs : List Byte) : Except DecodeError (List Byte × List Byte) :=
  if n ≤ bs.length then .ok (bs.take n, bs.drop n) else .error .tooFew

/-- A list operand: "one length byte followed by the bytes" (rule R104). -/
def takeList : List Byte → Except DecodeError (List Byte × List Byte)
  | n :: r => takeBytes n.toNat r
  | [] => .error .tooFew

/-- A register index written as one byte. -/
def takeReg : List Byte → Except DecodeError (RegAddr × List Byte)
  | a :: r => match toRegAddr a with
    | some a' => .ok (a', r)
    | none => .error (.badRegister a)
  | [] => .error .tooFew

/-- A natural operand's bytes (rule R104). -/
def encNat (n : Nat) : List Byte :=
  [BitVec.ofNat 8 (n / 16777216), BitVec.ofNat 8 (n / 65536), BitVec.ofNat 8 (n / 256), BitVec.ofNat 8 n]

/-- A list operand's bytes (rule R104). -/
def encList (bs : List Byte) : List Byte := BitVec.ofNat 8 bs.length :: bs

/-- A register index's byte. -/
def encReg (a : RegAddr) : Byte := a.setWidth 8

/-! ## The decoder, layer by layer -/

/-- The operands of an operation, in the order of its signature (rules R101, R104). -/
def takeOperands (op : OpName) (bs : List Byte) : Except DecodeError (Instr × List Byte) :=
  match op with
  | .openTransport => do
    let (bus, r) ← takeNat bs
    let (dev, r) ← takeNat r
    let (hz, r) ← takeNat r
    .ok (.openTransport bus dev hz, r)
  | .close => .ok (.close, bs)
  | .writeRegister => do
    let (a, r) ← takeByte bs
    let (v, r) ← takeByte r
    .ok (.writeRegister a v, r)
  | .readRegister => do
    let (a, r) ← takeByte bs
    .ok (.readRegister a, r)
  | .writeRegisterBurst => do
    let (a, r) ← takeByte bs
    let (data, r) ← takeList r
    .ok (.writeRegisterBurst a data, r)
  | .flushFifo => .ok (.flushFifo, bs)
  | .fifoLevel => .ok (.fifoLevel, bs)
  | .readFifoBytes => do
    let (n, r) ← takeNat bs
    .ok (.readFifoBytes n, r)
  | .calcCrc => do
    let (buffer, r) ← takeList bs
    .ok (.calcCrc buffer, r)
  | .transceive => do
    let (frame, r) ← takeList bs
    let (vb, r) ← takeByte r
    let (ms, r) ← takeNat r
    .ok (.transceive frame vb ms, r)
  | .requestA => .ok (.requestA, bs)
  | .anticollCL1 => .ok (.anticollCL1, bs)
  | .selectCL1 => do
    let (uid, r) ← takeList bs
    .ok (.selectCL1 uid, r)
  | .mifareAuthKeyA => do
    let (blk, r) ← takeNat bs
    let (key, r) ← takeList r
    let (uid, r) ← takeList r
    .ok (.mifareAuthKeyA blk key uid, r)
  | .mifareReadBlock => do
    let (blk, r) ← takeNat bs
    .ok (.mifareReadBlock blk, r)
  | .mifareWriteBlock => do
    let (blk, r) ← takeNat bs
    let (payload, r) ← takeList r
    .ok (.mifareWriteBlock blk payload, r)
  | .softReset => .ok (.softReset, bs)
  | .init => .ok (.init, bs)
  | .isTrailerBlock => do
    let (b, r) ← takeNat bs
    .ok (.isTrailerBlock b, r)
  | .ensure16Bytes => do
    let (xs, r) ← takeList bs
    .ok (.ensure16Bytes xs, r)
  | .detectCard => .ok (.detectCard, bs)
  | .setBits => do
    let (a, r) ← takeReg bs
    let (m, r) ← takeByte r
    .ok (.setBits a m, r)
  | .clearBits => do
    let (a, r) ← takeReg bs
    let (m, r) ← takeByte r
    .ok (.clearBits a m, r)
  | .pollUntil => do
    let (a, r) ← takeReg bs
    let (m, r) ← takeByte r
    let (ms, r) ← takeNat r
    .ok (.pollUntil a m ms, r)
  | .antennaOn => .ok (.antennaOn, bs)

/-- An identifier byte and its operands, for the host-callable operations (`internal = false`) or for the internal
steps (`internal = true`). "A word that starts with [an internal step's identifier] is refused" as a host call
(rule R104). -/
def takeOperation (internal : Bool) : List Byte → Except DecodeError (Instr × List Byte)
  | [] => .error .empty
  | id :: r => match opOfId id with
    | none => .error (.unknownIdentifier id)
    | some op => if op.internal = internal then takeOperands op r else .error (.wrongLayer id)

/-- The bytes of one exchange (rules R83, R84, R85): all of them, since an exchange's length is its operation's
(rule R99). -/
def takeExchange : List Byte → Except DecodeError (Instr × List Byte)
  | [] => .error .empty
  | b :: data =>
    if addrReserved b then .error .reservedBit
    else if addrIsRead b then
      if data = [Config.pad] then .ok (.spiReadByte (addrReg b), []) else .error .badRead
    else match data with
      | [v] => .ok (.spiWriteByte (addrReg b) v, [])
      | bs => .ok (.spiBurstWrite (addrReg b) bs, [])

/-- A `CommandReg` byte the core writes (rule R88, the codes of the configuration; log entry 20). -/
def takeCommand (c : Cfg) : List Byte → Except DecodeError (Instr × List Byte)
  | [] => .error .empty
  | b :: r =>
    if b = c.cmd.idle then .ok (.cmdIdle, r)
    else if b = c.cmd.calcCrc then .ok (.cmdCalcCrc, r)
    else if b = c.cmd.transceive then .ok (.cmdTransceive, r)
    else if b = c.cmd.mfAuthent then .ok (.cmdMfAuthent, r)
    else if b = c.cmd.softReset then .ok (.cmdSoftReset, r)
    else .error (.unknownCommand b)

/-- The rest of a CRC-protected two-byte frame: block, CRC low, CRC high (rules R92, R94). -/
def takeBlockCrc (f : Byte → Byte → Byte → Instr) : List Byte → Except DecodeError (Instr × List Byte)
  | blk :: lo :: hi :: r => .ok (f blk lo hi, r)
  | _ => .error .tooFew

/-- The rest of a frame that starts with `PICC_SEL_CL1` (rule R92): the second byte says which. -/
def takeSelect (cfg : Cfg) : List Byte → Except DecodeError (Instr × List Byte)
  | [] => .error .tooFew
  | nvb :: r =>
    if nvb = cfg.card.nvbAnticoll then .ok (.piccAnticoll, r)
    else if nvb = cfg.card.nvbSelect then do
      let (uid, r) ← takeBytes Config.uidLen r
      let (c, r) ← takeByte r
      let (lo, r) ← takeByte r
      let (hi, r) ← takeByte r
      if c = bcc uid then .ok (.piccSelect uid lo hi, r) else .error .badCheckByte
    else .error .unknownFrame

/-- The rest of the MFAuthent input (rule R92): block, key, UID. -/
def takeAuth (bs : List Byte) : Except DecodeError (Instr × List Byte) := do
  let (blk, r) ← takeByte bs
  let (key, r) ← takeBytes Config.keyLen r
  let (uid, r) ← takeBytes Config.uidLen r
  .ok (.mfAuthKeyA blk key uid, r)

/-- A frame the core loads into the FIFO (rule R92, the command bytes of the configuration; log entry 20). -/
def takeFrame (c : Cfg) : List Byte → Except DecodeError (Instr × List Byte)
  | [] => .error .empty
  | b :: r =>
    if b = c.card.reqa then .ok (.piccReqa, r)
    else if b = c.card.selCl1 then takeSelect c r
    else if b = c.card.authKeyA then takeAuth r
    else if b = c.card.read then takeBlockCrc .mfRead r
    else if b = c.card.write then takeBlockCrc .mfWrite r
    else .error .unknownFrame

/-- The ACK code, four bits (rules R10, R91). -/
def ackNibble (c : Cfg) : BitVec 4 := c.card.ack.extractLsb' 0 4

/-- A card answer that is an ACK (rule R194): the answer byte, then the count of valid bits, 4 or 0. -/
def takeAck (c : Cfg) : List Byte → Except DecodeError (Instr × List Byte)
  | b :: vb :: r =>
    if b.extractLsb' 0 4 ≠ ackNibble c then .error .notAck
    else if vb = 4 then .ok (.mfAck (b.extractLsb' 4 4) true, r)
    else if vb = 0 then .ok (.mfAck (b.extractLsb' 4 4) false, r)
    else .error .notAck
  | _ => .error .tooFew

/-- The instruction at the start of a word of a layer, and the bytes left over. -/
def decodePrefix (c : Cfg) : Layer → List Byte → Except DecodeError (Instr × List Byte)
  | .hostCall, bs => takeOperation false bs
  | .internalStep, bs => takeOperation true bs
  | .exchange, bs => takeExchange bs
  | .chipCommand, bs => takeCommand c bs
  | .cardFrame, bs => takeFrame c bs
  | .cardAnswer, bs => takeAck c bs

/-- The decoder: a word of a layer is an instruction if nothing is left over ("too many" operand bytes are refused,
rule R104). -/
def decode (c : Cfg) (l : Layer) (bs : List Byte) : Except DecodeError Instr :=
  match decodePrefix c l bs with
  | .ok (i, []) => .ok i
  | .ok (_, _ :: _) => .error .tooMany
  | .error e => .error e

/-! ## The encoder -/

/-- The word of an instruction, in its layer (rules R83, R84, R85, R88, R92, R104), with the codes of the
configuration. -/
def encode (c : Cfg) : Instr → List Byte
  | .openTransport bus dev hz => 0x01 :: (encNat bus ++ encNat dev ++ encNat hz)
  | .close => [0x02]
  | .writeRegister a v => [0x03, a, v]
  | .readRegister a => [0x04, a]
  | .writeRegisterBurst a bs => 0x05 :: a :: encList bs
  | .flushFifo => [0x06]
  | .fifoLevel => [0x07]
  | .readFifoBytes n => 0x08 :: encNat n
  | .calcCrc buffer => 0x09 :: encList buffer
  | .transceive frame vb ms => 0x0A :: (encList frame ++ vb :: encNat ms)
  | .requestA => [0x0B]
  | .anticollCL1 => [0x0C]
  | .selectCL1 uid => 0x0D :: encList uid
  | .mifareAuthKeyA blk key uid => 0x0E :: (encNat blk ++ encList key ++ encList uid)
  | .mifareReadBlock blk => 0x0F :: encNat blk
  | .mifareWriteBlock blk payload => 0x10 :: (encNat blk ++ encList payload)
  | .softReset => [0x11]
  | .init => [0x12]
  | .isTrailerBlock b => 0x13 :: encNat b
  | .ensure16Bytes xs => 0x14 :: encList xs
  | .detectCard => [0x15]
  | .setBits a m => [0x20, encReg a, m]
  | .clearBits a m => [0x21, encReg a, m]
  | .pollUntil a m ms => 0x22 :: encReg a :: m :: encNat ms
  | .antennaOn => [0x23]
  | .spiWriteByte a v => [encW a, v]
  | .spiReadByte a => [encR a, Config.pad]
  | .spiBurstWrite a bs => encW a :: bs
  | .cmdIdle => [c.cmd.idle]
  | .cmdCalcCrc => [c.cmd.calcCrc]
  | .cmdTransceive => [c.cmd.transceive]
  | .cmdMfAuthent => [c.cmd.mfAuthent]
  | .cmdSoftReset => [c.cmd.softReset]
  | .piccReqa => [c.card.reqa]
  | .piccAnticoll => [c.card.selCl1, c.card.nvbAnticoll]
  | .piccSelect uid lo hi => c.card.selCl1 :: c.card.nvbSelect :: (uid ++ [bcc uid, lo, hi])
  | .mfAuthKeyA blk key uid => c.card.authKeyA :: blk :: (key ++ uid)
  | .mfRead blk lo hi => [c.card.read, blk, lo, hi]
  | .mfWrite blk lo hi => [c.card.write, blk, lo, hi]
  | .mfAck high fourBits => [high ++ ackNibble c, if fourBits then 4 else 0]

/-! ## Words numbered as spec/opcode_table.json numbers them (log entry 8) -/

/-- Operand bytes of zeros, enough for the longest word with empty lists (`open`, 13 bytes). -/
def zeroOperands : List Byte := List.replicate 16 0

/-- The layers a table word can be read in, with the bytes of the word there. A 16-bit row is a card frame "big-end
first"; a one-byte row may be a word of several layers, and the first that decodes it is taken. -/
def tableReadings (nbits w : Nat) : List (Layer × List Byte) :=
  let b0 : Byte := BitVec.ofNat 8 w
  let b1 : Byte := BitVec.ofNat 8 (w / 256)
  if nbits ≤ 8 then
    [(.hostCall, b0 :: zeroOperands), (.internalStep, b0 :: zeroOperands), (.cardFrame, b0 :: zeroOperands),
     (.chipCommand, [b0]), (.exchange, [b0, 0]), (.cardAnswer, [b0, 0])]
  else if nbits ≤ 16 then
    [(.cardFrame, b1 :: b0 :: zeroOperands), (.hostCall, b0 :: b1 :: zeroOperands),
     (.internalStep, b0 :: b1 :: zeroOperands), (.exchange, [b0, b1]), (.cardAnswer, [b0, b1])]
  else
    [(.hostCall, (List.range 13).map (fun k => BitVec.ofNat 8 (w / 256 ^ k)))]

/-- The first reading that decodes: its layer, the instruction's own bytes, and the instruction. -/
def firstReading (c : Cfg) : List (Layer × List Byte) → Option (Layer × List Byte × Instr)
  | [] => none
  | (l, bs) :: rest => match decodePrefix c l bs with
    | .ok (i, r) => some (l, bs.take (bs.length - r.length), i)
    | .error _ => firstReading c rest

/-- The layer, bytes and instruction of a table word. -/
def tableWord (c : Cfg) (nbits w : Nat) : Option (Layer × List Byte × Instr) := firstReading c (tableReadings nbits w)

/-- The instruction the decoder reads from a word of spec/opcode_table.json, whose codes are the defaults. -/
def decodeTableWord (nbits w : Nat) : Option Instr := (tableWord Cfg.default nbits w).map (fun t => t.2.2)

end Sys2Proof
end

