-- ==== Sys2Proof/Machine/State.lean ====
section
/-! DEFINITION. The state of the machine as plain data (rules R9, R21, R24, R25, R255, R290), the values an operation
returns, its errors and refusals, and the state after reset (rules R48, R290). The chip's registers, the FIFO, the CRC
unit, the timer and the card are not state of the model: "The model does not hold the chip register file" (rule R26). -/

namespace Sys2Proof.Machine

/-! ## The core's own state (rule R21) -/

/-- The transport handle of rule R21: `Closed` or `Open(busIndex, deviceIndex, clockHz)` (`open` is a Lean keyword). -/
inductive Handle where
  | closed
  | opened (busIndex deviceIndex clockHz : Nat)
  deriving DecidableEq, Repr

/-- The lifecycle phase of rule R21. -/
inductive Phase where
  | closed
  | opened
  | ready
  deriving DecidableEq, Repr

/-! ## Results, errors, refusals (rules R24, R25, R251, R255) -/

/-- The note of a transceive result (rule R24): `None`, `"TimerIRq"` or `"Timeout"`. -/
inductive Note where
  | noNote
  | timerIRq
  | timeout
  deriving DecidableEq, Repr

/-- `TransceiveResult` (rule R24). -/
structure TransceiveResult where
  data : List Byte
  validBits : Byte
  errReg : Option Byte
  irqReg : Byte
  note : Note
  deriving DecidableEq, Repr

/-- Why a poll ended (rule R116). -/
inductive PollEnd where
  | bit
  | deadline
  deriving DecidableEq, Repr

/-- The ATQA of rule R25. -/
structure Atqa where
  b0 : Byte
  b1 : Byte
  deriving DecidableEq, Repr

/-- The UID of rule R25: exactly four bytes. -/
structure Uid where
  u0 : Byte
  u1 : Byte
  u2 : Byte
  u3 : Byte
  deriving DecidableEq, Repr

/-- The card of rule R202, with its optional SAK. -/
structure Card where
  atqa : Atqa
  uid : Uid
  sak : Option Byte
  deriving DecidableEq, Repr

/-- What an operation returns to its caller (rules R25, R111 to R223). -/
inductive Value where
  | unit
  | absent
  | byte (v : Byte)
  | count (n : Nat)
  | bytes (bs : List Byte)
  | bool (b : Bool)
  | poll (v : Byte) (why : PollEnd)
  | transceived (r : TransceiveResult)
  | atqa (a : Atqa)
  | uid (u : Uid)
  | sak (s : Byte)
  | card (c : Card)
  deriving DecidableEq, Repr

/-- The transport reason of a `TransportError` (rules R110, R251): an opaque code from the transport, or the length
mismatch of decision D44. -/
inductive TransportReason where
  | lengthMismatch
  | external (code : Nat)
  deriving DecidableEq, Repr

/-- The error taxonomy of rule R251, each with its recorded information. -/
inductive Error where
  | transportError (reason : TransportReason)
  | crcTimeout (divIrq : Byte)
  | transceiveError (err irq : Byte)
  | authError (err irq : Byte)
  | authFailed (status2 irq : Byte)
  | invalidKeyLength (len : Nat)
  | shortRead (received : Nat)
  | writeNotAcked (phase : Nat) (data : List Byte) (validBits : Byte)
  deriving DecidableEq, Repr

/-- The refusal reasons of rule R255. A refused call is a NEXT state of the machine: rule R255 says what it leaves (no
event, and the mark `refused`). -/
inductive RefusalReason where
  | notOpen
  | alreadyOpen
  | notInitialised
  | alreadyInitialised
  | concurrentCall
  | badRegisterAddress
  | badValidBits
  | badFrameLength
  | badBlockAddress
  | badUidLength
  | unknownOperation
  deriving DecidableEq, Repr

/-- How an operation ended (rule R250): a value (an absent result among them), an error, or a refusal. -/
inductive CallOutcome where
  | returned (v : Value)
  | raised (e : Error)
  | refused (r : RefusalReason)
  deriving DecidableEq, Repr

/-! ## Observation and environment (rules R8, R9) -/

/-- An event of the observation of rule R9, with the environment's answer where the environment gives one. -/
inductive Event where
  | transportOpen (busIndex deviceIndex clockHz : Nat) (answer : LinkAnswer)
  | transportClose (answer : LinkAnswer)
  | exchange (tx : List Byte) (answer : ExchangeAnswer)
  | sleep (ms : Nat)
  | deadlineStart (ms : Nat)
  | expired (answer : Bool)
  deriving DecidableEq, Repr

/-- A call put to the core: a word of a layer. `overlaps` says that the host issued it while the call before it was
still in progress (rule R23). -/
structure Call where
  layer : Layer
  bytes : List Byte
  overlaps : Bool
  deriving DecidableEq, Repr

/-- The machine's state. -/
structure State where
  /-- the configuration record of rule R13: no step changes it -/
  cfg : Cfg
  /-- `handle` (rule R21) -/
  handle : Handle
  /-- `phase` (rule R21) -/
  phase : Phase
  /-- `busy` (rules R21, R23) -/
  busy : Bool
  /-- the mark of rule R255, which no step clears -/
  refused : Bool
  /-- the event history (rules R9, R290), oldest first -/
  events : List Event
  /-- the outcomes of the calls so far (rule R9), oldest first -/
  outcomes : List CallOutcome
  /-- the model's own field: the calls the host has put and the core has not yet begun (rule R8) -/
  calls : List Call
  /-- the model's own field: answers given in advance to the next exchanges (rule R8) -/
  answers : List ExchangeAnswer
  /-- the model's own field: answers given in advance to the next openings and closings (rules R117, R118) -/
  links : List LinkAnswer
  /-- the model's own field: for the next deadlines, how often `Expired` answers false before true (decision D2) -/
  expiries : List Nat
  /-- the model's own field: how many questions the environment has been asked; it selects the free values -/
  draws : Nat
  deriving DecidableEq, Repr

/-- The state at model start (rules R48, R290): handle and phase `Closed`, not busy, no mark, empty history; nothing
given in advance. -/
def State.reset : State where
  cfg := Cfg.default
  handle := .closed
  phase := .closed
  busy := false
  refused := false
  events := []
  outcomes := []
  calls := []
  answers := []
  links := []
  expiries := []
  draws := 0

/-! ## How a step can stop -/

/-- Faults of the machine. There are none: an error of the spec is the outcome of a call, after which the machine goes
on (rules R262, R265), and the only endless behaviour, a poll whose deadline never expires, is excluded by the fairness
assumption (rule R250, decision D2). Nobody raises a fault, and that is safe. -/
inductive Fault : Type
  deriving DecidableEq, Repr

/-- Refusals of the MODEL (those of rule R255 are `RefusalReason`). -/
inductive Refusal where
  /-- raised by an arm of `exec` whose instruction has no meaning yet; safe, since the run stops -/
  | notModelled (mnemonic : String)
  deriving DecidableEq, Repr

/-- What ends an operation before its value: an error or a refusal (rules R16, R250). -/
inductive Stop where
  | raise (e : Error)
  | refuse (r : RefusalReason)
  deriving DecidableEq, Repr

/-- A program of the pseudocode of rule R16: it runs on the state and ends with a value or a stop; the state it
reached, events included, stays in either case (rule R263). -/
abbrev Op (α : Type) := EStateM Stop State α

end Sys2Proof.Machine
end

