-- ==== Sys2Proof/Machine/Flags.lean ====
section
/-! DEFINITION. The bit tests of the core: masks, the exit of the transceive poll, the ACK test. The core has no flags
of its own (rule R20); these are the tests it makes on bytes it read. -/

namespace Sys2Proof.Machine

/-- `v & m ≠ 0`. -/
def anySet (v m : Byte) : Bool := (v &&& m) != 0

/-- `v & m = m`. -/
def allSet (v m : Byte) : Bool := (v &&& m) == m

/-- `v | m` (rule R114). -/
def withBits (v m : Byte) : Byte := v ||| m

/-- `v & ~m` (rule R115). -/
def withoutBits (v m : Byte) : Byte := v &&& ~~~m

/-- The three exits of the transceive poll (rules R152, R264). -/
inductive TransceiveExit where
  | completion
  | timer
  | timeout
  deriving DecidableEq, Repr

/-- The classification of the last interrupt value read (rule R152): `RxIRq` over `TimerIRq` over the deadline when
`RX_BEFORE_TIMER`, `TimerIRq` over `RxIRq` otherwise. -/
def transceiveExit (c : Cfg) (irq : Byte) : TransceiveExit :=
  if c.rxBeforeTimer then
    if anySet irq c.mask.rxIRq then .completion
    else if anySet irq c.mask.timerIRq then .timer
    else .timeout
  else
    if anySet irq c.mask.timerIRq then .timer
    else if anySet irq c.mask.rxIRq then .completion
    else .timeout

/-- The result of a poll that ended without data (rule R154). -/
def emptyResult (irq : Byte) (note : Note) : TransceiveResult :=
  { data := [], validBits := 0, errReg := none, irqReg := irq, note := note }

/-- `isAck(r)` (rule R194): at least one byte, its low nibble the ACK code, 4 or 0 valid bits. -/
def isAck (c : Cfg) (r : TransceiveResult) : Bool :=
  match r.data with
  | [] => false
  | b :: _ => ((b &&& 0x0F) == c.card.ack) && (r.validBits == 4 || r.validBits == 0)

/-- The number of an error (rule R251, decision D28). -/
def errorCode : Error → Nat
  | .transportError _ => 1
  | .crcTimeout _ => 2
  | .transceiveError _ _ => 3
  | .authError _ _ => 4
  | .authFailed _ _ => 5
  | .invalidKeyLength _ => 6
  | .shortRead _ => 7
  | .writeNotAcked _ _ _ => 8

/-- "only transport-level faults should be treated as requiring driver re-initialization" (rules R252, R262). -/
def isTransport : Error → Bool
  | .transportError _ => true
  | _ => false

end Sys2Proof.Machine
end

