-- ==== Sys2Proof/Machine/Operands.lean ====
section
/-! DEFINITION. The operands of the operations: exchange bytes, card frames, UIDs, the sixteen-byte payload, the length
of a frame in bits (rules R83 to R99, R198, R199). -/

namespace Sys2Proof.Machine

/-! ## Exchange bytes (rules R83 to R85) -/

/-- `[encW(a), v]` (rule R83). -/
def txWrite (a : RegAddr) (v : Byte) : List Byte := [encW a, v]

/-- `[encR(a), PAD]` (rule R84). -/
def txRead (a : RegAddr) : List Byte := [encR a, Config.pad]

/-- `[encW(a)] ++ bs` (rule R85). -/
def txBurst (a : RegAddr) (bs : List Byte) : List Byte := encW a :: bs

/-! ## Card frames (rule R92) -/

/-- REQA, sent as 7 bits. -/
def reqaFrame (c : Cfg) : List Byte := [c.card.reqa]

/-- ANTICOLL CL1. -/
def anticollFrame (c : Cfg) : List Byte := [c.card.selCl1, c.card.nvbAnticoll]

/-- SELECT CL1 before its CRC: command pair, UID, check byte (rules R92, R178). -/
def selectBody (c : Cfg) (uid : List Byte) : List Byte :=
  [c.card.selCl1, c.card.nvbSelect] ++ uid ++ [bcc uid]

/-- The MFAuthent input: command, block, key, UID (rules R92, R183). -/
def authFrame (c : Cfg) (blk : Byte) (key uid : List Byte) : List Byte :=
  [c.card.authKeyA, blk] ++ key ++ uid

/-- READ before its CRC. -/
def readBody (c : Cfg) (blk : Byte) : List Byte := [c.card.read, blk]

/-- WRITE phase 1 before its CRC. -/
def writeBody (c : Cfg) (blk : Byte) : List Byte := [c.card.write, blk]

/-- A block index as its frame byte (rule R97). -/
def blockByte (blk : Nat) : Byte := BitVec.ofNat 8 blk

/-- The length of a frame of `n ≥ 1` bytes in bits, for a valid-bits count `vb` (rule R96). -/
def frameBits (n vb : Nat) : Nat := 8 * (n - 1) + (if vb = 0 then 8 else vb)

/-! ## UID, ATQA and answers (rules R25, R170, R175) -/

/-- The four bytes of a UID, in order. -/
def uidBytes (u : Uid) : List Byte := [u.u0, u.u1, u.u2, u.u3]

/-- The ATQA of an answer: "exactly 2 received bytes" (rule R170). -/
def atqaOf : List Byte → Option Atqa
  | [b0, b1] => some ⟨b0, b1⟩
  | _ => none

/-- The UID of an answer: at least five bytes, the fifth the check byte of the first four (rule R175). -/
def uidOf : List Byte → Option Uid
  | u0 :: u1 :: u2 :: u3 :: c :: _ => if u0 ^^^ u1 ^^^ u2 ^^^ u3 = c then some ⟨u0, u1, u2, u3⟩ else none
  | _ => none

/-- The SAK of an answer: its first byte (rule R178). -/
def sakOf : List Byte → Option Byte
  | s :: _ => some s
  | [] => none

/-! ## Pure helpers (rules R198, R199) -/

/-- `isTrailerBlock(b)`: `b mod 4 = 3` (rule R198). -/
def trailerBlock (b : Nat) : Bool := b % 4 == 3

/-- `ensure16Bytes(xs)`: zero-padded on the right or truncated to 16 bytes (rule R199). -/
def sixteenBytes (xs : List Byte) : List Byte :=
  xs.take Config.blockLen ++ List.replicate (Config.blockLen - min Config.blockLen xs.length) 0

end Sys2Proof.Machine
end

