-- ==== Sys2Proof/Machine/Ops.lean ====
section
/-! DEFINITION. The shared operations: questions to the environment (rules R8, R110, R116 to R118), the register
operations (rules R110 to R116), the refusals and preconditions (rules R255, R264), the ends of an operation, the entry
of an error among them (rules R250, R262), and the calls the host puts (rules R8, R102, R104). -/

namespace Sys2Proof.Machine

/-! ## Primitives of the pseudocode (rule R16) -/

/-- `refuse(reason)`. -/
def refuse {α : Type} (r : RefusalReason) : Op α := fun s => .error (.refuse r) s

/-- `raise E(info)`. -/
def raise {α : Type} (e : Error) : Op α := fun s => .error (.raise e) s

/-- The configuration the operation runs under. -/
def getCfg : Op Cfg := fun s => .ok s.cfg s

/-- Record an event of the observation (rule R9). -/
def record (e : Event) : Op Unit := fun s => .ok () { s with events := s.events ++ [e] }

/-- `Sleep(ms)`: "a wall-clock delay, recorded as an event; no state changes". -/
def sleep (ms : Nat) : Op Unit := record (.sleep ms)

/-- `phase <- p`. -/
def setPhase (p : Phase) : Op Unit := fun s => .ok () { s with phase := p }

/-- A precondition: refused with the reason if it does not hold. -/
def require (c : Bool) (r : RefusalReason) : Op Unit := if c then pure () else refuse r

/-! ## Questions to the environment (rule R8, decisions D1, D2) -/

/-- The answer to an exchange: the next one given in advance, else a free value. -/
def drawExchange (tx : List Byte) : Op ExchangeAnswer := fun s =>
  match s.answers with
  | a :: rest => .ok a { s with answers := rest, draws := s.draws + 1 }
  | [] => .ok (Config.freeExchange s.draws tx) { s with draws := s.draws + 1 }

/-- The answer to an opening or a closing. -/
def drawLink : Op LinkAnswer := fun s =>
  match s.links with
  | a :: rest => .ok a { s with links := rest, draws := s.draws + 1 }
  | [] => .ok (Config.freeLink s.draws) { s with draws := s.draws + 1 }

/-- For a deadline that starts now: how often `Expired` answers false before it answers true (log entry 3). -/
def drawExpiry : Op Nat := fun s =>
  match s.expiries with
  | k :: rest => .ok k { s with expiries := rest, draws := s.draws + 1 }
  | [] => .ok (Config.freeExpiry s.draws) { s with draws := s.draws + 1 }

/-! ## Preconditions (rules R119, R255; 43_card_protocol.md, common precondition) -/

/-- Whether the handle is open. -/
def isOpen : Handle → Bool
  | .closed => false
  | .opened _ _ _ => true

/-- `handle = Open(...)`, else `NotOpen` (rule R119). -/
def requireOpen : Op Unit := fun s => require (isOpen s.handle) .notOpen s

/-- `phase = Ready`, else `NotInitialised` (43_card_protocol.md). -/
def requireReady : Op Unit := fun s => require (decide (s.phase = .ready)) .notInitialised s

/-- A register operand: above 63 it is refused with `BadRegisterAddress` (rules R61, R111). -/
def registerOperand (a : Byte) : Op RegAddr :=
  match toRegAddr a with
  | some a' => pure a'
  | none => refuse .badRegisterAddress

/-- A block operand: above 255 it is refused with `BadBlockAddress` (rules R66, R183). -/
def blockOperand (blk : Nat) : Op Byte :=
  if blk ≤ 255 then pure (blockByte blk) else refuse .badBlockAddress

/-- A UID operand: other than 4 bytes it is refused with `BadUidLength` (rules R97, R178). -/
def uidOperand (uid : List Byte) : Op Unit := require (uid.length == Config.uidLen) .badUidLength

/-! ## The register interface (rules R110 to R116) -/

/-- `Exchange(tx) -> rx` (rule R110). -/
def exchange (tx : List Byte) : Op (List Byte) := do
  requireOpen
  let answer ← drawExchange tx
  record (.exchange tx answer)
  match answer with
  | .fail reason => raise (.transportError (.external reason))
  | .reply rx => if rx.length = tx.length then pure rx else raise (.transportError .lengthMismatch)

/-- `readRegister(a)` (rule R111): the value is `rx[1]`. -/
def readRegister (a : RegAddr) : Op Byte := do
  let rx ← exchange (txRead a)
  pure (rx.getD 1 0)

/-- `writeRegister(a, v)` (rule R112). -/
def writeRegister (a : RegAddr) (v : Byte) : Op Unit := do
  let _ ← exchange (txWrite a v)
  pure ()

/-- `writeRegisterBurst(a, bs)` (rule R113). -/
def writeRegisterBurst (a : RegAddr) (bs : List Byte) : Op Unit := do
  let _ ← exchange (txBurst a bs)
  pure ()

/-- `SetBits(a, m)` (rule R114). -/
def setBits (a : RegAddr) (m : Byte) : Op Unit := do
  let v ← readRegister a
  writeRegister a (withBits v m)

/-- `ClearBits(a, m)` (rule R115). -/
def clearBits (a : RegAddr) (m : Byte) : Op Unit := do
  let v ← readRegister a
  writeRegister a (withoutBits v m)

/-- The loop of `pollUntil` (rule R116), for a deadline whose `Expired` answers false `k` times and then true: one
read, the stop test, then the deadline test. -/
def pollLoop (a : RegAddr) (stopMask : Byte) : Nat → Op (Byte × PollEnd)
  | 0 => do
    let v ← readRegister a
    if anySet v stopMask then pure (v, .bit)
    else do
      record (.expired true)
      pure (v, .deadline)
  | k + 1 => do
    let v ← readRegister a
    if anySet v stopMask then pure (v, .bit)
    else do
      record (.expired false)
      pollLoop a stopMask k

/-- `pollUntil(a, stopMask, ms)` (rule R116). -/
def pollUntil (a : RegAddr) (stopMask : Byte) (ms : Nat) : Op (Byte × PollEnd) := do
  record (.deadlineStart ms)
  let k ← drawExpiry
  pollLoop a stopMask k

/-! ## Ends of an operation (rules R23, R250, R255, R262) -/

/-- The persistent mark of a refusal (rule R255). -/
def markRefused (s : State) : State := { s with refused := true }

/-- ENTRY OF AN ERROR (rule R262): `busy` is cleared, `phase` becomes `Opened` if the error is a transport error and
the handle is open, and nothing else changes: nothing is saved and there is no vector. -/
def enterError (e : Error) (s : State) : State :=
  { s with
    busy := false
    phase := if isTransport e && isOpen s.handle then .opened else s.phase }

/-- RETURN (rules R23, R265): the operation ends, and there is nothing to restore. -/
def leaveOperation (s : State) : State := { s with busy := false }

/-- Record the outcome of a call (rule R9). -/
def report (o : CallOutcome) (s : State) : State := { s with outcomes := s.outcomes ++ [o] }

/-- A call of the host (rules R23, R250): refused with `ConcurrentCall` while another operation is in progress;
otherwise `busy` holds from its first event to its end. -/
def asHostCall {α : Type} (op : Op α) : Op α := fun s =>
  if s.busy then .error (.refuse .concurrentCall) (markRefused s)
  else match op { s with busy := true } with
    | .ok a t => .ok a (leaveOperation t)
    | .error (.raise e) t => .error (.raise e) (enterError e t)
    | .error (.refuse r) t => .error (.refuse r) (leaveOperation (markRefused t))

/-- A step inside an operation, run on its own (log entry 6): it is no call of the host, so it does not test `busy`
(rule R23) and does not end the operation unless it raises. -/
def asStep {α : Type} (op : Op α) : Op α := fun s =>
  match op s with
  | .ok a t => .ok a t
  | .error (.raise e) t => .error (.raise e) (enterError e t)
  | .error (.refuse r) t => .error (.refuse r) (markRefused t)

/-- The state an operation ends in, with its outcome reported (rules R9, R250). -/
def concluded {α : Type} (value : α → Value) : EStateM.Result Stop State α → State
  | .ok a t => report (.returned (value a)) t
  | .error (.raise e) t => report (.raised e) t
  | .error (.refuse r) t => report (.refused r) t

/-- The state after a call of the host. -/
def hostCall {α : Type} (op : Op α) (value : α → Value) (s : State) : State := concluded value (asHostCall op s)

/-- The state after a step of an inner layer. -/
def innerStep {α : Type} (op : Op α) (value : α → Value) (s : State) : State := concluded value (asStep op s)

/-- An operation on an open handle (rules R119, R264). -/
def onOpenHandle {α : Type} (op : Op α) : Op α := do
  requireOpen
  op

/-- A card operation (rules R119, R264; 43_card_protocol.md, common precondition). -/
def whenReady {α : Type} (op : Op α) : Op α := do
  requireOpen
  requireReady
  op

/-! ## Values of absent results (rule R25) -/

/-- `Atqa(b0, b1) | Absent`. -/
def atqaValue : Option Atqa → Value
  | some a => .atqa a
  | none => .absent

/-- `Uid(u0, u1, u2, u3) | Absent`. -/
def uidValue : Option Uid → Value
  | some u => .uid u
  | none => .absent

/-- `Sak(s) | Absent`. -/
def sakValue : Option Byte → Value
  | some b => .sak b
  | none => .absent

/-- `Card(...) | Absent`. -/
def cardValue : Option Card → Value
  | some c => .card c
  | none => .absent

/-! ## The calls put to the core (rules R8, R23, R102, R104) -/

/-- The instruction of a call's word, under the codes of the configuration. -/
def decodeCall (cfg : Cfg) (c : Call) : Except DecodeError Instr := decode cfg c.layer c.bytes

/-- The state in which a call begins: it has left the queue, and an overlapping one finds the core busy (rule R23). -/
def beginCall (c : Call) (rest : List Call) (s : State) : State :=
  { s with calls := rest, busy := s.busy || c.overlaps }

/-- The state after a call: for an overlapping one, the operation it overlapped has ended. -/
def endCall (c : Call) (s t : State) : State := if c.overlaps then { t with busy := s.busy } else t

/-- A word that spells no instruction is refused with `UnknownOperation` (rules R102, R104). -/
def unknownCall (s : State) : State := hostCall (α := Unit) (refuse .unknownOperation) (fun _ => .unit) s

/-- Put a call before the ones already waiting. -/
def putCall (c : Call) (s : State) : State := { s with calls := c :: s.calls }

end Sys2Proof.Machine
end

