-- ==== Sys2Proof/Machine/Fifo.lean ====
section
/-! DEFINITION. FIFO access and the CRC engine: flushFifo, fifoLevel, readFifoBytes, calcCrc (rules R130 to R138). -/

namespace Sys2Proof.Machine

/-- `flushFifo()` (rule R130): one direct write, no read (decision D10). -/
def flushFifo : Op Unit := do
  let c ← getCfg
  writeRegister c.reg.fifoLevel c.mask.flushBuffer

/-- `fifoLevel()` (rule R131): the count is not clamped (decision D12). -/
def fifoLevel : Op Nat := do
  let c ← getCfg
  let v ← readRegister c.reg.fifoLevel
  pure (v &&& c.mask.fifoLevel).toNat

/-- `readFifoBytes(n)` (rules R132, R133): `n` single-register reads, in order. -/
def readFifoBytes : Nat → Op (List Byte)
  | 0 => pure []
  | n + 1 => do
    let c ← getCfg
    let b ← readRegister c.reg.fifoData
    let rest ← readFifoBytes n
    pure (b :: rest)

/-- `calcCrc(buffer)` (rule R136): the two result bytes, low first; `CommandReg` is not returned to Idle
(decision D41). -/
def calcCrc (buffer : List Byte) : Op (List Byte) := do
  require (decide (buffer.length ≤ Config.fifoCapacity)) .badFrameLength
  let c ← getCfg
  writeRegister c.reg.command c.cmd.idle
  writeRegister c.reg.divIrq c.mask.crcIRq
  flushFifo
  writeRegisterBurst c.reg.fifoData buffer
  writeRegister c.reg.command c.cmd.calcCrc
  let (v, why) ← pollUntil c.reg.divIrq c.mask.crcIRq Config.tCrc
  match why with
  | .deadline => raise (.crcTimeout v)
  | .bit => do
    let lo ← readRegister c.reg.crcResultL
    let hi ← readRegister c.reg.crcResultH
    pure [lo, hi]

/-- `appendCrc(f) = f ++ calcCrc(f)` (rules R94, R103). -/
def appendCrc (f : List Byte) : Op (List Byte) := do
  let crc ← calcCrc f
  pure (f ++ crc)

/-- Meaning of `flushFifo` (rule R130). -/
def execFlushFifo (s : State) : Host.Outcome State Fault Refusal :=
  .next (hostCall (onOpenHandle flushFifo) (fun _ => .unit) s)

/-- Meaning of `fifoLevel` (rule R131). -/
def execFifoLevel (s : State) : Host.Outcome State Fault Refusal :=
  .next (hostCall (onOpenHandle fifoLevel) .count s)

/-- Meaning of `readFifoBytes` (rule R132). -/
def execReadFifoBytes (n : Nat) (s : State) : Host.Outcome State Fault Refusal :=
  .next (hostCall (onOpenHandle (readFifoBytes n)) .bytes s)

/-- Meaning of `calcCrc` (rule R136). -/
def execCalcCrc (buffer : List Byte) (s : State) : Host.Outcome State Fault Refusal :=
  .next (hostCall (onOpenHandle (calcCrc buffer)) .bytes s)

end Sys2Proof.Machine
end

