-- ==== Sys2Proof/Machine/Transceive.lean ====
section
/-! DEFINITION. The transceive engine (rules R150 to R156). -/

namespace Sys2Proof.Machine

/-- The seven preamble steps of rule R151, in the source's order. -/
def transceivePreamble (frame : List Byte) (vb : Byte) : Op Unit := do
  let c ← getCfg
  writeRegister c.reg.command c.cmd.idle
  writeRegister c.reg.comIrq c.mask.comIrqClearAll
  flushFifo
  writeRegisterBurst c.reg.fifoData frame
  writeRegister c.reg.bitFraming vb
  writeRegister c.reg.command c.cmd.transceive
  setBits c.reg.bitFraming c.mask.startSend

/-- Completion (rule R153): the start bit is cleared, the error register tested, the FIFO drained byte by byte, the
valid-bits field read. -/
def transceiveCompletion (irq : Byte) : Op TransceiveResult := do
  let c ← getCfg
  clearBits c.reg.bitFraming c.mask.startSend
  let err ← readRegister c.reg.error
  if anySet err c.mask.errTransceive then raise (.transceiveError err irq)
  else do
    let n ← fifoLevel
    let data ← readFifoBytes n
    let rl ← readRegister c.reg.control
    pure { data := data, validBits := rl &&& c.mask.rxLastBits, errReg := some err, irqReg := irq, note := .noNote }

/-- `transceive(frame, validBitsLastByte, timeoutMs)` (rule R150). -/
def transceive (frame : List Byte) (vb : Byte) (timeoutMs : Nat) : Op TransceiveResult := do
  require (decide (vb.toNat ≤ 7)) .badValidBits
  require (decide (1 ≤ frame.length ∧ frame.length ≤ Config.fifoCapacity)) .badFrameLength
  let c ← getCfg
  transceivePreamble frame vb
  let (irq, _) ← pollUntil c.reg.comIrq (c.mask.rxIRq ||| c.mask.timerIRq) timeoutMs
  match transceiveExit c irq with
  | .timer => pure (emptyResult irq .timerIRq)
  | .timeout => pure (emptyResult irq .timeout)
  | .completion => transceiveCompletion irq

/-- Meaning of `transceive` (rule R150). -/
def execTransceive (frame : List Byte) (vb : Byte) (timeoutMs : Nat) (s : State) : Host.Outcome State Fault Refusal :=
  .next (hostCall (onOpenHandle (transceive frame vb timeoutMs)) .transceived s)

end Sys2Proof.Machine
end

