-- ==== Sys2Proof/Machine/CardProtocol.lean ====
section
/-! DEFINITION. The card protocol layer: REQA, anticollision, select, Key-A authentication, block read, two-phase block
write, the pure helpers and the detection cycle (rules R170 to R204). -/

namespace Sys2Proof.Machine

/-! ## Detection stages (rules R170, R175, R178) -/

/-- `requestA()` (rule R170). -/
def requestA : Op (Option Atqa) := do
  let c ← getCfg
  let r ← transceive (reqaFrame c) 7 Config.tReqa
  pure (atqaOf r.data)

/-- `anticollCL1()` (rule R175). -/
def anticollCL1 : Op (Option Uid) := do
  let c ← getCfg
  clearBits c.reg.coll c.mask.valuesAfterColl
  let r ← transceive (anticollFrame c) 0 Config.tAnticoll
  pure (uidOf r.data)

/-- `selectCL1(uid)` (rule R178). -/
def selectCL1 (uid : List Byte) : Op (Option Byte) := do
  uidOperand uid
  let c ← getCfg
  let frame ← appendCrc (selectBody c uid)
  let r ← transceive frame 0 Config.tSelect
  pure (sakOf r.data)

/-! ## Authentication (rules R183 to R185) -/

/-- The exchanges of `mifareAuthKeyA` on its FIFO input `f` (rule R183): every exit of the poll goes on to the error
register and then to the crypto bit, which decides (rule R184). -/
def authenticate (f : List Byte) : Op Unit := do
  let c ← getCfg
  writeRegister c.reg.command c.cmd.idle
  writeRegister c.reg.comIrq c.mask.comIrqClearAll
  flushFifo
  writeRegisterBurst c.reg.fifoData f
  writeRegister c.reg.command c.cmd.mfAuthent
  let (irq, _) ← pollUntil c.reg.comIrq (c.mask.idleIRq ||| c.mask.timerIRq) Config.tAuth
  let err ← readRegister c.reg.error
  if anySet err c.mask.errAuth then raise (.authError err irq)
  else do
    let s2 ← readRegister c.reg.status2
    if anySet s2 c.mask.mfCrypto1On then pure () else raise (.authFailed s2 irq)

/-- `mifareAuthKeyA(blk, key, uid)` (rule R183). -/
def mifareAuthKeyA (blk : Nat) (key uid : List Byte) : Op Unit := do
  let b ← blockOperand blk
  uidOperand uid
  if key.length ≠ Config.keyLen then raise (.invalidKeyLength key.length)
  else do
    let c ← getCfg
    authenticate (authFrame c b key uid)

/-! ## Block read and write (rules R187 to R196) -/

/-- `mifareReadBlock(blk)` (rule R187). -/
def mifareReadBlock (blk : Nat) : Op (List Byte) := do
  let b ← blockOperand blk
  let c ← getCfg
  let frame ← appendCrc (readBody c b)
  let r ← transceive frame 0 Config.tRead
  if r.data.length < Config.blockLen then raise (.shortRead r.data.length)
  else pure (r.data.take Config.blockLen)

/-- One phase of the write: the frame with its CRC, then the ACK test (rules R193, R194). -/
def writePhase (phase : Nat) (body : List Byte) (timeoutMs : Nat) : Op Unit := do
  let c ← getCfg
  let frame ← appendCrc body
  let r ← transceive frame 0 timeoutMs
  if isAck c r then pure () else raise (.writeNotAcked phase r.data r.validBits)

/-- `mifareWriteBlock(blk, payload)` (rules R193, R196): the payload is sent only after the phase-1 ACK. -/
def mifareWriteBlock (blk : Nat) (payload : List Byte) : Op Unit := do
  let b ← blockOperand blk
  let c ← getCfg
  writePhase 1 (writeBody c b) Config.tWrite1
  writePhase 2 (sixteenBytes payload) Config.tWrite2

/-! ## The detection cycle (rule R202) -/

/-- `detectCard()` (rule R202): a select without SAK still yields a card. -/
def detectCard : Op (Option Card) := do
  let a ← requestA
  match a with
  | none => pure none
  | some atqa => do
    let u ← anticollCL1
    match u with
    | none => pure none
    | some uid => do
      let sak ← selectCL1 (uidBytes uid)
      pure (some { atqa := atqa, uid := uid, sak := sak })

/-! ## Meanings -/

/-- Meaning of `requestA` (rule R170). -/
def execRequestA (s : State) : Host.Outcome State Fault Refusal :=
  .next (hostCall (whenReady requestA) atqaValue s)

/-- Meaning of `anticollCL1` (rule R175). -/
def execAnticollCL1 (s : State) : Host.Outcome State Fault Refusal :=
  .next (hostCall (whenReady anticollCL1) uidValue s)

/-- Meaning of `selectCL1` (rule R178). -/
def execSelectCL1 (uid : List Byte) (s : State) : Host.Outcome State Fault Refusal :=
  .next (hostCall (whenReady (selectCL1 uid)) sakValue s)

/-- Meaning of `mifareAuthKeyA` (rule R183). -/
def execMifareAuthKeyA (blk : Nat) (key uid : List Byte) (s : State) : Host.Outcome State Fault Refusal :=
  .next (hostCall (whenReady (mifareAuthKeyA blk key uid)) (fun _ => .unit) s)

/-- Meaning of `mifareReadBlock` (rule R187). -/
def execMifareReadBlock (blk : Nat) (s : State) : Host.Outcome State Fault Refusal :=
  .next (hostCall (whenReady (mifareReadBlock blk)) .bytes s)

/-- Meaning of `mifareWriteBlock` (rule R193). -/
def execMifareWriteBlock (blk : Nat) (payload : List Byte) (s : State) : Host.Outcome State Fault Refusal :=
  .next (hostCall (whenReady (mifareWriteBlock blk payload)) (fun _ => .unit) s)

/-- Meaning of `isTrailerBlock` (rule R198): pure, no handle required. -/
def execIsTrailerBlock (b : Nat) (s : State) : Host.Outcome State Fault Refusal :=
  .next (hostCall (pure (trailerBlock b)) .bool s)

/-- Meaning of `ensure16Bytes` (rule R199): pure, no handle required. -/
def execEnsure16Bytes (xs : List Byte) (s : State) : Host.Outcome State Fault Refusal :=
  .next (hostCall (pure (sixteenBytes xs)) .bytes s)

/-- Meaning of `detectCard` (rule R202). -/
def execDetectCard (s : State) : Host.Outcome State Fault Refusal :=
  .next (hostCall (whenReady detectCard) cardValue s)

end Sys2Proof.Machine
end

