-- ==== Sys2Proof/Machine/Lifecycle.lean ====
section
/-! DEFINITION. The driver lifecycle: softReset, init, antennaOn (rules R220 to R225). -/

namespace Sys2Proof.Machine

/-- `softReset()` (rule R220): the reset write, the settle delay, `phase <- Opened`. -/
def softReset : Op Unit := do
  let c ← getCfg
  writeRegister c.reg.command c.cmd.softReset
  sleep Config.tSettle
  setPhase .opened

/-- `antennaOn()` (rule R223): no write if both driver bits read as set. -/
def antennaOn : Op Unit := do
  let c ← getCfg
  let v ← readRegister c.reg.txControl
  if allSet v c.mask.antenna then pure ()
  else writeRegister c.reg.txControl (withBits v c.mask.antenna)

/-- `init()` refuses a `Ready` handle (rules R222, R310). -/
def requireNotReady : Op Unit := fun s => require (decide (s.phase ≠ .ready)) .alreadyInitialised s

/-- `init()` (rules R222, R224). -/
def initChip : Op Unit := do
  requireNotReady
  softReset
  let c ← getCfg
  writeRegister c.reg.tMode c.init.tMode
  writeRegister c.reg.tPrescaler c.init.tPrescaler
  writeRegister c.reg.tReloadL c.init.tReloadL
  writeRegister c.reg.tReloadH c.init.tReloadH
  writeRegister c.reg.txAsk c.init.txAsk
  writeRegister c.reg.mode c.init.mode
  antennaOn
  setPhase .ready

/-- Meaning of `softReset` (rule R220). -/
def execSoftReset (s : State) : Host.Outcome State Fault Refusal :=
  .next (hostCall (onOpenHandle softReset) (fun _ => .unit) s)

/-- Meaning of `init` (rule R222). -/
def execInit (s : State) : Host.Outcome State Fault Refusal :=
  .next (hostCall (onOpenHandle initChip) (fun _ => .unit) s)

end Sys2Proof.Machine
end

