-- ==== Sys2Proof/Machine/Inner.lean ====
section
/-! DEFINITION. The rows of spec/opcode_table.json that are no host calls, each run as the step of an operation that it
is: the internal steps (rules R114 to R116, R223), the exchange forms (rules R83 to R85), the chip commands (rule R88),
the card frames (rule R92) and the card's ACK (rule R194). They need an open handle (rule R110) but test neither
`busy` (rule R23) nor the phase; log entry 6. -/

namespace Sys2Proof.Machine

/-! ## Internal steps -/

/-- Meaning of `SetBits` (rule R114). -/
def execSetBits (a : RegAddr) (m : Byte) (s : State) : Host.Outcome State Fault Refusal :=
  .next (innerStep (onOpenHandle (setBits a m)) (fun _ => .unit) s)

/-- Meaning of `ClearBits` (rule R115). -/
def execClearBits (a : RegAddr) (m : Byte) (s : State) : Host.Outcome State Fault Refusal :=
  .next (innerStep (onOpenHandle (clearBits a m)) (fun _ => .unit) s)

/-- Meaning of `pollUntil` (rule R116). -/
def execPollUntil (a : RegAddr) (stopMask : Byte) (ms : Nat) (s : State) : Host.Outcome State Fault Refusal :=
  .next (innerStep (onOpenHandle (pollUntil a stopMask ms)) (fun r => .poll r.1 r.2) s)

/-- Meaning of `antennaOn` (rule R223). -/
def execAntennaOn (s : State) : Host.Outcome State Fault Refusal :=
  .next (innerStep (onOpenHandle antennaOn) (fun _ => .unit) s)

/-! ## Exchange forms -/

/-- Meaning of `spi_write_byte` (rule R83): the reply is ignored. -/
def execSpiWriteByte (a : RegAddr) (v : Byte) (s : State) : Host.Outcome State Fault Refusal :=
  .next (innerStep (exchange (txWrite a v)) (fun _ => .unit) s)

/-- Meaning of `spi_read_byte` (rules R84, R86): the value is `rx[1]`. -/
def execSpiReadByte (a : RegAddr) (s : State) : Host.Outcome State Fault Refusal :=
  .next (innerStep (exchange (txRead a)) (fun rx => .byte (rx.getD 1 0)) s)

/-- Meaning of `spi_burst_write` (rule R85): the reply is ignored. -/
def execSpiBurstWrite (a : RegAddr) (bs : List Byte) (s : State) : Host.Outcome State Fault Refusal :=
  .next (innerStep (exchange (txBurst a bs)) (fun _ => .unit) s)

/-! ## Chip commands -/

/-- A command issue: `writeRegister(CommandReg, code)` (rules R29, R88). -/
def issueCommand (code : Commands → Byte) : Op Unit := do
  let c ← getCfg
  writeRegister c.reg.command (code c.cmd)

/-- Meaning of `CMD_IDLE` (rule R88). -/
def execCmdIdle (s : State) : Host.Outcome State Fault Refusal :=
  .next (innerStep (issueCommand Commands.idle) (fun _ => .unit) s)

/-- Meaning of `CMD_CALCCRC` (rule R88). -/
def execCmdCalcCrc (s : State) : Host.Outcome State Fault Refusal :=
  .next (innerStep (issueCommand Commands.calcCrc) (fun _ => .unit) s)

/-- Meaning of `CMD_TRANSCEIVE` (rule R88). -/
def execCmdTransceive (s : State) : Host.Outcome State Fault Refusal :=
  .next (innerStep (issueCommand Commands.transceive) (fun _ => .unit) s)

/-- Meaning of `CMD_MFAUTHENT` (rule R88). -/
def execCmdMfAuthent (s : State) : Host.Outcome State Fault Refusal :=
  .next (innerStep (issueCommand Commands.mfAuthent) (fun _ => .unit) s)

/-- Meaning of `CMD_SOFTRESET` (rule R88): the command write alone. The settle delay and the phase are `softReset`'s
(rule R220; log entry 7). -/
def execCmdSoftReset (s : State) : Host.Outcome State Fault Refusal :=
  .next (innerStep (issueCommand Commands.softReset) (fun _ => .unit) s)

/-! ## Card frames: the frame of rule R92 through the engine that sends it, with its operation's timeout (rule R11)

DESIGN CHOICE (log entry 6): these rows run on any open handle, whatever the phase. Rule R293 and the precondition of
43_card_protocol.md ask `Ready` of the card operations and say nothing of their frames alone. -/

/-- Meaning of `PICC_REQA` (rules R92, R170). -/
def execPiccReqa (s : State) : Host.Outcome State Fault Refusal :=
  .next (innerStep (onOpenHandle (do
    let c ← getCfg
    transceive (reqaFrame c) 7 Config.tReqa)) .transceived s)

/-- Meaning of `PICC_SEL_CL1 + NVB_ANTICOLL` (rules R92, R175). -/
def execPiccAnticoll (s : State) : Host.Outcome State Fault Refusal :=
  .next (innerStep (onOpenHandle (do
    let c ← getCfg
    transceive (anticollFrame c) 0 Config.tAnticoll)) .transceived s)

/-- Meaning of `PICC_SEL_CL1 + NVB_SELECT` (rules R92, R178). -/
def execPiccSelect (uid : List Byte) (crcLo crcHi : Byte) (s : State) : Host.Outcome State Fault Refusal :=
  .next (innerStep (onOpenHandle (do
    let c ← getCfg
    transceive (selectBody c uid ++ [crcLo, crcHi]) 0 Config.tSelect)) .transceived s)

/-- Meaning of `MF_AUTH_KEY_A` (rules R92, R183): "FIFO input of MFAuthent, not transmitted as is". -/
def execMfAuthKeyA (blk : Byte) (key uid : List Byte) (s : State) : Host.Outcome State Fault Refusal :=
  .next (innerStep (onOpenHandle (do
    let c ← getCfg
    let f := authFrame c blk key uid
    require (decide (f.length ≤ Config.fifoCapacity)) .badFrameLength
    authenticate f)) (fun _ => .unit) s)

/-- Meaning of `MF_READ` (rules R92, R187). -/
def execMfRead (blk crcLo crcHi : Byte) (s : State) : Host.Outcome State Fault Refusal :=
  .next (innerStep (onOpenHandle (do
    let c ← getCfg
    transceive (readBody c blk ++ [crcLo, crcHi]) 0 Config.tRead)) .transceived s)

/-- Meaning of `MF_WRITE` (rules R92, R193): the phase-1 frame. -/
def execMfWrite (blk crcLo crcHi : Byte) (s : State) : Host.Outcome State Fault Refusal :=
  .next (innerStep (onOpenHandle (do
    let c ← getCfg
    transceive (writeBody c blk ++ [crcLo, crcHi]) 0 Config.tWrite1)) .transceived s)

/-! ## The card's ACK -/

/-- The received answer an `MF_ACK` word stands for: one byte, low nibble the ACK code, 4 or 0 valid bits (rules R93,
R194). -/
def ackAnswer (c : Cfg) (high : BitVec 4) (fourBits : Bool) : TransceiveResult :=
  { data := [high ++ ackNibble c], validBits := if fourBits then 4 else 0, errReg := some 0, irqReg := 0, note := .noNote }

/-- Meaning of `MF_ACK` (rule R194): the core's ACK test on that answer. -/
def execMfAck (high : BitVec 4) (fourBits : Bool) (s : State) : Host.Outcome State Fault Refusal :=
  .next (innerStep (do
    let c ← getCfg
    pure (isAck c (ackAnswer c high fourBits))) .bool s)

end Sys2Proof.Machine
end

