-- ==== Sys2Proof/Machine/Register.lean ====
section
/-! DEFINITION. The register interface as host calls: open, close, writeRegister, readRegister, writeRegisterBurst
(rules R111 to R113, R117, R118). -/

namespace Sys2Proof.Machine

/-- `open(busIndex, deviceIndex, clockHz)` (rule R117). -/
def openTransport (bus dev hz : Nat) : Op Unit := fun s =>
  match s.handle with
  | .opened _ _ _ => refuse .alreadyOpen s
  | .closed => (do
      let answer ← drawLink
      record (.transportOpen bus dev hz answer)
      match answer with
      | .fail reason => raise (.transportError (.external reason))
      | .ok => fun t => .ok () { t with handle := .opened bus dev hz, phase := .opened } : Op Unit) s

/-- `handle <- Closed; phase <- Closed` (rule R118). -/
def dropHandle : Op Unit := fun s => .ok () { s with handle := .closed, phase := .closed }

/-- `close()` (rule R118): "any failure is swallowed". -/
def closeTransport : Op Unit := fun s =>
  match s.handle with
  | .opened _ _ _ => (do
      let answer ← drawLink
      record (.transportClose answer)
      dropHandle : Op Unit) s
  | .closed => dropHandle s

/-- Meaning of `open` (rule R117). -/
def execOpenTransport (bus dev hz : Nat) (s : State) : Host.Outcome State Fault Refusal :=
  .next (hostCall (openTransport bus dev hz) (fun _ => .unit) s)

/-- Meaning of `close` (rule R118). -/
def execClose (s : State) : Host.Outcome State Fault Refusal :=
  .next (hostCall closeTransport (fun _ => .unit) s)

/-- Meaning of `writeRegister` (rule R112). -/
def execWriteRegister (a v : Byte) (s : State) : Host.Outcome State Fault Refusal :=
  .next (hostCall (onOpenHandle do
    let a' ← registerOperand a
    writeRegister a' v) (fun _ => .unit) s)

/-- Meaning of `readRegister` (rule R111). -/
def execReadRegister (a : Byte) (s : State) : Host.Outcome State Fault Refusal :=
  .next (hostCall (onOpenHandle do
    let a' ← registerOperand a
    readRegister a') .byte s)

/-- Meaning of `writeRegisterBurst` (rule R113). -/
def execWriteRegisterBurst (a : Byte) (bs : List Byte) (s : State) : Host.Outcome State Fault Refusal :=
  .next (hostCall (onOpenHandle do
    let a' ← registerOperand a
    writeRegisterBurst a' bs) (fun _ => .unit) s)

end Sys2Proof.Machine
end

