-- ==== Sys2Proof/Machine/Dispatch.lean ====
section
/-! DEFINITION. The dispatch of the instructions to their meanings: one arm per row of spec/opcode_table.json. -/

namespace Sys2Proof.Machine

def exec (i : Instr) (s : State) : Host.Outcome State Fault Refusal :=
  match i with
  | .openTransport bus dev hz => Sys2Proof.Machine.execOpenTransport bus dev hz s
  | .close => Sys2Proof.Machine.execClose s
  | .writeRegister a v => Sys2Proof.Machine.execWriteRegister a v s
  | .readRegister a => Sys2Proof.Machine.execReadRegister a s
  | .writeRegisterBurst a bs => Sys2Proof.Machine.execWriteRegisterBurst a bs s
  | .flushFifo => Sys2Proof.Machine.execFlushFifo s
  | .fifoLevel => Sys2Proof.Machine.execFifoLevel s
  | .readFifoBytes n => Sys2Proof.Machine.execReadFifoBytes n s
  | .calcCrc buffer => Sys2Proof.Machine.execCalcCrc buffer s
  | .transceive frame vb ms => Sys2Proof.Machine.execTransceive frame vb ms s
  | .requestA => Sys2Proof.Machine.execRequestA s
  | .anticollCL1 => Sys2Proof.Machine.execAnticollCL1 s
  | .selectCL1 uid => Sys2Proof.Machine.execSelectCL1 uid s
  | .mifareAuthKeyA blk key uid => Sys2Proof.Machine.execMifareAuthKeyA blk key uid s
  | .mifareReadBlock blk => Sys2Proof.Machine.execMifareReadBlock blk s
  | .mifareWriteBlock blk payload => Sys2Proof.Machine.execMifareWriteBlock blk payload s
  | .softReset => Sys2Proof.Machine.execSoftReset s
  | .init => Sys2Proof.Machine.execInit s
  | .isTrailerBlock b => Sys2Proof.Machine.execIsTrailerBlock b s
  | .ensure16Bytes xs => Sys2Proof.Machine.execEnsure16Bytes xs s
  | .detectCard => Sys2Proof.Machine.execDetectCard s
  | .setBits a m => Sys2Proof.Machine.execSetBits a m s
  | .clearBits a m => Sys2Proof.Machine.execClearBits a m s
  | .pollUntil a stopMask ms => Sys2Proof.Machine.execPollUntil a stopMask ms s
  | .antennaOn => Sys2Proof.Machine.execAntennaOn s
  | .spiWriteByte a v => Sys2Proof.Machine.execSpiWriteByte a v s
  | .spiReadByte a => Sys2Proof.Machine.execSpiReadByte a s
  | .spiBurstWrite a bs => Sys2Proof.Machine.execSpiBurstWrite a bs s
  | .cmdIdle => Sys2Proof.Machine.execCmdIdle s
  | .cmdCalcCrc => Sys2Proof.Machine.execCmdCalcCrc s
  | .cmdTransceive => Sys2Proof.Machine.execCmdTransceive s
  | .cmdMfAuthent => Sys2Proof.Machine.execCmdMfAuthent s
  | .cmdSoftReset => Sys2Proof.Machine.execCmdSoftReset s
  | .piccReqa => Sys2Proof.Machine.execPiccReqa s
  | .piccAnticoll => Sys2Proof.Machine.execPiccAnticoll s
  | .piccSelect uid lo hi => Sys2Proof.Machine.execPiccSelect uid lo hi s
  | .mfAuthKeyA blk key uid => Sys2Proof.Machine.execMfAuthKeyA blk key uid s
  | .mfRead blk lo hi => Sys2Proof.Machine.execMfRead blk lo hi s
  | .mfWrite blk lo hi => Sys2Proof.Machine.execMfWrite blk lo hi s
  | .mfAck high fourBits => Sys2Proof.Machine.execMfAck high fourBits s

end Sys2Proof.Machine
end

