-- ==== Sys2Proof/Machine/Step.lean ====
section
/-! DEFINITION. One step of the machine: the core begins the next call the host has put, decodes its word and runs it to
its end (rules R8, R9; log entries 4 and 5). With no call waiting it does nothing: "There is no background polling
inside this core" (rule R235). -/

namespace Sys2Proof.Machine

/-- One step. -/
def step (s : State) : Host.Outcome State Fault Refusal :=
  match s.calls with
  | [] => .next s
  | c :: rest => match decodeCall s.cfg c with
    | .ok i => match exec i (beginCall c rest s) with
      | .next t => .next (endCall c s t)
      | .fault f => .fault f
      | .refused r => .refused r
    | .error _ => .next (endCall c s (unknownCall (beginCall c rest s)))

/-- The state with a word of spec/opcode_table.json as the next call; a word that no layer reads is put as a host call,
which the step refuses. -/
def State.withFetchWord (s : State) (nbits w : Nat) : State :=
  match tableWord s.cfg nbits w with
  | some (l, bs, _) => putCall { layer := l, bytes := bs, overlaps := false } s
  | none => putCall { layer := .hostCall, bytes := [BitVec.ofNat 8 w], overlaps := false } s

end Sys2Proof.Machine
end

