-- ==== Sys2Proof/Machine/Boundary.lean ====
section
/-! DEFINITION. The boundary with the host collaborator (rules R235 to R240): the write policy predicate, the verified
flag, the reference cycle and the upward data. "It is the host's behaviour, not the core's" (rule R238): no step of the
machine runs it; it is a function over the core's calls, stated so that a host can be checked against it. The host's
duties (rule R241) are log entry 28. -/

namespace Sys2Proof.Machine

/-- `writeAllowed(b) = b ≠ 0 ∧ ¬isTrailerBlock(b)` (rule R240). -/
def writeAllowed (b : Nat) : Bool := b != 0 && !trailerBlock b

/-- `verified = (readBack = ensure16Bytes(payload))` (rule R239). -/
def verifiedFlag (payload readBack : List Byte) : Bool := readBack == sixteenBytes payload

/-- The host's requested action (rule R236). -/
inductive Action where
  | uid
  | read
  | write
  deriving DecidableEq, Repr

/-- The downward inputs of a cycle (rule R236). -/
structure CycleInput where
  action : Action
  blk : Nat
  key : List Byte
  payload : List Byte
  verify : Bool
  deriving DecidableEq, Repr

/-- Key A's default: all `FF` (rule R236). -/
def defaultKey : List Byte := List.replicate 6 0xFF

/-- The write payload's default: all zero (rule R236). -/
def defaultPayload : List Byte := List.replicate 16 0

/-- What a cycle reports, as bytes (rule R238); `upwardData` makes the upward data of rule R237 of it. -/
structure CycleReport where
  card : Card
  block : Option (Nat × List Byte)
  readBack : Option (List Byte)
  verified : Option Bool
  deriving DecidableEq, Repr

/-- How a cycle ends: nothing to report, a write the host's policy refuses, or a report (rules R238, R240). DESIGN CHOICE
(log entry 23): rule R238 says only "refuse unless writeAllowed(blk)"; the refusal is the host's own, so it reports no
card and sets no mark in the core. -/
inductive CycleResult where
  | nothing
  | writeNotAllowed
  | done (r : CycleReport)
  deriving DecidableEq, Repr

/-- A call of the host inside a program of the host: its end, and its outcome reported. -/
def called {α : Type} (op : Op α) (value : α → Value) : Op α := fun s =>
  match asHostCall op s with
  | .ok a t => .ok a (report (.returned (value a)) t)
  | .error (.raise e) t => .error (.raise e) (report (.raised e) t)
  | .error (.refuse r) t => .error (.refuse r) (report (.refused r) t)

/-- The call `mifareAuthKeyA(blk, key, c.uid)` of a cycle. -/
def callAuth (inp : CycleInput) (c : Card) : Op Unit :=
  called (whenReady (mifareAuthKeyA inp.blk inp.key (uidBytes c.uid))) (fun _ => .unit)

/-- The call `mifareReadBlock(blk)` of a cycle. -/
def callRead (inp : CycleInput) : Op (List Byte) := called (whenReady (mifareReadBlock inp.blk)) .bytes

/-- The read-back of a verified write (rules R238, R239). -/
def verifyWrite (inp : CycleInput) (c : Card) (w : List Byte) : Op CycleResult := do
  let cfg ← getCfg
  if cfg.reauthBeforeVerify then callAuth inp c else pure ()
  let rb ← callRead inp
  pure (.done { card := c, block := some (inp.blk, w), readBack := some rb, verified := some (verifiedFlag inp.payload rb) })

/-- The reference cycle per action (rule R238). An error of a call ends it. -/
def referenceCycle (inp : CycleInput) : Op CycleResult := do
  let found ← called (whenReady detectCard) cardValue
  match found with
  | none => pure .nothing
  | some c => match inp.action with
    | .uid => pure (.done { card := c, block := none, readBack := none, verified := none })
    | .read => do
      callAuth inp c
      let p ← callRead inp
      pure (.done { card := c, block := some (inp.blk, p), readBack := none, verified := none })
    | .write =>
      if writeAllowed inp.blk then do
        let w := sixteenBytes inp.payload
        callAuth inp c
        called (whenReady (mifareWriteBlock inp.blk w)) (fun _ => .unit)
        if inp.verify then verifyWrite inp c w
        else pure (.done { card := c, block := some (inp.blk, w), readBack := none, verified := none })
      else pure .writeNotAllowed

/-! ## Upward data as text (rule R237)

Letter case, separators and the timestamp are parameters the host gives (decision D39: `HEX_FORMAT`, `TIMESTAMP`). -/

/-- `HEX_FORMAT`: letter case, and what stands between two bytes. -/
structure HexFormat where
  upperCase : Bool
  separator : List Char
  deriving DecidableEq, Repr

/-- `TIMESTAMP`: a time of the host's clock, with its source and unit. -/
structure Timestamp where
  source : List Char
  unit : List Char
  time : Nat
  deriving DecidableEq, Repr

/-- A hexadecimal digit. -/
def hexDigit (f : HexFormat) (n : Nat) : Char :=
  let letters := if f.upperCase then ['A', 'B', 'C', 'D', 'E', 'F'] else ['a', 'b', 'c', 'd', 'e', 'f']
  (['0', '1', '2', '3', '4', '5', '6', '7', '8', '9'] ++ letters).getD n '0'

/-- A byte as two hexadecimal digits. -/
def hexByte (f : HexFormat) (b : Byte) : List Char := [hexDigit f (b.toNat / 16), hexDigit f (b.toNat % 16)]

/-- A byte list as a hex string. -/
def hexText (f : HexFormat) (bs : List Byte) : List Char := f.separator.intercalate (bs.map (hexByte f))

/-- The upward data of a successful cycle (rule R237); texts are lists of characters. -/
structure UpwardData where
  uid : List Char
  sak : Option (List Char)
  atqa : List Char
  timestamp : Timestamp
  block : Option Nat
  payload : Option (List Char)
  readBack : Option (List Char)
  verified : Option Bool
  deriving DecidableEq, Repr

/-- The upward data of a report: the SAK is a "'0x'-prefixed hex byte" (rule R237). -/
def upwardData (f : HexFormat) (now : Timestamp) (r : CycleReport) : UpwardData where
  uid := hexText f (uidBytes r.card.uid)
  sak := r.card.sak.map (fun k => '0' :: 'x' :: hexByte f k)
  atqa := hexText f [r.card.atqa.b0, r.card.atqa.b1]
  timestamp := now
  block := r.block.map Prod.fst
  payload := r.block.map (fun b => hexText f b.2)
  readBack := r.readBack.map (hexText f)
  verified := r.verified

end Sys2Proof.Machine
end

