-- ==== Sys2Proof/Machine/Chip.lean ====
section
/-! DEFINITION. The chip as the spec describes it (rules R26 to R42, R46, R70, R88, R89; all of it general knowledge the
spec marks as not in its source). It is no state of the machine: "The model does not hold the chip register file" (rule
R26), and no definition of the core uses this file. It gives a reference chip, "a simulated-chip environment" of
decision D1, whose replies can be put into `State.answers`, with the register map and the command codes of a
configuration. What the spec leaves unspecified reads as a free value; exchanges that the core never sends and the spec
gives no reply have none. The points the reference chip settles itself are named where they are settled and in log
entry 9. -/

namespace Sys2Proof.Machine

/-! ## The register map (rule R27) -/

/-- The named registers of rule R27. -/
inductive ChipReg where
  | command | comIEn | divIEn | comIrq | divIrq | error | status1 | status2 | fifoData | fifoLevel | waterLevel
  | control | bitFraming | coll | mode | txMode | rxMode | txControl | txAsk | txSel | rxSel | rxThreshold | demod
  | mfTx | mfRx | serialSpeed | crcResultH | crcResultL | modWidth | rfCfg | gsN | cwGsP | modGsP | tMode | tPrescaler
  | tReloadH | tReloadL | tCounterValH | tCounterValL | testSel1 | testSel2 | testPinEn | testPinValue | testBus
  | autoTest | version | analogTest | testDac1 | testDac2 | testAdc
  deriving DecidableEq, Repr

/-- The address of a register in a map (rule R27). -/
def chipRegAddr (m : RegMap) : ChipReg → RegAddr
  | .command => m.command | .comIEn => m.comIEn | .divIEn => m.divIEn | .comIrq => m.comIrq | .divIrq => m.divIrq
  | .error => m.error | .status1 => m.status1 | .status2 => m.status2 | .fifoData => m.fifoData
  | .fifoLevel => m.fifoLevel | .waterLevel => m.waterLevel | .control => m.control | .bitFraming => m.bitFraming
  | .coll => m.coll | .mode => m.mode | .txMode => m.txMode | .rxMode => m.rxMode | .txControl => m.txControl
  | .txAsk => m.txAsk | .txSel => m.txSel | .rxSel => m.rxSel | .rxThreshold => m.rxThreshold | .demod => m.demod
  | .mfTx => m.mfTx | .mfRx => m.mfRx | .serialSpeed => m.serialSpeed | .crcResultH => m.crcResultH
  | .crcResultL => m.crcResultL | .modWidth => m.modWidth | .rfCfg => m.rfCfg | .gsN => m.gsN | .cwGsP => m.cwGsP
  | .modGsP => m.modGsP | .tMode => m.tMode | .tPrescaler => m.tPrescaler | .tReloadH => m.tReloadH
  | .tReloadL => m.tReloadL | .tCounterValH => m.tCounterValH | .tCounterValL => m.tCounterValL
  | .testSel1 => m.testSel1 | .testSel2 => m.testSel2 | .testPinEn => m.testPinEn | .testPinValue => m.testPinValue
  | .testBus => m.testBus | .autoTest => m.autoTest | .version => m.version | .analogTest => m.analogTest
  | .testDac1 => m.testDac1 | .testDac2 => m.testDac2 | .testAdc => m.testAdc

/-- The named registers, in address order. -/
def chipRegs : List ChipReg :=
  [.command, .comIEn, .divIEn, .comIrq, .divIrq, .error, .status1, .status2, .fifoData, .fifoLevel, .waterLevel,
   .control, .bitFraming, .coll, .mode, .txMode, .rxMode, .txControl, .txAsk, .txSel, .rxSel, .rxThreshold, .demod,
   .mfTx, .mfRx, .serialSpeed, .crcResultH, .crcResultL, .modWidth, .rfCfg, .gsN, .cwGsP, .modGsP, .tMode, .tPrescaler,
   .tReloadH, .tReloadL, .tCounterValH, .tCounterValL, .testSel1, .testSel2, .testPinEn, .testPinValue, .testBus,
   .autoTest, .version, .analogTest, .testDac1, .testDac2, .testAdc]

/-- The reserved addresses of a map: those that no register has, which under the defaults are rule R27's (log entry 1). -/
def reservedAddrs (m : RegMap) : List RegAddr :=
  ((List.range 64).map (BitVec.ofNat 6)).filter (fun a => !(chipRegs.map (chipRegAddr m)).contains a)

/-! ## Field layouts (rules R28 to R39) -/

/-- Access codes of rule R28. -/
inductive Access where
  | readOnly
  | writeOnly
  /-- `StartSend`: "W (reads back as written on common silicon)" (rule R37) -/
  | writeReadsBack
  | readWrite
  | dynamic
  | readWriteDynamic
  | reserved
  deriving DecidableEq, Repr

/-- A field of a register: its bits `hi:lo` and its access. -/
structure Field where
  name : String
  hi : Nat
  lo : Nat
  access : Access
  deriving DecidableEq, Repr

/-- The fields of the registers the core accesses (rules R29 to R39, R41), from bit 7 down. DESIGN CHOICE (log entry 9):
rule R39 gives the fields of `ModeReg`, `TxControlReg`, `TxASKReg`, `TModeReg`, `TPrescalerReg` and `TReloadRegH/L` no
access; they are read/write here. -/
def chipFields : ChipReg → List Field
  | .command => [⟨"reserved", 7, 6, .reserved⟩, ⟨"RcvOff", 5, 5, .readWrite⟩, ⟨"PowerDown", 4, 4, .readWriteDynamic⟩,
      ⟨"Command", 3, 0, .readWriteDynamic⟩]
  | .comIrq => [⟨"Set1", 7, 7, .writeOnly⟩, ⟨"TxIRq", 6, 6, .dynamic⟩, ⟨"RxIRq", 5, 5, .dynamic⟩,
      ⟨"IdleIRq", 4, 4, .dynamic⟩, ⟨"HiAlertIRq", 3, 3, .dynamic⟩, ⟨"LoAlertIRq", 2, 2, .dynamic⟩,
      ⟨"ErrIRq", 1, 1, .dynamic⟩, ⟨"TimerIRq", 0, 0, .dynamic⟩]
  | .divIrq => [⟨"Set2", 7, 7, .writeOnly⟩, ⟨"reserved", 6, 5, .reserved⟩, ⟨"MfinActIRq", 4, 4, .dynamic⟩,
      ⟨"reserved", 3, 3, .reserved⟩, ⟨"CRCIRq", 2, 2, .dynamic⟩, ⟨"reserved", 1, 0, .reserved⟩]
  | .error => [⟨"WrErr", 7, 7, .readOnly⟩, ⟨"TempErr", 6, 6, .readOnly⟩, ⟨"reserved", 5, 5, .reserved⟩,
      ⟨"BufferOvfl", 4, 4, .readOnly⟩, ⟨"CollErr", 3, 3, .readOnly⟩, ⟨"CRCErr", 2, 2, .readOnly⟩,
      ⟨"ParityErr", 1, 1, .readOnly⟩, ⟨"ProtocolErr", 0, 0, .readOnly⟩]
  | .status2 => [⟨"TempSensClear", 7, 7, .readWrite⟩, ⟨"I2CForceHS", 6, 6, .readWrite⟩, ⟨"reserved", 5, 4, .reserved⟩,
      ⟨"MFCrypto1On", 3, 3, .dynamic⟩, ⟨"ModemState", 2, 0, .readOnly⟩]
  | .fifoData => [⟨"FIFOData", 7, 0, .readWrite⟩]
  | .fifoLevel => [⟨"FlushBuffer", 7, 7, .writeOnly⟩, ⟨"FIFOLevel", 6, 0, .readOnly⟩]
  | .control => [⟨"TStopNow", 7, 7, .writeOnly⟩, ⟨"TStartNow", 6, 6, .writeOnly⟩, ⟨"reserved", 5, 3, .reserved⟩,
      ⟨"RxLastBits", 2, 0, .readOnly⟩]
  | .bitFraming => [⟨"StartSend", 7, 7, .writeReadsBack⟩, ⟨"RxAlign", 6, 4, .readWrite⟩, ⟨"reserved", 3, 3, .reserved⟩,
      ⟨"TxLastBits", 2, 0, .readWrite⟩]
  | .coll => [⟨"ValuesAfterColl", 7, 7, .readWrite⟩, ⟨"reserved", 6, 6, .reserved⟩, ⟨"CollPosNotValid", 5, 5, .readOnly⟩,
      ⟨"CollPos", 4, 0, .readOnly⟩]
  | .mode => [⟨"MSBFirst", 7, 7, .readWrite⟩, ⟨"reserved", 6, 6, .reserved⟩, ⟨"TxWaitRF", 5, 5, .readWrite⟩,
      ⟨"reserved", 4, 4, .reserved⟩, ⟨"PolMFin", 3, 3, .readWrite⟩, ⟨"reserved", 2, 2, .reserved⟩,
      ⟨"CRCPreset", 1, 0, .readWrite⟩]
  | .txControl => [⟨"InvTx2RFOn", 7, 7, .readWrite⟩, ⟨"InvTx1RFOn", 6, 6, .readWrite⟩, ⟨"InvTx2RFOff", 5, 5, .readWrite⟩,
      ⟨"InvTx1RFOff", 4, 4, .readWrite⟩, ⟨"Tx2CW", 3, 3, .readWrite⟩, ⟨"reserved", 2, 2, .reserved⟩,
      ⟨"Tx2RFEn", 1, 1, .readWrite⟩, ⟨"Tx1RFEn", 0, 0, .readWrite⟩]
  | .txAsk => [⟨"reserved", 7, 7, .reserved⟩, ⟨"Force100ASK", 6, 6, .readWrite⟩, ⟨"reserved", 5, 0, .reserved⟩]
  | .tMode => [⟨"TAuto", 7, 7, .readWrite⟩, ⟨"TGated", 6, 5, .readWrite⟩, ⟨"TAutoRestart", 4, 4, .readWrite⟩,
      ⟨"TPrescaler_Hi", 3, 0, .readWrite⟩]
  | .tPrescaler => [⟨"TPrescaler_Lo", 7, 0, .readWrite⟩]
  | .tReloadH => [⟨"TReloadRegH", 7, 0, .readWrite⟩]
  | .tReloadL => [⟨"TReloadRegL", 7, 0, .readWrite⟩]
  | .crcResultH => [⟨"CRCResultRegH", 7, 0, .readOnly⟩]
  | .crcResultL => [⟨"CRCResultRegL", 7, 0, .readOnly⟩]
  | .comIEn | .divIEn | .status1 | .waterLevel | .txMode | .rxMode | .txSel | .rxSel | .rxThreshold | .demod | .mfTx
  | .mfRx | .serialSpeed | .modWidth | .rfCfg | .gsN | .cwGsP | .modGsP | .tCounterValH | .tCounterValL | .testSel1
  | .testSel2 | .testPinEn | .testPinValue | .testBus | .autoTest | .version | .analogTest | .testDac1 | .testDac2
  | .testAdc => []

/-- The fields cover bits 7 to 0, each bit once, from the top. -/
def tiles : Nat → List Field → Bool
  | top, [] => top == 0
  | top, f :: r => f.hi + 1 == top && decide (f.lo ≤ f.hi) && tiles f.lo r

/-- The value of a field of a byte. -/
def fieldValue (f : Field) (v : Byte) : Nat := (v.toNat / 2 ^ f.lo) % 2 ^ (f.hi + 1 - f.lo)

/-- The bits of a field, in place. -/
def fieldMask (f : Field) : Byte := BitVec.ofNat 8 (2 ^ (f.hi + 1) - 2 ^ f.lo)

/-- A read gives the bit as it is held (rule R28). -/
def accessReads : Access → Bool
  | .readOnly | .writeReadsBack | .readWrite | .dynamic | .readWriteDynamic => true
  | .writeOnly | .reserved => false

/-- A read gives 0 (rule R28: "W write-only (reads as 0)"). -/
def accessReadsZero : Access → Bool
  | .writeOnly => true
  | .readOnly | .writeReadsBack | .readWrite | .dynamic | .readWriteDynamic | .reserved => false

/-- A write is held (rule R28): not in a read-only bit, nor in one that the chip alone changes. -/
def accessStores : Access → Bool
  | .writeReadsBack | .readWrite | .readWriteDynamic => true
  | .readOnly | .writeOnly | .dynamic | .reserved => false

/-- The register at an address, `none` at a reserved one (rules R27, R71). -/
def chipRegAt (m : RegMap) (a : RegAddr) : Option ChipReg := chipRegs.find? (fun r => chipRegAddr m r == a)

/-- The bits of an address whose access has a property; none at a reserved address, and none in a register whose fields
the spec does not give. -/
def bitsAt (m : RegMap) (p : Access → Bool) (a : RegAddr) : Byte :=
  match chipRegAt m a with
  | some r => ((chipFields r).filter (fun f => p f.access)).foldl (fun bits f => bits ||| fieldMask f) 0
  | none => 0

/-- The documented reset values (rules R29 to R41), 0 where there is none; of `CollReg` only bits 7:5 are documented. -/
def chipResetValue : ChipReg → Byte
  | .command => 0x20
  | .comIrq => 0x14
  | .control => 0x10
  | .coll => 0xA0
  | .mode => 0x3F
  | .txControl => 0x80
  | .crcResultH => 0xFF
  | .crcResultL => 0xFF
  | .divIrq | .error | .status2 | .fifoLevel | .bitFraming | .txAsk | .tMode | .tPrescaler | .tReloadH | .tReloadL
  | .fifoData | .comIEn | .divIEn | .status1 | .waterLevel | .txMode | .rxMode | .txSel | .rxSel | .rxThreshold | .demod
  | .mfTx | .mfRx | .serialSpeed | .modWidth | .rfCfg | .gsN | .cwGsP | .modGsP | .tCounterValH | .tCounterValL
  | .testSel1 | .testSel2 | .testPinEn | .testPinValue | .testBus | .autoTest | .version | .analogTest | .testDac1
  | .testDac2 | .testAdc => 0x00

/-- The bits of a register whose reset value is documented (rules R29 to R41). -/
def chipResetKnown : ChipReg → Byte
  | .coll => 0xE0
  | .command | .comIrq | .divIrq | .error | .status2 | .fifoLevel | .control | .bitFraming | .mode | .txControl | .txAsk
  | .tMode | .tPrescaler | .tReloadH | .tReloadL | .crcResultH | .crcResultL => 0xFF
  | .fifoData | .comIEn | .divIEn | .status1 | .waterLevel | .txMode | .rxMode | .txSel | .rxSel | .rxThreshold | .demod
  | .mfTx | .mfRx | .serialSpeed | .modWidth | .rfCfg | .gsN | .cwGsP | .modGsP | .tCounterValH | .tCounterValL
  | .testSel1 | .testSel2 | .testPinEn | .testPinValue | .testBus | .autoTest | .version | .analogTest | .testDac1
  | .testDac2 | .testAdc => 0x00

/-! ## Command codes (rules R88, R89) -/

/-- The chip's commands (rule R88), the unused ones included; a reserved code has none (rule R89). -/
inductive ChipCommand where
  | idle | mem | generateRandomId | calcCrc | transmit | noCmdChange | receive | transceive | mfAuthent | softReset
  deriving DecidableEq, Repr

/-- The command of a code in `CommandReg[3:0]`, for the ten codes of a configuration (rule R88). -/
def chipCommandOf (k : Commands) (code : Byte) : Option ChipCommand :=
  if code = k.idle then some .idle
  else if code = k.mem then some .mem
  else if code = k.genRandomId then some .generateRandomId
  else if code = k.calcCrc then some .calcCrc
  else if code = k.transmit then some .transmit
  else if code = k.noCmdChange then some .noCmdChange
  else if code = k.receive then some .receive
  else if code = k.transceive then some .transceive
  else if code = k.mfAuthent then some .mfAuthent
  else if code = k.softReset then some .softReset
  else none

/-! ## Write semantics of the interrupt registers (rule R46) -/

/-- Bit 7 of the written byte sets (1) or clears (0) the bits 6:0 written as 1; the others stay. -/
def irqWrite (old v : Byte) : Byte :=
  if v.getLsbD 7 then (old ||| v) &&& 0x7F else old &&& ~~~v

/-! ## The CRC coprocessor (rule R41) -/

/-- One bit of the reflected CRC with polynomial x^16 + x^12 + x^5 + 1. -/
def crcBit (crc : BitVec 16) : BitVec 16 :=
  if crc.getLsbD 0 then (crc >>> 1) ^^^ 0x8408 else crc >>> 1

/-- One byte of the reflected CRC. -/
def crcByte (crc : BitVec 16) (b : Byte) : BitVec 16 :=
  crcBit (crcBit (crcBit (crcBit (crcBit (crcBit (crcBit (crcBit (crc ^^^ b.setWidth 16))))))))

/-- One bit of the CRC with the same polynomial, most significant bit first. -/
def crcBitMsb (crc : BitVec 16) : BitVec 16 :=
  if crc.getLsbD 15 then (crc <<< 1) ^^^ 0x1021 else crc <<< 1

/-- One byte of the CRC, most significant bit first. -/
def crcByteMsb (crc : BitVec 16) (b : Byte) : BitVec 16 :=
  crcBitMsb (crcBitMsb (crcBitMsb (crcBitMsb (crcBitMsb (crcBitMsb (crcBitMsb (crcBitMsb
    (crc ^^^ (b.setWidth 16 <<< 8)))))))))

/-- One byte under `ModeReg` (rule R39): bit 7 `MSBFirst` says "CRC computed MSB first". DESIGN CHOICE (log entry 9):
polynomial, preset and result registers are then the same, unreflected, which the rule does not say. -/
def crcStep (mode : Byte) (crc : BitVec 16) (b : Byte) : BitVec 16 :=
  if mode.getLsbD 7 then crcByteMsb crc b else crcByte crc b

/-- The CRC of a buffer from a preset, with no final inversion. -/
def crc16 (preset : BitVec 16) (bs : List Byte) : BitVec 16 := bs.foldl crcByte preset

/-- A CRC as the two bytes of a frame, low then high (rules R63, R94). -/
def crcBytes (crc : BitVec 16) : List Byte := [crc.extractLsb' 0 8, crc.extractLsb' 8 8]

/-- CRC_A: preset 0x6363 (rule R41). -/
def crcA (bs : List Byte) : List Byte := crcBytes (crc16 0x6363 bs)

/-- `ModeReg.CRCPreset` (rule R39). -/
def crcPreset (mode : Byte) : BitVec 16 :=
  if mode &&& 0x03 = 0x00 then 0x0000
  else if mode &&& 0x03 = 0x01 then 0x6363
  else if mode &&& 0x03 = 0x02 then 0xA671
  else 0xFFFF

/-! ## The timer (rule R42) -/

/-- The timer's period in cycles of 13.56 MHz: `(2·TPrescaler + 1)·(TReload + 1)`. -/
def timerCycles (tMode tPrescaler tReloadH tReloadL : Byte) : Nat :=
  let prescaler := (tMode &&& 0x0F).toNat * 256 + tPrescaler.toNat
  let reload := tReloadH.toNat * 256 + tReloadL.toNat
  (2 * prescaler + 1) * (reload + 1)

/-! ## A reference chip (rules R28 to R41, R46, R70)

Log entry 9 says what it settles: it has no card, no timer and no analog part, so Transceive, Receive, MFAuthent and the
unused commands have no effect beyond `CommandReg`, and a bit the chip changes (access D) changes only as written here. -/

/-- The parameters of the chip (its register map and command codes, rules R27 and R88), what its registers hold by
address, the FIFO, oldest byte first, and how many free values it has given. -/
structure RefChip where
  cfg : Cfg
  regs : List Byte
  fifo : List Byte
  draws : Nat
  deriving DecidableEq, Repr

/-- What an address holds after a reset: the documented bits, and free values elsewhere (rules R28 to R41). -/
def resetByte (m : RegMap) (draws : Nat) (a : RegAddr) : Byte :=
  match chipRegAt m a with
  | some r => (chipResetValue r &&& chipResetKnown r) ||| (Config.freeChipReset draws a &&& ~~~chipResetKnown r)
  | none => Config.freeChipReset draws a

/-- The chip after a reset (rules R220, R291): `FIFOLevelReg` resets to 0, so the FIFO is empty. DESIGN CHOICE (log entry
9): the settle of rules R221 and R300 counts as over by the next exchange, since the reference chip sees exchanges and no
time; it says nothing of an exchange before the settle, whose answer is "any value" (93_implementation_defined.md). -/
def resetChip (k : Cfg) (draws : Nat) : RefChip :=
  { cfg := k, regs := (List.range 64).map (fun n => resetByte k.reg draws (BitVec.ofNat 6 n)), fifo := []
    draws := draws + 1 }

/-- The chip at power-up. -/
def RefChip.reset (k : Cfg) : RefChip := resetChip k 0

/-- The address of a register of the chip. -/
abbrev RefChip.addr (c : RefChip) (r : ChipReg) : RegAddr := chipRegAddr c.cfg.reg r

/-- What an address holds. -/
def chipReg (c : RefChip) (a : RegAddr) : Byte := c.regs.getD a.toNat 0

/-- The chip's own change of a register. -/
def setChipReg (c : RefChip) (a : RegAddr) (v : Byte) : RefChip := { c with regs := c.regs.set a.toNat v }

/-- A written byte is held in the bits whose access says so (rule R28); at a reserved address and in a register without a
layout a write holds nothing that a read could show. -/
def holdBits (c : RefChip) (a : RegAddr) (v : Byte) : RefChip :=
  setChipReg c a ((v &&& bitsAt c.cfg.reg accessStores a) ||| (chipReg c a &&& ~~~bitsAt c.cfg.reg accessStores a))

/-- `ErrorReg.BufferOvfl`: "FIFO written when full" (rule R32). -/
def fifoOverflowed (c : RefChip) : Bool := (chipReg c (c.addr .error)).getLsbD 4

/-- Read a register. A reserved bit, a reserved address and a register without a layout read as a free value ("read value
unspecified", rules R28, R71, R100); so does an empty FIFO (93_implementation_defined.md), and after a write to a full
one "any value for later reads" (ibid.), until a flush. `FIFODataReg` pops, `FIFOLevelReg` counts (rules R34, R35, R70). -/
def chipRead (c : RefChip) (a : RegAddr) : RefChip × Byte :=
  let free := Config.freeChipByte c.draws
  let next := { c with draws := c.draws + 1 }
  if a = c.addr .fifoData then
    match fifoOverflowed c, c.fifo with
    | false, b :: rest => ({ next with fifo := rest }, b)
    | false, [] => (next, free)
    | true, _ => (next, free)
  else if a = c.addr .fifoLevel then
    (next, if fifoOverflowed c then free &&& 0x7F else BitVec.ofNat 8 c.fifo.length)
  else
    (next, (chipReg c a &&& bitsAt c.cfg.reg accessReads a) ||| (free &&& ~~~(bitsAt c.cfg.reg accessReads a ||| bitsAt c.cfg.reg accessReadsZero a)))

/-- Whether the command unit is in CalcCRC. -/
def crcRunning (c : RefChip) : Bool :=
  chipCommandOf c.cfg.cmd (chipReg c (c.addr .command) &&& 0x0F) == some .calcCrc

/-- The CRC unit has done: result registers and `CRCIRq` (rules R31, R41). -/
def putCrc (c : RefChip) (crc : BitVec 16) : RefChip :=
  let c := setChipReg c (c.addr .crcResultL) (crc.extractLsb' 0 8)
  let c := setChipReg c (c.addr .crcResultH) (crc.extractLsb' 8 8)
  setChipReg c (c.addr .divIrq) (chipReg c (c.addr .divIrq) ||| 0x04)

/-- The command ends by itself: Idle, and `IdleIRq` (rules R29, R30). -/
def endCommand (c : RefChip) : RefChip :=
  let c := setChipReg c (c.addr .command) ((chipReg c (c.addr .command) &&& 0xF0) ||| c.cfg.cmd.idle)
  setChipReg c (c.addr .comIrq) (chipReg c (c.addr .comIrq) ||| 0x10)

/-- The CalcCRC command: the CRC of the FIFO from the preset of `ModeReg`, and the FIFO processed (rules R31, R39, R41);
of an overflowed FIFO any CRC. DESIGN CHOICE (log entry 9): it is done at once with the command write, where the spec says
"when done" (rule R41) and that the command progresses while the core polls (rule R69). Whether the chip then stays in
CalcCRC is unspecified (rule R304), and a free value. -/
def chipCalcCrc (c : RefChip) : RefChip :=
  let mode := chipReg c (c.addr .mode)
  let crc := if fifoOverflowed c then Config.freeChipByte c.draws ++ Config.freeChipByte (c.draws + 1)
    else c.fifo.foldl (crcStep mode) (crcPreset mode)
  let c := { putCrc c crc with fifo := [], draws := c.draws + 2 }
  if Config.staysInCalcCrc then c else endCommand c

/-- "Bytes written to the FIFO in between [...] would enter the CRC unit" (rule R304). DESIGN CHOICE (log entry 9): they
continue the CRC from the result. -/
def feedCrc (c : RefChip) (v : Byte) : RefChip :=
  let crc := chipReg c (c.addr .crcResultH) ++ chipReg c (c.addr .crcResultL)
  putCrc c (crcStep (chipReg c (c.addr .mode)) crc v)

/-- A command issue (rules R88, R220). DESIGN CHOICE (log entry 9): `PowerDown` and `RcvOff` are held and have no effect,
so commands run and the chip answers as before (rule R29: "1 enters soft power-down", no more); after CMD_SOFTRESET it is
ready at once, as `resetChip` says; a reserved code (rule R89) is held like an unused one, with no other effect. -/
def chipCommand (c : RefChip) (v : Byte) : RefChip :=
  match chipCommandOf c.cfg.cmd (v &&& 0x0F) with
  | some .calcCrc => chipCalcCrc (holdBits c (c.addr .command) v)
  | some .softReset => resetChip c.cfg c.draws
  | _ => holdBits c (c.addr .command) v

/-- A byte onto the FIFO (rules R34, R40); on a full one `BufferOvfl` and with it `ErrIRq` (rules R30, R32). -/
def chipPush (c : RefChip) (v : Byte) : RefChip :=
  if crcRunning c then feedCrc c v
  else if c.fifo.length < Config.fifoCapacity then { c with fifo := c.fifo ++ [v] }
  else
    let c := setChipReg c (c.addr .error) (chipReg c (c.addr .error) ||| 0x10)
    setChipReg c (c.addr .comIrq) (chipReg c (c.addr .comIrq) ||| 0x02)

/-- A flush: the FIFO is empty and `BufferOvfl` clear (rule R35). -/
def chipFlush (c : RefChip) : RefChip :=
  { setChipReg c (c.addr .error) (chipReg c (c.addr .error) &&& ~~~0x10) with fifo := [] }

/-- Write a register (rules R28 to R39, R46, R70). -/
def chipWrite (c : RefChip) (a : RegAddr) (v : Byte) : RefChip :=
  if a = c.addr .fifoData then chipPush c v
  else if a = c.addr .fifoLevel then if v.getLsbD 7 then chipFlush c else c
  else if a = c.addr .comIrq ∨ a = c.addr .divIrq then setChipReg c a (irqWrite (chipReg c a) v)
  else if a = c.addr .command then chipCommand c v
  else if a = c.addr .status2 ∧ v.getLsbD 7 then
    /- `TempSensClear` "clears the temperature error" (rules R32, R33): at the write (log entry 9) -/
    holdBits (setChipReg c (c.addr .error) (chipReg c (c.addr .error) &&& ~~~0x40)) a v
  else holdBits c a v

/-- The chip's reply to one exchange (rules R64, R83 to R85): a burst writes every byte to the same register, to any
register as so many single writes (log entry 9), and the bytes the core ignores are zeros (95_test_vectors.md,
Conventions). It always answers, also right after CMD_SOFTRESET and in power-down (log entry 9). An address byte with the reserved bit set (rules R80,
R81) and a read that is not two bytes (rule R87) have no reply here: the core never sends one, and the spec gives none. -/
def chipServe (c : RefChip) : List Byte → Option (RefChip × List Byte)
  | [] => none
  | b :: data =>
    if addrReserved b then none
    else if addrIsRead b then
      if data.length = 1 then some ((chipRead c (addrReg b)).1, [0, (chipRead c (addrReg b)).2]) else none
    else some (data.foldl (fun c v => chipWrite c (addrReg b) v) c, List.replicate (1 + data.length) 0)

/-- The chip's replies to a list of exchanges. -/
def chipServeAll (c : RefChip) : List (List Byte) → Option (List ExchangeAnswer)
  | [] => some []
  | tx :: rest => match chipServe c tx with
    | some (c', rx) => (chipServeAll c' rest).map (fun as => .reply rx :: as)
    | none => none

end Sys2Proof.Machine
end

