-- ==== Sys2Proof/Safety.lean ====
section
/-! DEFINITION. What statements about runs are written in: one exchange and its end (rule R110), the form of the bytes
on the bus (rules R81, R84, R87), the post-reset settle (rules R221, R300), the flush before every load (rules R134,
R301), the registers an event writes and the value last written (rules R45, R156), the lifecycle (rules R21, R48, R290),
and the dialogues: what the core says and what the environment answers, operation by operation. -/

namespace Sys2Proof.Machine

/-- A run is safe if no call of it was refused (rule R255). The host duties of rule R241 that a call can break (open before
use, `init` before a card operation and once, calls serialised, `init` again after a transport error) end in a refusal
when broken, so a safe run keeps them; log entry 28 lists all six as assumptions of the host. -/
abbrev Safe (s : State) : Prop := s.refused = false

/-! ## One exchange (rule R110) -/

/-- The answer the next exchange gets: the first one given in advance, else the free value (decision D1). -/
def nextAnswer (s : State) (tx : List Byte) : ExchangeAnswer := s.answers.headD (Config.freeExchange s.draws tx)

/-- The state once an exchange has been answered: its event, and one answer fewer. -/
def asked (s : State) (tx : List Byte) : State :=
  { s with
    events := s.events ++ [.exchange tx (nextAnswer s tx)]
    answers := s.answers.tail
    draws := s.draws + 1 }

/-- What an answer makes of an exchange: the reply if it has the request's length, else a transport reason
(rule R110, decision D44). -/
def exchangeEnd (tx : List Byte) : ExchangeAnswer → Except TransportReason (List Byte)
  | .fail reason => .error (.external reason)
  | .reply rx => if rx.length = tx.length then .ok rx else .error .lengthMismatch

/-- The end of an operation that is one exchange: its value made of the reply, or the transport error and its entry
(rules R110, R262). -/
def exchanged (tx : List Byte) (value : List Byte → Value) (s : State) : State :=
  match exchangeEnd tx (nextAnswer s tx) with
  | .ok rx => { asked s tx with outcomes := s.outcomes ++ [.returned (value rx)] }
  | .error r =>
    { asked s tx with busy := false, phase := .opened, outcomes := s.outcomes ++ [.raised (.transportError r)] }

/-- A refusal's whole effect (rule R255): the mark and the reported reason. -/
def refusedWith (r : RefusalReason) (s : State) : State :=
  { s with refused := true, outcomes := s.outcomes ++ [.refused r] }

/-! ## The bytes on the bus -/

/-- The bytes of one exchange: not empty, reserved bit 0 clear, and a read is the address byte and the pad. -/
def txOk : List Byte → Bool
  | [] => false
  | b :: data => !addrReserved b && (!addrIsRead b || data == [Config.pad])

/-- The form of an event: only an exchange has bytes. -/
def wireOk : Event → Bool
  | .exchange tx _ => txOk tx
  | _ => true

/-- The register an event writes: a write exchange with at least one data byte. -/
def writtenReg : Event → Option RegAddr
  | .exchange (b :: _ :: _) _ => if addrIsRead b then none else some (addrReg b)
  | _ => none

/-- The value an answered single write of register `a` left there. -/
def writtenValue (a : RegAddr) : Event → Option Byte
  | .exchange [b, v] (.reply rx) => if b = encW a ∧ rx.length = 2 then some v else none
  | _ => none

/-- The value last written to register `a` in a history, oldest event first (rule R156). -/
def lastWritten (a : RegAddr) (es : List Event) : Option Byte :=
  es.foldl (fun last e => (writtenValue a e).or last) none

/-- The events a step added. -/
def newEvents (s t : State) : List Event := t.events.drop s.events.length

/-- An answered write of `CMD_SOFTRESET` to `CommandReg`. -/
def isSoftResetWrite (c : Cfg) (e : Event) : Bool :=
  writtenValue c.reg.command e == some c.cmd.softReset

/-- The value an answered read of register `a` gave. -/
def readValue (a : RegAddr) : Event → Option Byte
  | .exchange [b, _] (.reply [_, v]) => if b = encR a then some v else none
  | _ => none

/-- The values the answered reads of register `a` gave, in order. -/
def readValues (a : RegAddr) (es : List Event) : List Byte := es.filterMap (readValue a)

/-- Every answered `CMD_SOFTRESET` write is followed at once by `Sleep(T_SETTLE)` (rules R221, R300). -/
def settleKept (c : Cfg) : List Event → Bool
  | [] => true
  | [e] => !isSoftResetWrite c e
  | e :: f :: rest => (!isSoftResetWrite c e || f == .sleep Config.tSettle) && settleKept c (f :: rest)

/-- An answered `flushFifo` exchange. -/
def isFlush (c : Cfg) (e : Event) : Bool := writtenValue c.reg.fifoLevel e == some c.mask.flushBuffer

/-- An exchange that loads the FIFO. -/
def isLoad (c : Cfg) : Event → Bool
  | .exchange (b :: _) _ => b == encW c.reg.fifoData
  | _ => false

/-- Every exchange that loads the FIFO comes at once after an answered flush (rules R134, R301); `flushed` says whether
the event before was one. -/
def loadsFlushed (c : Cfg) : Bool → List Event → Bool
  | _, [] => true
  | flushed, e :: rest => (!isLoad c e || flushed) && loadsFlushed c (isFlush c e) rest

/-- The registers the operations above the register interface write, `init` aside (rule R45). -/
def coreWrites (c : Cfg) : List RegAddr :=
  [c.reg.command, c.reg.comIrq, c.reg.divIrq, c.reg.fifoLevel, c.reg.fifoData, c.reg.bitFraming, c.reg.coll]

/-- The registers `init` writes besides `CommandReg` (rules R45, R222). -/
def initWrites (c : Cfg) : List RegAddr :=
  [c.reg.tMode, c.reg.tPrescaler, c.reg.tReloadL, c.reg.tReloadH, c.reg.txAsk, c.reg.mode, c.reg.txControl]

/-- A raw access to the chip: a row that writes a register the caller names. -/
def isRaw : Instr → Bool
  | .writeRegister _ _ | .writeRegisterBurst _ _ | .setBits _ _ | .clearBits _ _ | .spiWriteByte _ _
  | .spiBurstWrite _ _ => true
  | _ => false

/-- Handle and phase agree (rules R21, R48, R290): closed together. -/
abbrev LifecycleOk (s : State) : Prop := s.handle = .closed ↔ s.phase = .closed

/-- The invariant of the machine between steps: not busy (rule R290), handle and phase agree, every exchange well
formed. -/
abbrev StateInv (s : State) : Prop :=
  s.busy = false ∧ LifecycleOk s ∧ ∀ e ∈ s.events, wireOk e = true

/-! ## The failure of an event (rules R110, R117, R120) -/

/-- The transport reason of an event that failed: an exchange without a reply of its length, or a failed opening. -/
def failureOf : Event → Option TransportReason
  | .exchange tx answer => match exchangeEnd tx answer with
    | .error r => some r
    | .ok _ => none
  | .transportOpen _ _ _ (.fail code) => some (.external code)
  | _ => none

/-! ## Dialogues

A dialogue is what an operation says and hears when every exchange is answered: its events with the answers in them, how
often each deadline's `Expired` answers false, and how it ends. The dialogues below are written from the pseudocode of
the rules, for every answer an environment can give; the byte the core does not use is free (rule R86). -/

/-- The reply bytes that the core ignores: byte `i` of the reply to exchange `k`. -/
abbrev Noise := Nat → Nat → Byte

/-- An answered exchange whose reply the core ignores (rules R83, R85, R86). -/
def wrote (e : Noise) (k : Nat) (tx : List Byte) : Event :=
  .exchange tx (.reply ((List.range tx.length).map (e k)))

/-- An answered read of a register: the echo and the value (rules R84, R86). -/
def gave (a : RegAddr) (echo v : Byte) : Event := .exchange [encR a, 0x00] (.reply [echo, v])

/-- The answers in a list of events, in order. -/
def answersOf : List Event → List ExchangeAnswer
  | [] => []
  | .exchange _ a :: rest => a :: answersOf rest
  | .transportOpen _ _ _ _ :: rest | .transportClose _ :: rest | .sleep _ :: rest | .deadlineStart _ :: rest
  | .expired _ :: rest => answersOf rest

/-- What an operation says and hears, how often each of its deadlines answers false, and its end. -/
structure Dialogue (α : Type) where
  events : List Event
  expiries : List Nat
  result : Except Error α

/-- Events, then a value. -/
def Dialogue.says {α : Type} (es : List Event) (a : α) : Dialogue α := ⟨es, [], .ok a⟩

/-- Events, then an error (rule R262: nothing follows). -/
def Dialogue.fails {α : Type} (es : List Event) (e : Error) : Dialogue α := ⟨es, [], .error e⟩

/-- One dialogue after another; an error ends both (rule R261). -/
def Dialogue.andThen {α β : Type} (d : Dialogue α) (f : α → Dialogue β) : Dialogue β :=
  match d.result with
  | .ok a => ⟨d.events ++ (f a).events, d.expiries ++ (f a).expiries, (f a).result⟩
  | .error e => ⟨d.events, d.expiries, .error e⟩

/-- The environment is about to answer as the dialogue says. -/
abbrev Given {α : Type} (d : Dialogue α) (s : State) : Prop :=
  answersOf d.events <+: s.answers ∧ d.expiries <+: s.expiries

/-- The state without the dialogue's answers, with its events recorded. -/
def Dialogue.heard {α : Type} (d : Dialogue α) (s : State) : State :=
  { s with
    events := s.events ++ d.events
    answers := s.answers.drop (answersOf d.events).length
    expiries := s.expiries.drop d.expiries.length
    draws := s.draws + (answersOf d.events).length + d.expiries.length }

/-- The outcome of a call that ends so. -/
def endOutcome {α : Type} (value : α → Value) : Except Error α → CallOutcome
  | .ok a => .returned (value a)
  | .error e => .raised e

/-- The state after an operation that went as the dialogue says: only the history, the outcome and, for an error, `busy`
differ (rules R9, R250, R262). -/
def Dialogue.endState {α : Type} (value : α → Value) (d : Dialogue α) (s : State) : State :=
  { d.heard s with
    busy := match d.result with
      | .ok _ => s.busy
      | .error _ => false
    outcomes := s.outcomes ++ [endOutcome value d.result] }

/-- The answers of one poll (rule R116): the reads without a stop bit after which the deadline had not expired, the last
read, and how often the deadline answers false. A read is its echo and its value. -/
structure Poll where
  quiet : List (Byte × Byte)
  echo : Byte
  last : Byte
  expiry : Nat
  deriving DecidableEq, Repr

/-- The answers fit together: a poll goes on exactly while no stop bit was read and the deadline has not expired. -/
abbrev Poll.Ok (stop : Byte) (p : Poll) : Prop :=
  (∀ q ∈ p.quiet, q.2 &&& stop = 0) ∧
  (p.last &&& stop = 0 → p.quiet.length = p.expiry) ∧ p.quiet.length ≤ p.expiry

/-- The dialogue of `pollUntil` (rule R116). -/
def pollTalk (a : RegAddr) (stop : Byte) (ms : Nat) (p : Poll) : Dialogue (Byte × PollEnd) where
  events := .deadlineStart ms :: (p.quiet.flatMap (fun q => [gave a q.1 q.2, .expired false]) ++
    gave a p.echo p.last :: (if p.last &&& stop = 0 then [.expired true] else []))
  expiries := [p.expiry]
  result := .ok (p.last, if p.last &&& stop = 0 then .deadline else .bit)

/-- The dialogue of `SetBits` or `ClearBits`: a read and the write of the changed value (rules R114, R115). -/
def changeTalk (a : RegAddr) (change : Byte → Byte) (e : Noise) (v : Byte) : Dialogue Unit :=
  .says [gave a (e 0 0) v, wrote e 1 [encW a, change v]] ()

/-- The dialogue of `antennaOn` (rule R223). -/
def antennaTalk (c : Cfg) (e : Noise) (v : Byte) : Dialogue Unit :=
  .says (gave c.reg.txControl (e 0 0) v ::
    if v &&& c.mask.antenna = c.mask.antenna then [] else [wrote e 1 [encW c.reg.txControl, v ||| c.mask.antenna]]) ()

/-- The dialogue of `readFifoBytes`: one exchange a byte (rules R132, R133). A read is its echo and its value. -/
def fifoTalk (c : Cfg) (reads : List (Byte × Byte)) : Dialogue (List Byte) :=
  .says (reads.map fun q => gave c.reg.fifoData q.1 q.2) (reads.map Prod.snd)

/-- The answers of one `calcCrc` (rule R136). -/
structure CrcRun where
  noise : Noise
  poll : Poll
  lo : Byte
  hi : Byte

/-- The answers fit together. -/
abbrev CrcRun.Ok (c : Cfg) (x : CrcRun) : Prop := x.poll.Ok c.mask.crcIRq

/-- The dialogue of `calcCrc` (rule R136). -/
def crcTalk (c : Cfg) (buffer : List Byte) (x : CrcRun) : Dialogue (List Byte) :=
  (Dialogue.says
    [wrote x.noise 0 [encW c.reg.command, c.cmd.idle],
     wrote x.noise 1 [encW c.reg.divIrq, c.mask.crcIRq],
     wrote x.noise 2 [encW c.reg.fifoLevel, c.mask.flushBuffer],
     wrote x.noise 3 (encW c.reg.fifoData :: buffer),
     wrote x.noise 4 [encW c.reg.command, c.cmd.calcCrc]] ()).andThen fun _ =>
  (pollTalk c.reg.divIrq c.mask.crcIRq 50 x.poll).andThen fun (v, why) =>
  match why with
  | .deadline => .fails [] (.crcTimeout v)
  | .bit => .says [gave c.reg.crcResultL (x.noise 5 0) x.lo, gave c.reg.crcResultH (x.noise 6 0) x.hi] [x.lo, x.hi]

/-- The answers of one `transceive` (rule R150): `framing` and `framing2` are the `BitFramingReg` values read before the
start bit is set and before it is cleared, `level` the FIFO level register, `reads` the drained bytes with their echoes,
`control` the control register. -/
structure Reception where
  noise : Noise
  poll : Poll
  framing : Byte
  framing2 : Byte
  err : Byte
  level : Byte
  reads : List (Byte × Byte)
  control : Byte

/-- The answers fit together: as many bytes are drained as the level says (rules R131, R153). -/
abbrev Reception.Ok (c : Cfg) (r : Reception) : Prop :=
  r.poll.Ok (c.mask.rxIRq ||| c.mask.timerIRq) ∧ r.reads.length = (r.level &&& c.mask.fifoLevel).toNat

/-- Whether the poll's last read is a completion (rule R152). -/
abbrev Reception.Completes (c : Cfg) (r : Reception) : Prop :=
  r.poll.last &&& c.mask.rxIRq ≠ 0 ∧ (c.rxBeforeTimer = true ∨ r.poll.last &&& c.mask.timerIRq = 0)

/-- What the completion path says (rule R153): the start bit cleared, the error register, and unless an error bit is set
the drain and the valid-bits field. -/
def completionTalk (c : Cfg) (r : Reception) : Dialogue TransceiveResult :=
  (Dialogue.says
    [gave c.reg.bitFraming (r.noise 8 0) r.framing2,
     wrote r.noise 9 [encW c.reg.bitFraming, r.framing2 &&& ~~~c.mask.startSend],
     gave c.reg.error (r.noise 10 0) r.err] ()).andThen fun _ =>
  if r.err &&& c.mask.errTransceive ≠ 0 then .fails [] (.transceiveError r.err r.poll.last)
  else
    .says (gave c.reg.fifoLevel (r.noise 11 0) r.level ::
        (r.reads.map (fun q => gave c.reg.fifoData q.1 q.2) ++ [gave c.reg.control (r.noise 12 0) r.control]))
      { data := r.reads.map Prod.snd, validBits := r.control &&& c.mask.rxLastBits, errReg := some r.err
        irqReg := r.poll.last, note := .noNote }

/-- The dialogue of `transceive` (rules R150 to R154). -/
def transceiveTalk (c : Cfg) (frame : List Byte) (vb : Byte) (ms : Nat) (r : Reception) : Dialogue TransceiveResult :=
  (Dialogue.says
    [wrote r.noise 0 [encW c.reg.command, c.cmd.idle],
     wrote r.noise 1 [encW c.reg.comIrq, c.mask.comIrqClearAll],
     wrote r.noise 2 [encW c.reg.fifoLevel, c.mask.flushBuffer],
     wrote r.noise 3 (encW c.reg.fifoData :: frame),
     wrote r.noise 4 [encW c.reg.bitFraming, vb],
     wrote r.noise 5 [encW c.reg.command, c.cmd.transceive],
     gave c.reg.bitFraming (r.noise 6 0) r.framing,
     wrote r.noise 7 [encW c.reg.bitFraming, r.framing ||| c.mask.startSend]] ()).andThen fun _ =>
  (pollTalk c.reg.comIrq (c.mask.rxIRq ||| c.mask.timerIRq) ms r.poll).andThen fun _ =>
  if r.Completes c then completionTalk c r
  else .says []
    { data := [], validBits := 0, errReg := none, irqReg := r.poll.last
      note := if r.poll.last &&& c.mask.timerIRq ≠ 0 then .timerIRq else .timeout }

/-- The dialogue of a CRC-protected frame (rules R94, R137): the CRC of the body, then the frame with it. -/
def crcFrameTalk (c : Cfg) (body : List Byte) (ms : Nat) (x : CrcRun) (r : Reception) : Dialogue TransceiveResult :=
  (crcTalk c body x).andThen fun crc => transceiveTalk c (body ++ crc) 0 ms r

/-- The answers of one authentication (rule R183). -/
structure AuthRun where
  noise : Noise
  poll : Poll
  err : Byte
  status2 : Byte

/-- The answers fit together. -/
abbrev AuthRun.Ok (c : Cfg) (x : AuthRun) : Prop := x.poll.Ok (c.mask.idleIRq ||| c.mask.timerIRq)

/-- The dialogue of an authentication on its FIFO input (rules R183, R184). -/
def authTalk (c : Cfg) (input : List Byte) (x : AuthRun) : Dialogue Unit :=
  (Dialogue.says
    [wrote x.noise 0 [encW c.reg.command, c.cmd.idle],
     wrote x.noise 1 [encW c.reg.comIrq, c.mask.comIrqClearAll],
     wrote x.noise 2 [encW c.reg.fifoLevel, c.mask.flushBuffer],
     wrote x.noise 3 (encW c.reg.fifoData :: input),
     wrote x.noise 4 [encW c.reg.command, c.cmd.mfAuthent]] ()).andThen fun _ =>
  (pollTalk c.reg.comIrq (c.mask.idleIRq ||| c.mask.timerIRq) 150 x.poll).andThen fun _ =>
  (Dialogue.says [gave c.reg.error (x.noise 5 0) x.err] ()).andThen fun _ =>
  if x.err &&& c.mask.errAuth ≠ 0 then .fails [] (.authError x.err x.poll.last)
  else (Dialogue.says [gave c.reg.status2 (x.noise 6 0) x.status2] ()).andThen fun _ =>
    if x.status2 &&& c.mask.mfCrypto1On ≠ 0 then .says [] () else .fails [] (.authFailed x.status2 x.poll.last)

/-- The dialogue of `anticollCL1` (rule R175): the collision register's bit cleared, then the frame. -/
def anticollTalk (c : Cfg) (e : Noise) (coll : Byte) (r : Reception) : Dialogue TransceiveResult :=
  (changeTalk c.reg.coll (fun v => v &&& ~~~c.mask.valuesAfterColl) e coll).andThen fun _ =>
    transceiveTalk c [c.card.selCl1, c.card.nvbAnticoll] 0 80 r

/-- The dialogue of one write phase (rules R193, R194). -/
def phaseTalk (c : Cfg) (phase : Nat) (body : List Byte) (ms : Nat) (x : CrcRun) (r : Reception) : Dialogue Unit :=
  (crcFrameTalk c body ms x r).andThen fun res =>
    if isAck c res = true then .says [] () else .fails [] (.writeNotAcked phase res.data res.validBits)

/-- The dialogue of `init` before its last phase change (rules R220, R222, R223). -/
def initTalk (c : Cfg) (e f : Noise) (v : Byte) : Dialogue Unit :=
  (Dialogue.says
    [wrote e 0 [encW c.reg.command, c.cmd.softReset], .sleep 50,
     wrote e 1 [encW c.reg.tMode, c.init.tMode], wrote e 2 [encW c.reg.tPrescaler, c.init.tPrescaler],
     wrote e 3 [encW c.reg.tReloadL, c.init.tReloadL], wrote e 4 [encW c.reg.tReloadH, c.init.tReloadH],
     wrote e 5 [encW c.reg.txAsk, c.init.txAsk], wrote e 6 [encW c.reg.mode, c.init.mode]] ()).andThen fun _ =>
  antennaTalk c f v

/-! ## Who can run -/

/-- An open handle and no operation in progress. -/
abbrev CanCall (s : State) : Prop := isOpen s.handle = true ∧ s.busy = false

/-- The common precondition of the card operations (43_card_protocol.md). -/
abbrev CanCard (s : State) : Prop := CanCall s ∧ s.phase = .ready

/-- The operations that issue an exchange (rule R119): every host call but `open`, `close` and the two pure helpers. -/
def needsHandle : Instr → Bool
  | .openTransport _ _ _ | .close | .isTrailerBlock _ | .ensure16Bytes _ | .mfAck _ _ => false
  | _ => true

/-- The card operations with the common precondition of 43_card_protocol.md. -/
def isCardOperation : Instr → Bool
  | .requestA | .anticollCL1 | .selectCL1 _ | .mifareAuthKeyA _ _ _ | .mifareReadBlock _ | .mifareWriteBlock _ _
  | .detectCard => true
  | _ => false

/-- The bytes an answered or failed exchange loads into the FIFO. -/
def loadOf (c : Cfg) : Event → Option (List Byte)
  | .exchange (b :: data) _ => if b = encW c.reg.fifoData then some data else none
  | _ => none

/-- The FIFO loads of a history, in order. -/
def loadsOf (c : Cfg) (es : List Event) : List (List Byte) := es.filterMap (loadOf c)

/-- An ACK was read among the events (rules R153, R194): the first byte drained from the FIFO has the ACK code in its low
nibble, and the valid-bits field read is 4 or 0. -/
abbrev AckRead (c : Cfg) (es : List Event) : Prop :=
  ∃ (b v : Byte) (rest : List Byte), readValues c.reg.fifoData es = b :: rest ∧ readValues c.reg.control es = [v] ∧
    b &&& 0x0F = c.card.ack ∧ (v &&& c.mask.rxLastBits = 4 ∨ v &&& c.mask.rxLastBits = 0)

/-- How often a register was written with a value, answered. -/
def timesWritten (a : RegAddr) (v : Byte) (es : List Event) : Nat :=
  es.countP (fun e => writtenValue a e == some v)

/-- The writes of rule R45's table. -/
def listedWrite (c : Cfg) : Event → Bool
  | .exchange (b :: data) _ =>
    addrIsRead b || b == encW c.reg.fifoData || b == encW c.reg.bitFraming ||
    match data with
    | [v] =>
      (b == encW c.reg.command && [c.cmd.idle, c.cmd.calcCrc, c.cmd.transceive, c.cmd.mfAuthent, c.cmd.softReset].contains v) ||
      (b == encW c.reg.comIrq && v == c.mask.comIrqClearAll) || (b == encW c.reg.divIrq && v == c.mask.crcIRq) ||
      (b == encW c.reg.fifoLevel && v == c.mask.flushBuffer) ||
      (b == encW c.reg.coll && !anySet v c.mask.valuesAfterColl) ||
      (b == encW c.reg.tMode && v == c.init.tMode) || (b == encW c.reg.tPrescaler && v == c.init.tPrescaler) ||
      (b == encW c.reg.tReloadL && v == c.init.tReloadL) || (b == encW c.reg.tReloadH && v == c.init.tReloadH) ||
      (b == encW c.reg.txAsk && v == c.init.txAsk) || (b == encW c.reg.mode && v == c.init.mode) ||
      (b == encW c.reg.txControl && allSet v c.mask.antenna)
    | _ => false
  | _ => true

/-- Two states that differ at most in what has been recorded: history, outcomes, mark. -/
abbrev SameButRecord (s t : State) : Prop :=
  t = { s with events := t.events, outcomes := t.outcomes, refused := t.refused }

end Sys2Proof.Machine
end

