-- ==== Sys2Proof/Certificates/Slice0/Obligations.lean ====
section
/-! DEFINITION. The statements for the provers. A statement with a dialogue speaks of every environment that answers
without a transport failure; what a failure does is `FailedExchangeIsLast` and `ErrorEntry`. -/

open Sys2Proof Sys2Proof.Machine

/-! ## Encoding -/

/-- Every well-formed instruction is read back from its word, in its layer (rules R83, R84, R85, R88, R92, R104, R194),
under every configuration whose codes tell the rows apart, the defaults among them (where codes coincide, log entry 20
reads the first row). The words of the internal steps and of the ACK are the model's (log entry 11), not R104's or
R194's. -/
def Obligations.DecodeOfEncode : Prop :=
  Cfg.default.CodesDistinct ∧
  ∀ (c : Cfg) (i : Instr), c.CodesDistinct → i.wf = true → decode c i.layer (encode c i) = .ok i

/-- A word that decodes is the word of the instruction it decodes to, and that instruction is well formed, under every
configuration. The words of the internal steps and of the ACK are the model's (log entry 11). -/
def Obligations.EncodeOfDecode : Prop :=
  ∀ (c : Cfg) (l : Layer) (bs : List Byte) (i : Instr), decode c l bs = .ok i →
    i.layer = l ∧ i.wf = true ∧ encode c i = bs

/-- The bits of an address byte (rules R80, R81): direction, the six address bits, reserved 0. -/
def Obligations.AddressByteLayout : Prop :=
  ∀ a : RegAddr,
    (encW a).getLsbD 7 = false ∧ (encR a).getLsbD 7 = true ∧
    (∀ k, k < 6 → (encW a).getLsbD (k + 1) = a.getLsbD k ∧ (encR a).getLsbD (k + 1) = a.getLsbD k) ∧
    (encW a).getLsbD 0 = false ∧ (encR a).getLsbD 0 = false

/-- The table of rule R82, row by row. -/
def Obligations.RegisterAddressBytes : Prop :=
  let r := Cfg.default.reg
  [(r.command, encW r.command, encR r.command), (r.comIrq, encW r.comIrq, encR r.comIrq),
   (r.divIrq, encW r.divIrq, encR r.divIrq), (r.error, encW r.error, encR r.error),
   (r.status2, encW r.status2, encR r.status2), (r.fifoData, encW r.fifoData, encR r.fifoData),
   (r.fifoLevel, encW r.fifoLevel, encR r.fifoLevel), (r.control, encW r.control, encR r.control),
   (r.bitFraming, encW r.bitFraming, encR r.bitFraming), (r.coll, encW r.coll, encR r.coll),
   (r.mode, encW r.mode, encR r.mode), (r.txControl, encW r.txControl, encR r.txControl),
   (r.txAsk, encW r.txAsk, encR r.txAsk), (r.crcResultH, encW r.crcResultH, encR r.crcResultH),
   (r.crcResultL, encW r.crcResultL, encR r.crcResultL), (r.tMode, encW r.tMode, encR r.tMode),
   (r.tPrescaler, encW r.tPrescaler, encR r.tPrescaler), (r.tReloadH, encW r.tReloadH, encR r.tReloadH),
   (r.tReloadL, encW r.tReloadL, encR r.tReloadL)] =
  [(0x01, 0x02, 0x82), (0x04, 0x08, 0x88), (0x05, 0x0A, 0x8A), (0x06, 0x0C, 0x8C), (0x08, 0x10, 0x90),
   (0x09, 0x12, 0x92), (0x0A, 0x14, 0x94), (0x0C, 0x18, 0x98), (0x0D, 0x1A, 0x9A), (0x0E, 0x1C, 0x9C),
   (0x11, 0x22, 0xA2), (0x14, 0x28, 0xA8), (0x15, 0x2A, 0xAA), (0x21, 0x42, 0xC2), (0x22, 0x44, 0xC4),
   (0x2A, 0x54, 0xD4), (0x2B, 0x56, 0xD6), (0x2C, 0x58, 0xD8), (0x2D, 0x5A, 0xDA)]

/-- With the default configuration, the example words of rules R104, R111, R112, R113 and R178, and one of the chip
command layer, decode to what they stand for. The words of `antennaOn` and of the ACK are the model's choice (log entry
11): no rule gives them one. -/
def Obligations.SpecWordsDecode : Prop :=
  ∀ c : Cfg, c = Cfg.default →
    decode c .hostCall [0x01, 0x00, 0x00, 0x00, 0x00, 0x00, 0x00, 0x00, 0x00, 0x00, 0x0F, 0x42, 0x40] =
      .ok (.openTransport 0 0 1000000) ∧
    decode c .hostCall [0x0F, 0x00, 0x00, 0x00, 0x08] = .ok (.mifareReadBlock 8) ∧
    decode c .hostCall [0x0D, 0x04, 0xDE, 0xAD, 0xBE, 0xEF] = .ok (.selectCL1 [0xDE, 0xAD, 0xBE, 0xEF]) ∧
    decode c .internalStep [0x23] = .ok .antennaOn ∧
    decode c .exchange [0x88, 0x00] = .ok (.spiReadByte 0x04) ∧
    decode c .exchange [0x02, 0x0C] = .ok (.spiWriteByte 0x01 0x0C) ∧
    decode c .exchange [0x12, 0x93, 0x20] = .ok (.spiBurstWrite 0x09 [0x93, 0x20]) ∧
    decode c .chipCommand [0x0C] = .ok .cmdTransceive ∧
    decode c .cardFrame [0x93, 0x70, 0xDE, 0xAD, 0xBE, 0xEF, 0x22, 0xB9, 0x9C] =
      .ok (.piccSelect [0xDE, 0xAD, 0xBE, 0xEF] 0xB9 0x9C) ∧
    decode c .cardAnswer [0x0A, 0x04] = .ok (.mfAck 0 true)

/-- The identifiers of rule R102 are those of the 25 operations; a host-call word that starts with any other byte, an
internal step's identifier included, spells no operation. -/
def Obligations.OperationIdentifiers : Prop :=
  OpName.all.map OpName.id =
    [0x01, 0x02, 0x03, 0x04, 0x05, 0x06, 0x07, 0x08, 0x09, 0x0A, 0x0B, 0x0C, 0x0D, 0x0E, 0x0F, 0x10, 0x11, 0x12, 0x13,
     0x14, 0x15, 0x20, 0x21, 0x22, 0x23] ∧
  (∀ op : OpName, op ∈ OpName.all ∧ opOfId op.id = some op) ∧
  ∀ (c : Cfg) (b : Byte) (rest : List Byte) (i : Instr), decode c .hostCall (b :: rest) = .ok i → 0x01 ≤ b ∧ b ≤ 0x15

/-- The check byte of a UID (rule R95). -/
def Obligations.CheckByteIsXor : Prop :=
  ∀ u0 u1 u2 u3 : Byte, bcc [u0, u1, u2, u3] = u0 ^^^ u1 ^^^ u2 ^^^ u3

/-! ## The machine -/

/-- A step begins the next call, decodes its word and runs the instruction. With no call waiting nothing happens. The
queue of calls is the model's (log entries 4 and 5), and so is the clause about overlapping calls (log entry 24, rule
R23): such a call finds the core busy, and after it `busy` is what it was. -/
def Obligations.StepRunsDecoded : Prop :=
  (∀ (s : State) (c : Call) (rest : List Call) (i : Instr), s.calls = c :: rest → decode s.cfg c.layer c.bytes = .ok i →
    step s = match exec i { s with calls := rest, busy := s.busy || c.overlaps } with
      | .next t => .next (if c.overlaps then { t with busy := s.busy } else t)
      | .fault f => .fault f
      | .refused r => .refused r) ∧
  ∀ s : State, s.calls = [] → step s = .next s

/-- A word that spells no instruction of its layer is refused: no event, the mark, and `UnknownOperation`, or
`ConcurrentCall` if it comes while an operation is in progress (rules R102, R104, R255, R264, which speak of host-call
words; the order of the two is log entry 13). That words of the other layers are refused in the same way, a register byte
above 63 in an internal step among them, is the model's choice (log entries 13 and 16). -/
def Obligations.UnknownWordRefused : Prop :=
  ∀ (s : State) (c : Call) (rest : List Call) (e : DecodeError), s.calls = c :: rest →
    decode s.cfg c.layer c.bytes = .error e →
    step s = .next { refusedWith (if s.busy || c.overlaps then .concurrentCall else .unknownOperation) s with
      calls := rest }

/-- The state at model start (rules R48, R290), its configuration the defaults (log entry 1), and the model's own fields
empty or 0, which is the model's choice (log entry 19; `outcomes` also entry 18). -/
def Obligations.ResetState : Prop :=
  State.reset.handle = .closed ∧ State.reset.phase = .closed ∧ State.reset.busy = false ∧
  State.reset.refused = false ∧ State.reset.events = [] ∧ State.reset.outcomes = [] ∧
  State.reset.cfg = Cfg.default ∧ State.reset.calls = [] ∧ State.reset.answers = [] ∧ State.reset.links = [] ∧
  State.reset.expiries = [] ∧ State.reset.draws = 0

/-- The invariant holds at reset. -/
def Obligations.ResetInv : Prop := StateInv State.reset

/-- Every step keeps the invariant: between steps the core is not busy (R290), handle and phase are closed together
(R21, R48), and every exchange in the history has a well-formed address byte and is no burst read (R81, R87). -/
def Obligations.StepKeepsInv : Prop :=
  ∀ s t : State, StateInv s → step s = .next t → StateInv t

/-- Every instruction ends with exactly one outcome (rule R250), and the machine never stops. -/
def Obligations.EveryCallEnds : Prop :=
  (∀ (i : Instr) (s : State), ∃ (t : State) (o : CallOutcome),
    exec i s = .next t ∧ t.outcomes = s.outcomes ++ [o]) ∧
  ∀ s : State, ∃ t, step s = .next t

/-- A refused call issues no event and changes nothing but the mark and the outcome (rules R255, R263). -/
def Obligations.RefusalChangesNothing : Prop :=
  ∀ (i : Instr) (s t : State) (r : RefusalReason), exec i s = .next t →
    t.outcomes = s.outcomes ++ [.refused r] → t = refusedWith r s

/-- No step clears the mark of a refusal, and only a refusal sets it (rule R255). -/
def Obligations.RefusedMarkStays : Prop :=
  (∀ (i : Instr) (s t : State), exec i s = .next t →
    (t.refused = true ↔ s.refused = true ∨ ∃ r, t.outcomes = s.outcomes ++ [.refused r])) ∧
  ∀ s t : State, step s = .next t → s.refused = true → t.refused = true

/-- Error entry (rule R262, clauses c to e): after an error the core is not busy, the handle is unchanged, and the phase
is `Opened` after a transport error on an open handle and unchanged otherwise; an error sets no mark. -/
def Obligations.ErrorEntry : Prop :=
  ∀ (i : Instr) (s t : State) (e : Error), exec i s = .next t → t.outcomes = s.outcomes ++ [.raised e] →
    t.busy = false ∧ t.handle = s.handle ∧ t.refused = s.refused ∧
    t.phase = if isTransport e = true ∧ s.handle ≠ .closed then .opened else s.phase

/-- A failed exchange or opening is the last event of its operation, which raises `TransportError` with its reason; and
`TransportError` is raised only so (rules R110, R120, R262 a and b, R263, R264). -/
def Obligations.FailedExchangeIsLast : Prop :=
  ∀ (i : Instr) (s t : State) (r : TransportReason), exec i s = .next t →
    (∀ (es : List Event) (ev : Event) (fs : List Event), t.events = s.events ++ es ++ ev :: fs →
      failureOf ev = some r → fs = [] ∧ t.outcomes = s.outcomes ++ [.raised (.transportError r)]) ∧
    (t.outcomes = s.outcomes ++ [.raised (.transportError r)] →
      ∃ (es : List Event) (ev : Event), t.events = s.events ++ es ++ [ev] ∧ failureOf ev = some r)

/-- What every instruction leaves alone: the configuration and the waiting calls are unchanged, the history only grows,
and answers are only taken from the front (rules R9, R13). -/
def Obligations.HistoryOnlyGrows : Prop :=
  ∀ (i : Instr) (s t : State), exec i s = .next t →
    t.cfg = s.cfg ∧ t.calls = s.calls ∧ s.events <+: t.events ∧ t.answers <:+ s.answers ∧ t.links <:+ s.links ∧
    t.expiries <:+ s.expiries ∧ s.draws ≤ t.draws

/-- Who changes the lifecycle (rules R48, R222, R290): only `open` and `close` change the handle; the phase is changed
only by `open`, `close`, `softReset`, `init` and a transport error; only `init` makes it `Ready`. -/
def Obligations.LifecycleChanges : Prop :=
  ∀ (i : Instr) (s t : State), exec i s = .next t →
    (t.handle ≠ s.handle → i = .close ∨ ∃ bus dev hz, i = .openTransport bus dev hz) ∧
    (t.phase ≠ s.phase → (i = .close ∨ ∃ bus dev hz, i = .openTransport bus dev hz) ∨ i = .softReset ∨ i = .init ∨
      ∃ r, t.outcomes = s.outcomes ++ [.raised (.transportError r)]) ∧
    (t.phase = .ready → s.phase = .ready ∨ i = .init)

/-- The core keeps no copy of what it has seen (rules R8, R20): from two states that differ only in their record, an
instruction does the same, events and outcome, and again leaves states that differ only in their record. -/
def Obligations.NoShadowState : Prop :=
  ∀ (i : Instr) (s s' t t' : State), SameButRecord s s' → exec i s = .next t → exec i s' = .next t' →
    newEvents s t = newEvents s' t' ∧ t.outcomes.drop s.outcomes.length = t'.outcomes.drop s'.outcomes.length ∧
    SameButRecord t t'

/-- The preconditions in their order (rules R23, R119, R255, R264, 43_card_protocol.md): a host call while busy, an
exchange-issuing operation on a closed handle, a card operation that is not `Ready`. That the rows that are no host
calls are refused on a closed handle, busy or not, is the model's choice (log entry 6). -/
def Obligations.PreconditionOrder : Prop :=
  ∀ (i : Instr) (s : State),
    (i.layer = .hostCall → s.busy = true → exec i s = .next (refusedWith .concurrentCall s)) ∧
    ((i.layer = .hostCall → s.busy = false) → s.handle = .closed → needsHandle i = true →
      exec i s = .next (refusedWith .notOpen s)) ∧
    (CanCall s → s.phase ≠ .ready → isCardOperation i = true → exec i s = .next (refusedWith .notInitialised s))

/-- The other refusals of rule R255, each on its condition, after the preconditions and in the order of the operation's
rule (rule R264). -/
def Obligations.OperandRefusals : Prop :=
  ∀ s : State,
    (CanCall s → s.phase = .ready → exec .init s = .next (refusedWith .alreadyInitialised s)) ∧
    (CanCall s → ∀ a v : Byte, ∀ bs : List Byte, 63 < a.toNat →
      exec (.readRegister a) s = .next (refusedWith .badRegisterAddress s) ∧
      exec (.writeRegister a v) s = .next (refusedWith .badRegisterAddress s) ∧
      exec (.writeRegisterBurst a bs) s = .next (refusedWith .badRegisterAddress s)) ∧
    (CanCall s → ∀ (frame : List Byte) (vb : Byte) (ms : Nat),
      (7 < vb.toNat → exec (.transceive frame vb ms) s = .next (refusedWith .badValidBits s)) ∧
      (vb.toNat ≤ 7 → frame = [] ∨ 64 < frame.length →
        exec (.transceive frame vb ms) s = .next (refusedWith .badFrameLength s)) ∧
      (64 < frame.length → exec (.calcCrc frame) s = .next (refusedWith .badFrameLength s))) ∧
    (CanCard s → ∀ (blk : Nat) (key uid payload : List Byte),
      (255 < blk →
        exec (.mifareAuthKeyA blk key uid) s = .next (refusedWith .badBlockAddress s) ∧
        exec (.mifareReadBlock blk) s = .next (refusedWith .badBlockAddress s) ∧
        exec (.mifareWriteBlock blk payload) s = .next (refusedWith .badBlockAddress s)) ∧
      (uid.length ≠ 4 →
        exec (.selectCL1 uid) s = .next (refusedWith .badUidLength s) ∧
        (blk ≤ 255 → exec (.mifareAuthKeyA blk key uid) s = .next (refusedWith .badUidLength s))))

/-- `InvalidKeyLength` comes before any exchange, and no other operation checks a key (rule R257). -/
def Obligations.InvalidKeyLength : Prop :=
  (∀ (s : State) (blk : Nat) (key uid : List Byte), CanCard s → blk ≤ 255 → uid.length = 4 → key.length ≠ 6 →
    exec (.mifareAuthKeyA blk key uid) s =
      .next { s with outcomes := s.outcomes ++ [.raised (.invalidKeyLength key.length)] }) ∧
  ∀ (i : Instr) (s t : State) (n : Nat), exec i s = .next t →
    t.outcomes = s.outcomes ++ [.raised (.invalidKeyLength n)] →
    t.events = s.events ∧ ∃ blk key uid, i = .mifareAuthKeyA blk key uid ∧ key.length = n ∧ n ≠ 6

/-! ## The register interface -/

/-- `open` (rule R117): the event, then on success the handle and the phase, on failure the error and nothing else; on a
handle that is not closed it is refused. -/
def Obligations.OpenTransport : Prop :=
  ∀ (s : State) (bus dev hz : Nat), s.busy = false →
    let answer := s.links.headD (Config.freeLink s.draws)
    let told : State := { s with events := s.events ++ [.transportOpen bus dev hz answer], links := s.links.tail
                                 draws := s.draws + 1 }
    (s.handle = .closed → exec (.openTransport bus dev hz) s = .next (match answer with
      | .ok => { told with handle := .opened bus dev hz, phase := .opened, outcomes := s.outcomes ++ [.returned .unit] }
      | .fail code => { told with outcomes := s.outcomes ++ [.raised (.transportError (.external code))] })) ∧
    (s.handle ≠ .closed → exec (.openTransport bus dev hz) s = .next (refusedWith .alreadyOpen s))

/-- `close` (rule R118): always unit; on an open handle one event whose answer is ignored, on a closed one none; handle
and phase are closed after it. -/
def Obligations.CloseTransport : Prop :=
  ∀ s : State, s.busy = false →
    (s.handle ≠ .closed → exec .close s = .next { s with
      events := s.events ++ [.transportClose (s.links.headD (Config.freeLink s.draws))]
      links := s.links.tail
      draws := s.draws + 1
      handle := .closed
      phase := .closed
      outcomes := s.outcomes ++ [.returned .unit] }) ∧
    (s.handle = .closed → exec .close s = .next { s with
      phase := .closed
      outcomes := s.outcomes ++ [.returned .unit] })

/-- `readRegister`, `writeRegister` and `writeRegisterBurst` of an address up to 63 (rules R111, R112, R113): one
exchange, whose reply is the value or ignored; above 63 the call is refused. -/
def Obligations.RegisterOperations : Prop :=
  ∀ (s : State) (a : RegAddr) (v : Byte) (bs : List Byte), CanCall s →
    exec (.readRegister (a.setWidth 8)) s =
      .next (exchanged [encR a, 0x00] (fun rx => .byte (rx.getD 1 0)) s) ∧
    exec (.writeRegister (a.setWidth 8) v) s = .next (exchanged [encW a, v] (fun _ => .unit) s) ∧
    exec (.writeRegisterBurst (a.setWidth 8) bs) s = .next (exchanged (encW a :: bs) (fun _ => .unit) s) ∧
    ∀ b : Byte, 63 < b.toNat →
      exec (.readRegister b) s = .next (refusedWith .badRegisterAddress s) ∧
      exec (.writeRegister b v) s = .next (refusedWith .badRegisterAddress s) ∧
      exec (.writeRegisterBurst b bs) s = .next (refusedWith .badRegisterAddress s)

/-- `flushFifo` (rule R130) is one direct write, `fifoLevel` (rule R131) one read whose bit 7 is discarded and whose
count is not clamped. -/
def Obligations.FlushAndLevel : Prop :=
  ∀ s : State, CanCall s →
    exec .flushFifo s = .next (exchanged [encW s.cfg.reg.fifoLevel, s.cfg.mask.flushBuffer] (fun _ => .unit) s) ∧
    exec .fifoLevel s = .next (exchanged [encR s.cfg.reg.fifoLevel, 0x00]
      (fun rx => .count (rx.getD 1 0 &&& s.cfg.mask.fifoLevel).toNat) s)

/-- `readFifoBytes n` (rules R132, R133): `n` single reads, and the list of the `n` bytes in order. -/
def Obligations.ReadFifoBytes : Prop :=
  ∀ (s : State) (reads : List (Byte × Byte)), CanCall s → Given (fifoTalk s.cfg reads) s →
    exec (.readFifoBytes reads.length) s = .next ((fifoTalk s.cfg reads).endState .bytes s)

/-- The exchange forms (rules R83 to R86): the bytes sent, the value of a read, the ignored reply of a write. That the rows
run as instructions of their own, busy or not, is the model's choice (log entry 6). -/
def Obligations.ExchangeForms : Prop :=
  ∀ (s : State) (a : RegAddr) (v : Byte) (bs : List Byte), isOpen s.handle = true →
    exec (.spiWriteByte a v) s = .next (exchanged [encW a, v] (fun _ => .unit) s) ∧
    exec (.spiReadByte a) s = .next (exchanged [encR a, 0x00] (fun rx => .byte (rx.getD 1 0)) s) ∧
    exec (.spiBurstWrite a bs) s = .next (exchanged (encW a :: bs) (fun _ => .unit) s)

/-- A chip command is the write of its code to `CommandReg` (rule R88). That the rows run as instructions of their own,
busy or not, is the model's choice (log entry 6); the last row is the write alone (log entry 7). -/
def Obligations.ChipCommands : Prop :=
  ∀ s : State, isOpen s.handle = true →
    let issued := fun code => exchanged [encW s.cfg.reg.command, code] (fun _ => .unit) s
    exec .cmdIdle s = .next (issued s.cfg.cmd.idle) ∧
    exec .cmdCalcCrc s = .next (issued s.cfg.cmd.calcCrc) ∧
    exec .cmdTransceive s = .next (issued s.cfg.cmd.transceive) ∧
    exec .cmdMfAuthent s = .next (issued s.cfg.cmd.mfAuthent) ∧
    exec .cmdSoftReset s = .next (issued s.cfg.cmd.softReset)

/-- `SetBits` and `ClearBits` (rules R114, R115): the value read is written back with the mask's bits set or cleared. That
they run as instructions of their own, busy or not, is the model's choice (log entry 6). -/
def Obligations.ReadModifyWrite : Prop :=
  ∀ (s : State) (a : RegAddr) (m : Byte) (e : Noise) (v : Byte), isOpen s.handle = true →
    (Given (changeTalk a (fun v => v ||| m) e v) s →
      exec (.setBits a m) s = .next ((changeTalk a (fun v => v ||| m) e v).endState (fun _ => .unit) s)) ∧
    (Given (changeTalk a (fun v => v &&& ~~~m) e v) s →
      exec (.clearBits a m) s = .next ((changeTalk a (fun v => v &&& ~~~m) e v).endState (fun _ => .unit) s))

/-- `pollUntil` (rule R116): one read at least, the stop test before the deadline test, and the last value read. That it
runs as an instruction of its own is the model's choice (log entry 6), and a stop mask of 0, which the rule excludes, is
covered as log entry 12 says. -/
def Obligations.PollUntil : Prop :=
  ∀ (s : State) (a : RegAddr) (stop : Byte) (ms : Nat) (p : Poll), isOpen s.handle = true → p.Ok stop →
    Given (pollTalk a stop ms p) s →
    exec (.pollUntil a stop ms) s = .next ((pollTalk a stop ms p).endState (fun r => .poll r.1 r.2) s)

/-- `antennaOn` (rule R223): the write comes only if not both driver bits were read as set. That it runs as an instruction
of its own, busy or not, is the model's choice (log entry 6). -/
def Obligations.AntennaOn : Prop :=
  ∀ (s : State) (e : Noise) (v : Byte), isOpen s.handle = true → Given (antennaTalk s.cfg e v) s →
    exec .antennaOn s = .next ((antennaTalk s.cfg e v).endState (fun _ => .unit) s)

/-! ## CRC and transceive -/

/-- `calcCrc` (rule R136): its events in order, the two result bytes, low first, or `CrcTimeout` with the last value. -/
def Obligations.CalcCrc : Prop :=
  ∀ (s : State) (buffer : List Byte) (x : CrcRun), CanCall s → buffer.length ≤ 64 → x.Ok s.cfg →
    Given (crcTalk s.cfg buffer x) s →
    exec (.calcCrc buffer) s = .next ((crcTalk s.cfg buffer x).endState .bytes s)

/-- `transceive` (rules R150 to R154): preamble, poll, and each of its exits. -/
def Obligations.Transceive : Prop :=
  ∀ (s : State) (frame : List Byte) (vb : Byte) (ms : Nat) (r : Reception), CanCall s → vb.toNat ≤ 7 →
    1 ≤ frame.length → frame.length ≤ 64 → r.Ok s.cfg → Given (transceiveTalk s.cfg frame vb ms r) s →
    exec (.transceive frame vb ms) s = .next ((transceiveTalk s.cfg frame vb ms r).endState .transceived s)

/-! ## Card operations -/

/-- `requestA` (rule R170): exactly two bytes are the ATQA, any other number is no card. -/
def Obligations.RequestA : Prop :=
  ∀ (s : State) (r : Reception), CanCard s → r.Ok s.cfg →
    let d := (transceiveTalk s.cfg [s.cfg.card.reqa] 7 80 r).andThen fun res => .says [] (match res.data with
      | [b0, b1] => Value.atqa ⟨b0, b1⟩
      | _ => .absent)
    Given d s → exec .requestA s = .next (d.endState id s)

/-- `anticollCL1` (rule R175): at least five bytes, the fifth the exclusive-or of the first four; anything else is no
UID. -/
def Obligations.AnticollCL1 : Prop :=
  ∀ (s : State) (e : Noise) (coll : Byte) (r : Reception), CanCard s → r.Ok s.cfg →
    let d := (anticollTalk s.cfg e coll r).andThen fun res => .says [] (match res.data with
      | u0 :: u1 :: u2 :: u3 :: c :: _ => if u0 ^^^ u1 ^^^ u2 ^^^ u3 = c then Value.uid ⟨u0, u1, u2, u3⟩ else .absent
      | _ => .absent)
    Given d s → exec .anticollCL1 s = .next (d.endState id s)

/-- `selectCL1` (rule R178): the CRC of the seven bytes, the frame with it, and the first byte of the answer. -/
def Obligations.SelectCL1 : Prop :=
  ∀ (s : State) (u0 u1 u2 u3 : Byte) (x : CrcRun) (r : Reception), CanCard s → x.Ok s.cfg → r.Ok s.cfg →
    let body := [s.cfg.card.selCl1, s.cfg.card.nvbSelect, u0, u1, u2, u3, u0 ^^^ u1 ^^^ u2 ^^^ u3]
    let d := (crcFrameTalk s.cfg body 80 x r).andThen fun res => .says [] (match res.data with
      | k :: _ => Value.sak k
      | [] => .absent)
    Given d s → exec (.selectCL1 [u0, u1, u2, u3]) s = .next (d.endState id s)

/-- `mifareAuthKeyA` (rules R183, R184, R256): every exit of the poll goes on to the error register and, unless an error
bit is set, to the crypto bit, which decides. -/
def Obligations.MifareAuthKeyA : Prop :=
  ∀ (s : State) (blk : Byte) (key uid : List Byte) (x : AuthRun), CanCard s → key.length = 6 → uid.length = 4 →
    x.Ok s.cfg →
    let d := authTalk s.cfg ([s.cfg.card.authKeyA, blk] ++ key ++ uid) x
    Given d s → exec (.mifareAuthKeyA blk.toNat key uid) s = .next (d.endState (fun _ => .unit) s)

/-- `mifareReadBlock` (rules R187, R258): the first sixteen bytes, or `ShortRead` with the number received. -/
def Obligations.MifareReadBlock : Prop :=
  ∀ (s : State) (blk : Byte) (x : CrcRun) (r : Reception), CanCard s → x.Ok s.cfg → r.Ok s.cfg →
    let d := (crcFrameTalk s.cfg [s.cfg.card.read, blk] 250 x r).andThen fun res =>
      if res.data.length < 16 then .fails [] (.shortRead res.data.length) else .says [] (res.data.take 16)
    Given d s → exec (.mifareReadBlock blk.toNat) s = .next (d.endState .bytes s)

/-- `mifareWriteBlock` (rules R193, R196, R259): phase 1, and only after its ACK the payload of sixteen bytes. -/
def Obligations.MifareWriteBlock : Prop :=
  ∀ (s : State) (blk : Byte) (payload : List Byte) (x1 x2 : CrcRun) (r1 r2 : Reception), CanCard s →
    x1.Ok s.cfg → x2.Ok s.cfg → r1.Ok s.cfg → r2.Ok s.cfg →
    let data := payload.take 16 ++ List.replicate (16 - min 16 payload.length) 0x00
    let d := (phaseTalk s.cfg 1 [s.cfg.card.write, blk] 250 x1 r1).andThen fun _ =>
      phaseTalk s.cfg 2 data 400 x2 r2
    Given d s → exec (.mifareWriteBlock blk.toNat payload) s = .next (d.endState (fun _ => .unit) s)

/-! ## Lifecycle -/

/-- `softReset` (rule R220): the write, the settle delay, and the phase; if the write fails, no delay. -/
def Obligations.SoftReset : Prop :=
  ∀ s : State, CanCall s →
    let tx := [encW s.cfg.reg.command, s.cfg.cmd.softReset]
    (∀ rx, nextAnswer s tx = .reply rx → rx.length = 2 →
      exec .softReset s = .next { asked s tx with
        events := s.events ++ [.exchange tx (.reply rx), .sleep 50]
        phase := .opened
        outcomes := s.outcomes ++ [.returned .unit] }) ∧
    (∀ r, exchangeEnd tx (nextAnswer s tx) = .error r →
      exec .softReset s = .next (exchanged tx (fun _ => .unit) s))

/-- `init` (rule R222): soft reset, the six configuration writes in order, the antenna, and `Ready`. -/
def Obligations.InitChip : Prop :=
  ∀ (s : State) (e f : Noise) (v : Byte), CanCall s → s.phase ≠ .ready → Given (initTalk s.cfg e f v) s →
    exec .init s = .next { (initTalk s.cfg e f v).endState (fun _ => .unit) s with phase := .ready }

/-! ## Pure helpers, the detection cycle, and the rows below the host calls -/

/-- `isTrailerBlock` (rule R198): total, no exchange, no handle or phase required. -/
def Obligations.IsTrailerBlock : Prop :=
  ∀ (s : State) (b : Nat), s.busy = false →
    exec (.isTrailerBlock b) s =
      .next { s with outcomes := s.outcomes ++ [.returned (.bool (decide (b % 4 = 3)))] }

/-- `ensure16Bytes` (rule R199): exactly sixteen bytes, idempotent, no exchange, no handle or phase required. -/
def Obligations.EnsureSixteenBytes : Prop :=
  (∀ (s : State) (xs : List Byte), s.busy = false →
    exec (.ensure16Bytes xs) s = .next { s with
      outcomes := s.outcomes ++
        [.returned (.bytes (xs.take 16 ++ List.replicate (16 - min 16 xs.length) 0x00))] }) ∧
  ∀ xs : List Byte, (sixteenBytes xs).length = 16 ∧ sixteenBytes (sixteenBytes xs) = sixteenBytes xs ∧
    (xs.length = 16 → sixteenBytes xs = xs)

/-- `detectCard` (rule R202): the three stages in order; no ATQA or no UID is no card, no SAK still is one. -/
def Obligations.DetectCard : Prop :=
  ∀ (s : State) (r1 : Reception) (e : Noise) (coll : Byte) (r2 : Reception) (x : CrcRun) (r3 : Reception), CanCard s →
    r1.Ok s.cfg → r2.Ok s.cfg → x.Ok s.cfg → r3.Ok s.cfg →
    let c := s.cfg
    let d : Dialogue Value := (transceiveTalk c [c.card.reqa] 7 80 r1).andThen fun a => match atqaOf a.data with
      | none => .says [] .absent
      | some atqa => (anticollTalk c e coll r2).andThen fun u => match uidOf u.data with
        | none => .says [] .absent
        | some uid =>
          (crcFrameTalk c ([c.card.selCl1, c.card.nvbSelect] ++ uidBytes uid ++ [bcc (uidBytes uid)]) 80 x r3).andThen
            fun k => .says [] (.card { atqa := atqa, uid := uid, sak := sakOf k.data })
    Given d s → exec .detectCard s = .next (d.endState id s)

/-- The card frames (rule R92): each frame goes through the transceive engine with its valid-bits count and its
operation's timeout. That the rows run as instructions of their own, busy or not and in every phase, is the model's choice
(log entry 6). -/
def Obligations.CardFrames : Prop :=
  ∀ (s : State) (u0 u1 u2 u3 blk lo hi : Byte) (r : Reception), isOpen s.handle = true → r.Ok s.cfg →
    let b := s.cfg.card
    ∀ row ∈ [(Instr.piccReqa, [b.reqa], (7 : Byte), 80), (.piccAnticoll, [b.selCl1, b.nvbAnticoll], 0, 80),
        (.piccSelect [u0, u1, u2, u3] lo hi,
          [b.selCl1, b.nvbSelect, u0, u1, u2, u3, u0 ^^^ u1 ^^^ u2 ^^^ u3, lo, hi], 0, 80),
        (.mfRead blk lo hi, [b.read, blk, lo, hi], 0, 250), (.mfWrite blk lo hi, [b.write, blk, lo, hi], 0, 250)],
      Given (transceiveTalk s.cfg row.2.1 row.2.2.1 row.2.2.2 r) s →
      exec row.1 s = .next ((transceiveTalk s.cfg row.2.1 row.2.2.1 row.2.2.2 r).endState .transceived s)

/-- The MFAuthent input (rules R92, R183): twelve bytes through the authentication. That the row runs as an instruction of
its own, busy or not and in every phase, is the model's choice (log entry 6). -/
def Obligations.MfAuthInput : Prop :=
  ∀ (s : State) (blk : Byte) (key uid : List Byte) (x : AuthRun), isOpen s.handle = true → key.length = 6 →
    uid.length = 4 → x.Ok s.cfg →
    let d := authTalk s.cfg ([s.cfg.card.authKeyA, blk] ++ key ++ uid) x
    Given d s → exec (.mfAuthKeyA blk key uid) s = .next (d.endState (fun _ => .unit) s)

/-- The ACK test (rule R194): both permitted encodings, whatever the high nibble and the later bytes; the ACK row passes
it, where the ACK code has four bits. That the row runs the test, and its word, are the model's choice (log entries 6 and
11). -/
def Obligations.AckTest : Prop :=
  (∀ (c : Cfg) (r : TransceiveResult), isAck c r = true ↔
    (∃ b rest, r.data = b :: rest ∧ b &&& 0x0F = c.card.ack) ∧ (r.validBits = 4 ∨ r.validBits = 0)) ∧
  ∀ (s : State) (high : BitVec 4) (fourBits : Bool), s.cfg.card.ack.toNat < 16 →
    exec (.mfAck high fourBits) s = .next { s with outcomes := s.outcomes ++ [.returned (.bool true)] }

/-! ## The whole machine -/

/-- Every load of the FIFO comes at once after an answered flush (rules R134, R301), whatever the environment answers.
Raw register writes of the host are excepted. -/
def Obligations.LoadsFlushed : Prop :=
  ∀ (i : Instr) (s t : State), s.cfg = Cfg.default → isRaw i = false → exec i s = .next t →
    loadsFlushed Cfg.default false (newEvents s t) = true

/-- The settle delay follows every answered reset write at once (rules R221, R300). Raw register writes are excepted, and
the bare command row, which is the write alone. -/
def Obligations.SettleKept : Prop :=
  ∀ (i : Instr) (s t : State), s.cfg = Cfg.default → isRaw i = false → i ≠ .cmdSoftReset → exec i s = .next t →
    settleKept Cfg.default (newEvents s t) = true

/-- Every write is one of rule R45's table; the timer, modulation and antenna registers are written by `init` and its
step `antennaOn` only (rule R225). Raw register writes are excepted. -/
def Obligations.WritesListed : Prop :=
  ∀ (i : Instr) (s t : State), isRaw i = false → exec i s = .next t → ∀ e ∈ newEvents s t,
    listedWrite s.cfg e = true ∧
    (i ≠ .init → i ≠ .antennaOn → ∀ a, writtenReg e = some a → a ∈ coreWrites s.cfg)

/-- The payload goes to the FIFO only after the phase-1 ACK (rules R193, R194, R196): the loads of a block write are, as
far as it comes, the command, the command with its CRC, the payload, the payload with its CRC; before the third, and
after the second, an ACK was drained from the FIFO and its valid bits read; a missing first ACK leaves it at two loads,
and it returns only after all four and a second ACK. -/
def Obligations.PayloadOnlyAfterAck : Prop :=
  ∀ (s t : State) (blk : Nat) (payload : List Byte), s.cfg = Cfg.default →
    exec (.mifareWriteBlock blk payload) s = .next t →
    let f : List Byte := [0xA0, BitVec.ofNat 8 blk]
    let d := sixteenBytes payload
    let es := newEvents s t
    let loads := loadsOf Cfg.default es
    (∃ c1 c2 : List Byte, loads <+: [f, f ++ c1, d, d ++ c2]) ∧
    (∀ (before : List Event) (third : Event) (later : List Event), es = before ++ third :: later →
      loadOf Cfg.default third ≠ none → (loadsOf Cfg.default before).length = 2 →
      ∃ (first : List Event) (second : Event) (answer : List Event), before = first ++ second :: answer ∧
        (loadsOf Cfg.default first).length = 1 ∧ loadOf Cfg.default second ≠ none ∧ AckRead Cfg.default answer) ∧
    (∀ data vb, t.outcomes = s.outcomes ++ [.raised (.writeNotAcked 1 data vb)] → loads.length = 2) ∧
    (t.outcomes = s.outcomes ++ [.returned .unit] → loads.length = 4 ∧
      ∃ (first : List Event) (fourth : Event) (answer : List Event), es = first ++ fourth :: answer ∧
        (loadsOf Cfg.default first).length = 3 ∧ loadOf Cfg.default fourth ≠ none ∧ AckRead Cfg.default answer)

/-- A CRC timeout sends no further frame (rules R137, R253): `CRCIRq` was clear in the recorded value, the last command
written is CalcCRC, so no frame follows; the operation has issued no Transceive if its CRC is of its first frame, one at most in
a block write, whose first phase sends one, and two in `detectCard`, whose first two frames have no CRC. -/
def Obligations.CrcTimeoutSendsNoFrame : Prop :=
  ∀ (i : Instr) (s t : State) (v : Byte), s.cfg = Cfg.default → exec i s = .next t →
    t.outcomes = s.outcomes ++ [.raised (.crcTimeout v)] →
    v &&& 0x04 = 0 ∧ lastWritten 0x01 (newEvents s t) = some 0x03 ∧
    (((∃ buffer, i = .calcCrc buffer) ∨ (∃ uid, i = .selectCL1 uid) ∨ (∃ blk, i = .mifareReadBlock blk)) →
      timesWritten 0x01 0x0C (newEvents s t) = 0) ∧
    ((∃ blk payload, i = .mifareWriteBlock blk payload) → timesWritten 0x01 0x0C (newEvents s t) ≤ 1) ∧
    (i = .detectCard → timesWritten 0x01 0x0C (newEvents s t) = 2)

/-- Success of `mifareAuthKeyA` is the crypto bit, not the interrupt outcome (rule R184): it returns only after a read of
`Status2Reg` with the bit set, and a read with the bit clear is `AuthFailed`, whatever the poll read. -/
def Obligations.AuthSuccessIsCryptoBit : Prop :=
  ∀ (s t : State) (blk : Nat) (key uid : List Byte), s.cfg = Cfg.default →
    exec (.mifareAuthKeyA blk key uid) s = .next t →
    (t.outcomes = s.outcomes ++ [.returned .unit] →
      ∃ es e v, t.events = s.events ++ es ++ [gave 0x08 e v] ∧ v &&& 0x08 ≠ 0) ∧
    (∀ es e v, t.events = s.events ++ es ++ [gave 0x08 e v] → v &&& 0x08 = 0 →
      ∃ irq, t.outcomes = s.outcomes ++ [.raised (.authFailed v irq)])

/-- What each exit of `transceive` leaves last written (rule R156): the Transceive command, and the start bit cleared
after a completion or `TransceiveError`, set after a timer or deadline exit. After a transport error at an exchange, what
the exchanges before it have written: nothing, Idle or Transceive, and no start bit, one clear in the first framing write,
set by the second, cleared again on completion, so that it is set where the poll or the clearing fails. -/
def Obligations.TransceiveLeftovers : Prop :=
  ∀ (s t : State) (frame : List Byte) (vb : Byte) (ms : Nat), s.cfg = Cfg.default →
    exec (.transceive frame vb ms) s = .next t →
    let es := newEvents s t
    let start := (lastWritten 0x0D es).map (fun v => v &&& 0x80)
    (∀ r, t.outcomes = s.outcomes ++ [.returned (.transceived r)] →
      lastWritten 0x01 es = some 0x0C ∧ start = some (if r.note = .noNote then 0x00 else 0x80)) ∧
    (∀ err irq, t.outcomes = s.outcomes ++ [.raised (.transceiveError err irq)] →
      lastWritten 0x01 es = some 0x0C ∧ start = some 0x00) ∧
    (∀ r, t.outcomes = s.outcomes ++ [.raised (.transportError r)] →
      ∃ (done : List Event) (b : Byte) (rest : List Byte) (a : ExchangeAnswer),
        es = done ++ [.exchange (b :: rest) a] ∧ exchangeEnd (b :: rest) a = .error r ∧
        lastWritten 0x01 es = (if done.length = 0 then none else if done.length ≤ 5 then some 0x00 else some 0x0C) ∧
        start = (if done.length ≤ 4 then none else if done.length ≤ 7 then some 0x00
          else if b = 0x88 ∨ b = 0x9A ∨ b = 0x1A then some 0x80 else some 0x00))

/-- Without `RxIRq` in any poll read the result is empty data with a note and never an error (rule R154), unless the
transport fails; the value it records and takes the note from is the last one read (rule R154). -/
def Obligations.NoReceiveIsEmpty : Prop :=
  ∀ (s t : State) (frame : List Byte) (vb : Byte) (ms : Nat), s.cfg = Cfg.default → CanCall s → vb.toNat ≤ 7 →
    1 ≤ frame.length → frame.length ≤ 64 → exec (.transceive frame vb ms) s = .next t →
    (∀ e ∈ newEvents s t, failureOf e = none) → (∀ e v, gave 0x04 e v ∈ newEvents s t → v &&& 0x20 = 0) →
    ∃ irq, (readValues 0x04 (newEvents s t)).getLast? = some irq ∧ t.outcomes = s.outcomes ++ [.returned (.transceived
      { data := [], validBits := 0, errReg := none, irqReg := irq
        note := if irq &&& 0x01 ≠ 0 then .timerIRq else .timeout })]

/-- The host's write policy (rules R238, R239, R240): what it allows, the verified flag, and the reference cycle asked to
write block 0 or a trailer block: it loads no write command, whether it ends with a result or with the error or refusal of
a call, and a result is nothing found or not allowed. The cycle as a function beside the machine, its end at an error and
the result of a write that is not allowed are the model's choice (log entry 23). -/
def Obligations.WritePolicy : Prop :=
  (∀ b : Nat, writeAllowed b = true ↔ b ≠ 0 ∧ b % 4 ≠ 3) ∧
  (∀ payload readBack : List Byte, verifiedFlag payload readBack = true ↔ readBack = sixteenBytes payload) ∧
  ∀ (inp : CycleInput) (s t : State), s.cfg = Cfg.default → inp.action = .write → writeAllowed inp.blk = false →
    (∀ r, referenceCycle inp s = .ok r t → r = .nothing ∨ r = .writeNotAllowed) ∧
    ((∃ r, referenceCycle inp s = .ok r t) ∨ (∃ e, referenceCycle inp s = .error e t) →
      ∀ load ∈ loadsOf Cfg.default (newEvents s t), load.head? ≠ some 0xA0)

/-- The reference chip computes CRC_A (rules R39, R41): under the default configuration, with `init`'s preset and `MSBFirst` clear it answers the exchanges
of `calcCrc` with `CRCIRq` set and the CRC_A of the buffer, low byte first, whatever it did before. The reference chip is
an environment, its free choices in log entry 9. -/
def Obligations.ReferenceChipCrc : Prop :=
  (∀ (chip : RefChip) (buffer : List Byte), chip.cfg = Cfg.default → chip.regs.length = 64 → chipReg chip 0x11 &&& 0x83 = 0x01 →
    buffer.length ≤ 64 →
    ∃ (pre : List ExchangeAnswer) (v lo hi : Byte), pre.length = 5 ∧ v &&& 0x04 ≠ 0 ∧ crcA buffer = [lo, hi] ∧
      chipServeAll chip [[0x02, 0x00], [0x0A, 0x04], [0x14, 0x80], 0x12 :: buffer, [0x02, 0x03], [0x8A, 0x00],
          [0xC4, 0x00], [0xC2, 0x00]] =
        some (pre ++ [.reply [0, v], .reply [0, lo], .reply [0, hi]])) ∧
  crcA [0x30, 0x08] = [0x4A, 0x24] ∧ crcA [0x93, 0x70, 0xDE, 0xAD, 0xBE, 0xEF, 0x22] = [0xB9, 0x9C]

/-- A write to an interrupt register with bit 7 clear clears exactly the bits written as 1 (rule R46): 0x7F clears all
seven of `ComIrqReg`, 0x04 only `CRCIRq`. -/
def Obligations.InterruptClear : Prop :=
  (∀ (old v : Byte), v.getLsbD 7 = false → ∀ k, k < 8 →
    (irqWrite old v).getLsbD k = (old.getLsbD k && !v.getLsbD k)) ∧
  (∀ old : Byte, irqWrite old 0x7F &&& 0x7F = 0) ∧
  ∀ old : Byte, irqWrite old 0x04 = old &&& ~~~0x04
end

