-- ==== Sys2Proof/Laws/Chip.lean ====
section
/-! SUPPORT. The small lemmas of the reference chip: reading a register after the chip or a write has changed one. -/

namespace Sys2Proof.Machine

@[simp] theorem setChipReg_cfg (c : RefChip) (a : RegAddr) (v : Byte) : (setChipReg c a v).cfg = c.cfg := rfl

@[simp] theorem setChipReg_fifo (c : RefChip) (a : RegAddr) (v : Byte) : (setChipReg c a v).fifo = c.fifo := rfl

@[simp] theorem setChipReg_draws (c : RefChip) (a : RegAddr) (v : Byte) : (setChipReg c a v).draws = c.draws := rfl

@[simp] theorem setChipReg_length (c : RefChip) (a : RegAddr) (v : Byte) :
    (setChipReg c a v).regs.length = c.regs.length := by simp [setChipReg]

@[simp] theorem chipReg_setChipReg_same (c : RefChip) (a : RegAddr) (v : Byte) (h : c.regs.length = 64) :
    chipReg (setChipReg c a v) a = v := by
  have ha : a.toNat < c.regs.length := by rw [h]; exact a.isLt
  simp [chipReg, setChipReg, ha]

theorem chipReg_setChipReg_ne (c : RefChip) (a b : RegAddr) (v : Byte) (h : a ≠ b) :
    chipReg (setChipReg c a v) b = chipReg c b := by
  have hn : a.toNat ≠ b.toNat := fun e => h (BitVec.eq_of_toNat_eq e)
  simp [chipReg, setChipReg, hn]

/-- A register depends on the register list alone. -/
theorem chipReg_congr {c d : RefChip} (h : c.regs = d.regs) (a : RegAddr) : chipReg c a = chipReg d a := by
  simp [chipReg, h]

@[simp] theorem holdBits_length (c : RefChip) (a : RegAddr) (v : Byte) :
    (holdBits c a v).regs.length = c.regs.length := by simp [holdBits]

/-- A host write changes no bit whose access does not hold it (rule R28). -/
theorem holdBits_keeps (c : RefChip) (a : RegAddr) (v : Byte) (h : c.regs.length = 64) :
    chipReg (holdBits c a v) a &&& ~~~bitsAt c.cfg.reg accessStores a =
      chipReg c a &&& ~~~bitsAt c.cfg.reg accessStores a := by
  rw [holdBits, chipReg_setChipReg_same _ _ _ h]
  ext k hk
  simp
  cases (v[k]) <;> cases ((bitsAt c.cfg.reg accessStores a)[k]) <;> simp

@[simp] theorem putCrc_length (c : RefChip) (crc : BitVec 16) : (putCrc c crc).regs.length = c.regs.length := by
  simp [putCrc]

@[simp] theorem holdBits_cfg (c : RefChip) (a : RegAddr) (v : Byte) : (holdBits c a v).cfg = c.cfg := rfl

@[simp] theorem putCrc_cfg (c : RefChip) (crc : BitVec 16) : (putCrc c crc).cfg = c.cfg := rfl

@[simp] theorem endCommand_cfg (c : RefChip) : (endCommand c).cfg = c.cfg := rfl

@[simp] theorem putCrc_fifo (c : RefChip) (crc : BitVec 16) : (putCrc c crc).fifo = c.fifo := rfl

@[simp] theorem endCommand_length (c : RefChip) : (endCommand c).regs.length = c.regs.length := by simp [endCommand]

@[simp] theorem endCommand_fifo (c : RefChip) : (endCommand c).fifo = c.fifo := rfl

end Sys2Proof.Machine
end

