-- ==== Sys2Proof/Laws/State.lean ====
section
/-! SUPPORT. One lemma per field per named update of the state, each true by definition. -/

namespace Sys2Proof.Machine

/-! ## `markRefused` -/

@[simp] theorem markRefused_cfg (s : State) : (markRefused s).cfg = s.cfg := rfl
@[simp] theorem markRefused_handle (s : State) : (markRefused s).handle = s.handle := rfl
@[simp] theorem markRefused_phase (s : State) : (markRefused s).phase = s.phase := rfl
@[simp] theorem markRefused_busy (s : State) : (markRefused s).busy = s.busy := rfl
@[simp] theorem markRefused_refused (s : State) : (markRefused s).refused = true := rfl
@[simp] theorem markRefused_events (s : State) : (markRefused s).events = s.events := rfl
@[simp] theorem markRefused_outcomes (s : State) : (markRefused s).outcomes = s.outcomes := rfl
@[simp] theorem markRefused_calls (s : State) : (markRefused s).calls = s.calls := rfl
@[simp] theorem markRefused_answers (s : State) : (markRefused s).answers = s.answers := rfl
@[simp] theorem markRefused_links (s : State) : (markRefused s).links = s.links := rfl
@[simp] theorem markRefused_expiries (s : State) : (markRefused s).expiries = s.expiries := rfl
@[simp] theorem markRefused_draws (s : State) : (markRefused s).draws = s.draws := rfl

/-! ## `leaveOperation` -/

@[simp] theorem leaveOperation_cfg (s : State) : (leaveOperation s).cfg = s.cfg := rfl
@[simp] theorem leaveOperation_handle (s : State) : (leaveOperation s).handle = s.handle := rfl
@[simp] theorem leaveOperation_phase (s : State) : (leaveOperation s).phase = s.phase := rfl
@[simp] theorem leaveOperation_busy (s : State) : (leaveOperation s).busy = false := rfl
@[simp] theorem leaveOperation_refused (s : State) : (leaveOperation s).refused = s.refused := rfl
@[simp] theorem leaveOperation_events (s : State) : (leaveOperation s).events = s.events := rfl
@[simp] theorem leaveOperation_outcomes (s : State) : (leaveOperation s).outcomes = s.outcomes := rfl
@[simp] theorem leaveOperation_calls (s : State) : (leaveOperation s).calls = s.calls := rfl
@[simp] theorem leaveOperation_answers (s : State) : (leaveOperation s).answers = s.answers := rfl
@[simp] theorem leaveOperation_links (s : State) : (leaveOperation s).links = s.links := rfl
@[simp] theorem leaveOperation_expiries (s : State) : (leaveOperation s).expiries = s.expiries := rfl
@[simp] theorem leaveOperation_draws (s : State) : (leaveOperation s).draws = s.draws := rfl

/-! ## `enterError` -/

@[simp] theorem enterError_cfg (e : Error) (s : State) : (enterError e s).cfg = s.cfg := rfl
@[simp] theorem enterError_handle (e : Error) (s : State) : (enterError e s).handle = s.handle := rfl
@[simp] theorem enterError_phase (e : Error) (s : State) : (enterError e s).phase = if isTransport e && isOpen s.handle then .opened else s.phase := rfl
@[simp] theorem enterError_busy (e : Error) (s : State) : (enterError e s).busy = false := rfl
@[simp] theorem enterError_refused (e : Error) (s : State) : (enterError e s).refused = s.refused := rfl
@[simp] theorem enterError_events (e : Error) (s : State) : (enterError e s).events = s.events := rfl
@[simp] theorem enterError_outcomes (e : Error) (s : State) : (enterError e s).outcomes = s.outcomes := rfl
@[simp] theorem enterError_calls (e : Error) (s : State) : (enterError e s).calls = s.calls := rfl
@[simp] theorem enterError_answers (e : Error) (s : State) : (enterError e s).answers = s.answers := rfl
@[simp] theorem enterError_links (e : Error) (s : State) : (enterError e s).links = s.links := rfl
@[simp] theorem enterError_expiries (e : Error) (s : State) : (enterError e s).expiries = s.expiries := rfl
@[simp] theorem enterError_draws (e : Error) (s : State) : (enterError e s).draws = s.draws := rfl

/-! ## `report` -/

@[simp] theorem report_cfg (o : CallOutcome) (s : State) : (report o s).cfg = s.cfg := rfl
@[simp] theorem report_handle (o : CallOutcome) (s : State) : (report o s).handle = s.handle := rfl
@[simp] theorem report_phase (o : CallOutcome) (s : State) : (report o s).phase = s.phase := rfl
@[simp] theorem report_busy (o : CallOutcome) (s : State) : (report o s).busy = s.busy := rfl
@[simp] theorem report_refused (o : CallOutcome) (s : State) : (report o s).refused = s.refused := rfl
@[simp] theorem report_events (o : CallOutcome) (s : State) : (report o s).events = s.events := rfl
@[simp] theorem report_outcomes (o : CallOutcome) (s : State) : (report o s).outcomes = s.outcomes ++ [o] := rfl
@[simp] theorem report_calls (o : CallOutcome) (s : State) : (report o s).calls = s.calls := rfl
@[simp] theorem report_answers (o : CallOutcome) (s : State) : (report o s).answers = s.answers := rfl
@[simp] theorem report_links (o : CallOutcome) (s : State) : (report o s).links = s.links := rfl
@[simp] theorem report_expiries (o : CallOutcome) (s : State) : (report o s).expiries = s.expiries := rfl
@[simp] theorem report_draws (o : CallOutcome) (s : State) : (report o s).draws = s.draws := rfl

/-! ## `putCall` -/

@[simp] theorem putCall_cfg (c : Call) (s : State) : (putCall c s).cfg = s.cfg := rfl
@[simp] theorem putCall_handle (c : Call) (s : State) : (putCall c s).handle = s.handle := rfl
@[simp] theorem putCall_phase (c : Call) (s : State) : (putCall c s).phase = s.phase := rfl
@[simp] theorem putCall_busy (c : Call) (s : State) : (putCall c s).busy = s.busy := rfl
@[simp] theorem putCall_refused (c : Call) (s : State) : (putCall c s).refused = s.refused := rfl
@[simp] theorem putCall_events (c : Call) (s : State) : (putCall c s).events = s.events := rfl
@[simp] theorem putCall_outcomes (c : Call) (s : State) : (putCall c s).outcomes = s.outcomes := rfl
@[simp] theorem putCall_calls (c : Call) (s : State) : (putCall c s).calls = c :: s.calls := rfl
@[simp] theorem putCall_answers (c : Call) (s : State) : (putCall c s).answers = s.answers := rfl
@[simp] theorem putCall_links (c : Call) (s : State) : (putCall c s).links = s.links := rfl
@[simp] theorem putCall_expiries (c : Call) (s : State) : (putCall c s).expiries = s.expiries := rfl
@[simp] theorem putCall_draws (c : Call) (s : State) : (putCall c s).draws = s.draws := rfl

/-! ## `beginCall` -/

@[simp] theorem beginCall_cfg (c : Call) (rest : List Call) (s : State) : (beginCall c rest s).cfg = s.cfg := rfl
@[simp] theorem beginCall_handle (c : Call) (rest : List Call) (s : State) : (beginCall c rest s).handle = s.handle := rfl
@[simp] theorem beginCall_phase (c : Call) (rest : List Call) (s : State) : (beginCall c rest s).phase = s.phase := rfl
@[simp] theorem beginCall_busy (c : Call) (rest : List Call) (s : State) : (beginCall c rest s).busy = (s.busy || c.overlaps) := rfl
@[simp] theorem beginCall_refused (c : Call) (rest : List Call) (s : State) : (beginCall c rest s).refused = s.refused := rfl
@[simp] theorem beginCall_events (c : Call) (rest : List Call) (s : State) : (beginCall c rest s).events = s.events := rfl
@[simp] theorem beginCall_outcomes (c : Call) (rest : List Call) (s : State) : (beginCall c rest s).outcomes = s.outcomes := rfl
@[simp] theorem beginCall_calls (c : Call) (rest : List Call) (s : State) : (beginCall c rest s).calls = rest := rfl
@[simp] theorem beginCall_answers (c : Call) (rest : List Call) (s : State) : (beginCall c rest s).answers = s.answers := rfl
@[simp] theorem beginCall_links (c : Call) (rest : List Call) (s : State) : (beginCall c rest s).links = s.links := rfl
@[simp] theorem beginCall_expiries (c : Call) (rest : List Call) (s : State) : (beginCall c rest s).expiries = s.expiries := rfl
@[simp] theorem beginCall_draws (c : Call) (rest : List Call) (s : State) : (beginCall c rest s).draws = s.draws := rfl

/-! ## `endCall` -/

@[simp] theorem endCall_cfg (c : Call) (s t : State) : (endCall c s t).cfg = t.cfg := by
  unfold endCall; split <;> rfl
@[simp] theorem endCall_handle (c : Call) (s t : State) : (endCall c s t).handle = t.handle := by
  unfold endCall; split <;> rfl
@[simp] theorem endCall_phase (c : Call) (s t : State) : (endCall c s t).phase = t.phase := by
  unfold endCall; split <;> rfl
@[simp] theorem endCall_busy (c : Call) (s t : State) : (endCall c s t).busy = if c.overlaps then s.busy else t.busy := by
  unfold endCall; split <;> rfl
@[simp] theorem endCall_refused (c : Call) (s t : State) : (endCall c s t).refused = t.refused := by
  unfold endCall; split <;> rfl
@[simp] theorem endCall_events (c : Call) (s t : State) : (endCall c s t).events = t.events := by
  unfold endCall; split <;> rfl
@[simp] theorem endCall_outcomes (c : Call) (s t : State) : (endCall c s t).outcomes = t.outcomes := by
  unfold endCall; split <;> rfl
@[simp] theorem endCall_calls (c : Call) (s t : State) : (endCall c s t).calls = t.calls := by
  unfold endCall; split <;> rfl
@[simp] theorem endCall_answers (c : Call) (s t : State) : (endCall c s t).answers = t.answers := by
  unfold endCall; split <;> rfl
@[simp] theorem endCall_links (c : Call) (s t : State) : (endCall c s t).links = t.links := by
  unfold endCall; split <;> rfl
@[simp] theorem endCall_expiries (c : Call) (s t : State) : (endCall c s t).expiries = t.expiries := by
  unfold endCall; split <;> rfl
@[simp] theorem endCall_draws (c : Call) (s t : State) : (endCall c s t).draws = t.draws := by
  unfold endCall; split <;> rfl

end Sys2Proof.Machine
end

