-- ==== Sys2Proof/Laws/Ops.lean ====
section
/-! SUPPORT. What the shared operations can do, said once: how programs compose, one exact lemma per operation of the
register interface, and the frame `Stays` that every operation above it keeps. -/

namespace Sys2Proof.Machine

/-! ## Programs -/

@[simp] theorem op_bind {α β : Type} (x : Op α) (f : α → Op β) (s : State) :
    (x >>= f) s = match x s with
      | .ok a t => f a t
      | .error e t => .error e t := by
  cases h : x s <;> simp [bind, EStateM.bind, h]

@[simp] theorem op_pure {α : Type} (a : α) (s : State) : (pure a : Op α) s = .ok a s := rfl

@[simp] theorem refuse_apply {α : Type} (r : RefusalReason) (s : State) :
    (refuse r : Op α) s = .error (.refuse r) s := rfl

@[simp] theorem raise_apply {α : Type} (e : Error) (s : State) : (raise e : Op α) s = .error (.raise e) s := rfl

@[simp] theorem getCfg_apply (s : State) : getCfg s = .ok s.cfg s := rfl

@[simp] theorem record_apply (e : Event) (s : State) :
    record e s = .ok () { s with events := s.events ++ [e] } := rfl

@[simp] theorem sleep_apply (ms : Nat) (s : State) :
    sleep ms s = .ok () { s with events := s.events ++ [.sleep ms] } := rfl

@[simp] theorem setPhase_apply (p : Phase) (s : State) : setPhase p s = .ok () { s with phase := p } := rfl

@[simp] theorem require_true (r : RefusalReason) (s : State) : require true r s = .ok () s := rfl

@[simp] theorem require_false (r : RefusalReason) (s : State) : require false r s = .error (.refuse r) s := rfl

/-- A precondition goes on unchanged or refuses unchanged. -/
theorem require_apply (c : Bool) (r : RefusalReason) (s : State) :
    require c r s = if c then .ok () s else .error (.refuse r) s := by cases c <;> rfl

theorem requireOpen_open {s : State} (h : isOpen s.handle = true) : requireOpen s = .ok () s := by
  simp [requireOpen, h]

theorem requireOpen_closed {s : State} (h : isOpen s.handle = false) :
    requireOpen s = .error (.refuse .notOpen) s := by simp [requireOpen, h]

theorem requireReady_ready {s : State} (h : s.phase = .ready) : requireReady s = .ok () s := by
  simp [requireReady, h]

theorem requireReady_other {s : State} (h : s.phase ≠ .ready) :
    requireReady s = .error (.refuse .notInitialised) s := by simp [requireReady, h]

theorem isOpen_opened (bus dev hz : Nat) : isOpen (.opened bus dev hz) = true := rfl

theorem isOpen_false {h : Handle} : isOpen h = false ↔ h = .closed := by cases h <;> simp [isOpen]

/-! ## Questions -/

theorem drawExchange_apply (tx : List Byte) (s : State) :
    drawExchange tx s = .ok (nextAnswer s tx) { s with answers := s.answers.tail, draws := s.draws + 1 } := by
  unfold drawExchange nextAnswer
  split <;> rename_i h <;> simp [h]

theorem drawLink_apply (s : State) :
    drawLink s = .ok (s.links.headD (Config.freeLink s.draws)) { s with links := s.links.tail, draws := s.draws + 1 } := by
  unfold drawLink
  split <;> rename_i h <;> simp [h]

theorem drawExpiry_apply (s : State) :
    drawExpiry s =
      .ok (s.expiries.headD (Config.freeExpiry s.draws)) { s with expiries := s.expiries.tail, draws := s.draws + 1 } := by
  unfold drawExpiry
  split <;> rename_i h <;> simp [h]

/-! ## The register interface -/

/-- Everything an exchange on an open handle does (rule R110). -/
theorem exchange_open {s : State} (tx : List Byte) (h : isOpen s.handle = true) :
    exchange tx s = match exchangeEnd tx (nextAnswer s tx) with
      | .ok rx => .ok rx (asked s tx)
      | .error r => .error (.raise (.transportError r)) (asked s tx) := by
  simp only [exchange, op_bind, requireOpen_open h, drawExchange_apply, record_apply]
  cases hx : nextAnswer s tx with
  | fail r => simp [exchangeEnd, asked, hx]
  | reply rx =>
    by_cases hl : rx.length = tx.length <;> simp [exchangeEnd, asked, hx, hl]

/-- An exchange on a closed handle is refused (rule R119). -/
theorem exchange_closed {s : State} (tx : List Byte) (h : isOpen s.handle = false) :
    exchange tx s = .error (.refuse .notOpen) s := by
  simp [exchange, requireOpen_closed h]

/-- An exchange that gets the reply it is given. -/
theorem exchange_reply {s : State} {tx rx : List Byte} {rest : List ExchangeAnswer} (h : isOpen s.handle = true)
    (ha : s.answers = .reply rx :: rest) (hl : rx.length = tx.length) :
    exchange tx s = .ok rx
      { s with events := s.events ++ [.exchange tx (.reply rx)], answers := rest, draws := s.draws + 1 } := by
  simp [exchange_open tx h, nextAnswer, ha, exchangeEnd, hl, asked]

theorem readRegister_reply {s : State} {a : RegAddr} {e v : Byte} {rest : List ExchangeAnswer}
    (h : isOpen s.handle = true) (ha : s.answers = .reply [e, v] :: rest) :
    readRegister a s = .ok v
      { s with events := s.events ++ [.exchange (txRead a) (.reply [e, v])], answers := rest, draws := s.draws + 1 } := by
  simp [readRegister, exchange_reply h ha (tx := txRead a) rfl]

theorem writeRegister_reply {s : State} {a : RegAddr} {v : Byte} {rx : List Byte} {rest : List ExchangeAnswer}
    (h : isOpen s.handle = true) (ha : s.answers = .reply rx :: rest) (hl : rx.length = 2) :
    writeRegister a v s = .ok ()
      { s with events := s.events ++ [.exchange (txWrite a v) (.reply rx)], answers := rest, draws := s.draws + 1 } := by
  simp [writeRegister, exchange_reply h ha (tx := txWrite a v) (by simp [txWrite, hl])]

theorem writeRegisterBurst_reply {s : State} {a : RegAddr} {bs rx : List Byte} {rest : List ExchangeAnswer}
    (h : isOpen s.handle = true) (ha : s.answers = .reply rx :: rest) (hl : rx.length = bs.length + 1) :
    writeRegisterBurst a bs s = .ok ()
      { s with events := s.events ++ [.exchange (txBurst a bs) (.reply rx)], answers := rest, draws := s.draws + 1 } := by
  simp [writeRegisterBurst, exchange_reply h ha (tx := txBurst a bs) (by simp [txBurst, hl])]

/-! ## Addresses -/

theorem addrReg_encW (a : RegAddr) : addrReg (encW a) = a := by
  revert a; decide

theorem addrReg_encR (a : RegAddr) : addrReg (encR a) = a := by
  revert a; decide

theorem addrIsRead_encW (a : RegAddr) : addrIsRead (encW a) = false := by
  revert a; decide

theorem addrIsRead_encR (a : RegAddr) : addrIsRead (encR a) = true := by
  revert a; decide

theorem addrReserved_encW (a : RegAddr) : addrReserved (encW a) = false := by
  revert a; decide

theorem addrReserved_encR (a : RegAddr) : addrReserved (encR a) = false := by
  revert a; decide

@[simp] theorem txOk_txRead (a : RegAddr) : txOk (txRead a) = true := by
  simp [txOk, txRead, addrReserved_encR]

@[simp] theorem txOk_txWrite (a : RegAddr) (v : Byte) : txOk (txWrite a v) = true := by
  simp [txOk, txWrite, addrReserved_encW, addrIsRead_encW]

@[simp] theorem txOk_txBurst (a : RegAddr) (bs : List Byte) : txOk (txBurst a bs) = true := by
  simp [txOk, txBurst, addrReserved_encW, addrIsRead_encW]

@[simp] theorem writtenReg_txRead (a : RegAddr) (x : ExchangeAnswer) :
    writtenReg (.exchange (txRead a) x) = none := by
  simp [writtenReg, txRead, addrIsRead_encR]

@[simp] theorem writtenReg_txWrite (a : RegAddr) (v : Byte) (x : ExchangeAnswer) :
    writtenReg (.exchange (txWrite a v) x) = some a := by
  simp [writtenReg, txWrite, addrIsRead_encW, addrReg_encW]

/-- A burst writes its register, if it has a data byte at all. -/
theorem writtenReg_txBurst (a : RegAddr) (bs : List Byte) (x : ExchangeAnswer) {b : RegAddr}
    (h : writtenReg (.exchange (txBurst a bs) x) = some b) : b = a := by
  cases bs <;> simp_all [writtenReg, txBurst, addrIsRead_encW, addrReg_encW]

/-! ## The frame of an operation

`Stays P x`: whatever the program `x` does from `s`, it leaves everything but the history and the environment's
answers as it was, and every event it adds satisfies `P`. -/

/-- From `s` to `t` only events satisfying `P` were added and answers drawn. -/
structure Grown (P : Cfg → Event → Prop) (s t : State) : Prop where
  cfg : t.cfg = s.cfg
  handle : t.handle = s.handle
  phase : t.phase = s.phase
  busy : t.busy = s.busy
  refused : t.refused = s.refused
  outcomes : t.outcomes = s.outcomes
  calls : t.calls = s.calls
  links : t.links = s.links
  draws : s.draws ≤ t.draws
  events : ∃ es, t.events = s.events ++ es ∧ ∀ e ∈ es, P s.cfg e

theorem Grown.refl {P : Cfg → Event → Prop} (s : State) : Grown P s s :=
  ⟨rfl, rfl, rfl, rfl, rfl, rfl, rfl, rfl, le_rfl, [], by simp⟩

theorem Grown.trans {P : Cfg → Event → Prop} {s t u : State} (h : Grown P s t) (k : Grown P t u) : Grown P s u := by
  obtain ⟨es, he, hp⟩ := h.events
  obtain ⟨fs, hf, hq⟩ := k.events
  refine ⟨k.cfg.trans h.cfg, k.handle.trans h.handle, k.phase.trans h.phase, k.busy.trans h.busy,
    k.refused.trans h.refused, k.outcomes.trans h.outcomes, k.calls.trans h.calls, k.links.trans h.links,
    h.draws.trans k.draws, es ++ fs, by rw [hf, he, List.append_assoc], ?_⟩
  intro e hm
  rcases List.mem_append.1 hm with hm | hm
  · exact hp e hm
  · exact h.cfg ▸ hq e hm

/-- The state a program reaches. -/
def reached {α : Type} : EStateM.Result Stop State α → State
  | .ok _ t => t
  | .error _ t => t

/-- The frame of a program. -/
def Stays {α : Type} (P : Cfg → Event → Prop) (x : Op α) : Prop := ∀ s, Grown P s (reached (x s))

variable {α β : Type} {P : Cfg → Event → Prop}

theorem stays_pure (a : α) : Stays P (pure a : Op α) := fun s => Grown.refl s

theorem stays_refuse (r : RefusalReason) : Stays P (refuse r : Op α) := fun s => Grown.refl s

theorem stays_raise (e : Error) : Stays P (raise e : Op α) := fun s => Grown.refl s

theorem stays_getCfg : Stays P getCfg := fun s => Grown.refl s

theorem stays_bind {x : Op α} {f : α → Op β} (hx : Stays P x) (hf : ∀ a, Stays P (f a)) : Stays P (x >>= f) := by
  intro s
  have h := hx s
  simp only [op_bind]
  cases hr : x s with
  | ok a t => rw [hr] at h; exact h.trans (hf a t)
  | error e t => rw [hr] at h; exact h

theorem stays_require (c : Bool) (r : RefusalReason) : Stays P (require c r) := by
  intro s; cases c <;> exact Grown.refl s

theorem stays_requireOpen : Stays P requireOpen := fun s => stays_require _ _ s

theorem stays_requireReady : Stays P requireReady := fun s => stays_require _ _ s

theorem stays_uidOperand (uid : List Byte) : Stays P (uidOperand uid) := fun s => stays_require _ _ s

theorem stays_registerOperand (a : Byte) : Stays P (registerOperand a) := by
  unfold registerOperand; split
  · exact stays_pure _
  · exact stays_refuse _

theorem stays_blockOperand (blk : Nat) : Stays P (blockOperand blk) := by
  unfold blockOperand; split
  · exact stays_pure _
  · exact stays_refuse _

theorem stays_record {e : Event} (h : ∀ c, P c e) : Stays P (record e) := by
  intro s
  exact ⟨rfl, rfl, rfl, rfl, rfl, rfl, rfl, rfl, le_rfl, [e], rfl, by simpa using h s.cfg⟩

theorem stays_drawExpiry : Stays P drawExpiry := by
  intro s
  rw [drawExpiry_apply]
  exact ⟨rfl, rfl, rfl, rfl, rfl, rfl, rfl, rfl, Nat.le_succ _, [], by simp [reached], by simp⟩

/-- An exchange adds its own event and nothing else (rules R110, R119). -/
theorem grown_exchange {s : State} {tx : List Byte} (h : ∀ x, P s.cfg (.exchange tx x)) :
    Grown P s (reached (exchange tx s)) := by
  have hg : Grown P s (asked s tx) :=
    ⟨rfl, rfl, rfl, rfl, rfl, rfl, rfl, rfl, Nat.le_succ _, [.exchange tx (nextAnswer s tx)], rfl, by simpa using h _⟩
  cases ho : isOpen s.handle with
  | false => rw [exchange_closed tx ho]; exact Grown.refl s
  | true =>
    rw [exchange_open tx ho]
    split <;> exact hg

theorem grown_bind {x : Op α} {f : α → Op β} {s : State} (hx : Grown P s (reached (x s)))
    (hf : ∀ a t, x s = .ok a t → Grown P t (reached (f a t))) : Grown P s (reached ((x >>= f) s)) := by
  simp only [op_bind]
  cases hr : x s with
  | ok a t => rw [hr] at hx; exact hx.trans (hf a t hr)
  | error e t => rw [hr] at hx; exact hx

theorem stays_exchange {tx : List Byte} (h : ∀ c x, P c (.exchange tx x)) : Stays P (exchange tx) :=
  fun s => grown_exchange (h s.cfg)

/-- The frame of a program whose events depend on the configuration: it holds from every state whose configuration is
`c`. Under `getCfg >>= f` the parameter is the configuration of the state. -/
def StaysAt (P : Cfg → Event → Prop) (c : Cfg) (x : Op α) : Prop := ∀ s, s.cfg = c → Grown P s (reached (x s))

theorem Stays.at {x : Op α} (h : Stays P x) (c : Cfg) : StaysAt P c x := fun s _ => h s

theorem stays_of_at {f : Cfg → Op α} (h : ∀ c, StaysAt P c (f c)) : Stays P (getCfg >>= f) := fun s => h s.cfg s rfl

theorem staysAt_getCfg {f : Cfg → Op α} {c : Cfg} (h : StaysAt P c (f c)) : StaysAt P c (getCfg >>= f) := by
  intro s hs
  have := h s hs
  simpa [hs] using this

theorem staysAt_bind {c : Cfg} {x : Op α} {f : α → Op β} (hx : StaysAt P c x) (hf : ∀ a, StaysAt P c (f a)) :
    StaysAt P c (x >>= f) := by
  intro s hs
  refine grown_bind (hx s hs) fun a t hr => hf a t ?_
  have := (hx s hs).cfg
  rw [hr] at this
  exact this.trans hs

theorem staysAt_pure {c : Cfg} (a : α) : StaysAt P c (pure a : Op α) := (stays_pure a).at c

theorem staysAt_raise {c : Cfg} (e : Error) : StaysAt P c (raise e : Op α) := (stays_raise e).at c

theorem staysAt_exchange {c : Cfg} {tx : List Byte} (h : ∀ x, P c (.exchange tx x)) : StaysAt P c (exchange tx) :=
  fun _ hs => grown_exchange (by rw [hs]; exact h)

theorem staysAt_readRegister {c : Cfg} {a : RegAddr} (h : ∀ x, P c (.exchange (txRead a) x)) :
    StaysAt P c (readRegister a) := staysAt_bind (staysAt_exchange h) fun _ => staysAt_pure _

theorem staysAt_writeRegister {c : Cfg} {a : RegAddr} {v : Byte} (h : ∀ x, P c (.exchange (txWrite a v) x)) :
    StaysAt P c (writeRegister a v) := staysAt_bind (staysAt_exchange h) fun _ => staysAt_pure _

theorem staysAt_writeRegisterBurst {c : Cfg} {a : RegAddr} {bs : List Byte}
    (h : ∀ x, P c (.exchange (txBurst a bs) x)) : StaysAt P c (writeRegisterBurst a bs) :=
  staysAt_bind (staysAt_exchange h) fun _ => staysAt_pure _

theorem staysAt_setBits {c : Cfg} {a : RegAddr} {m : Byte} (hr : ∀ x, P c (.exchange (txRead a) x))
    (hw : ∀ v x, P c (.exchange (txWrite a v) x)) : StaysAt P c (setBits a m) :=
  staysAt_bind (staysAt_readRegister hr) fun _ => staysAt_writeRegister (hw _)

theorem staysAt_clearBits {c : Cfg} {a : RegAddr} {m : Byte} (hr : ∀ x, P c (.exchange (txRead a) x))
    (hw : ∀ v x, P c (.exchange (txWrite a v) x)) : StaysAt P c (clearBits a m) :=
  staysAt_bind (staysAt_readRegister hr) fun _ => staysAt_writeRegister (hw _)

/-- The poll loop adds reads of its register and deadline answers only (rule R116). -/
theorem staysAt_pollLoop {c : Cfg} {a : RegAddr} {m : Byte} (hr : ∀ x, P c (.exchange (txRead a) x))
    (he : ∀ c b, P c (.expired b)) (k : Nat) : StaysAt P c (pollLoop a m k) := by
  induction k with
  | zero =>
    refine staysAt_bind (staysAt_readRegister hr) fun v => ?_
    split
    · exact staysAt_pure _
    · exact staysAt_bind ((stays_record fun c => he c _).at c) fun _ => staysAt_pure _
  | succ k ih =>
    refine staysAt_bind (staysAt_readRegister hr) fun v => ?_
    split
    · exact staysAt_pure _
    · exact staysAt_bind ((stays_record fun c => he c _).at c) fun _ => ih

theorem staysAt_pollUntil {c : Cfg} {a : RegAddr} {m : Byte} {ms : Nat} (hr : ∀ x, P c (.exchange (txRead a) x))
    (he : ∀ c b, P c (.expired b)) (hd : ∀ c, P c (.deadlineStart ms)) : StaysAt P c (pollUntil a m ms) :=
  staysAt_bind ((stays_record hd).at c) fun _ => staysAt_bind (stays_drawExpiry.at c) fun k => staysAt_pollLoop hr he k

/-! ## Ends of a call -/

/-- Everything a host call can end in (rules R23, R250, R255, R262). -/
theorem hostCall_cases (op : Op α) (value : α → Value) (s : State) :
    (s.busy = true ∧ hostCall op value s = report (.refused .concurrentCall) (markRefused s)) ∨
    (s.busy = false ∧ ∃ a t, op { s with busy := true } = .ok a t ∧
      hostCall op value s = report (.returned (value a)) (leaveOperation t)) ∨
    (s.busy = false ∧ ∃ e t, op { s with busy := true } = .error (.raise e) t ∧
      hostCall op value s = report (.raised e) (enterError e t)) ∨
    (s.busy = false ∧ ∃ r t, op { s with busy := true } = .error (.refuse r) t ∧
      hostCall op value s = report (.refused r) (leaveOperation (markRefused t))) := by
  cases hb : s.busy with
  | true => exact .inl ⟨rfl, by simp [hostCall, asHostCall, hb, concluded]⟩
  | false =>
    refine .inr ?_
    cases hr : op { s with busy := true } with
    | ok a t => exact .inl ⟨rfl, a, t, rfl, by simp [hostCall, asHostCall, hb, hr, concluded]⟩
    | error e t => cases e with
      | raise e => exact .inr (.inl ⟨rfl, e, t, rfl, by simp [hostCall, asHostCall, hb, hr, concluded]⟩)
      | refuse r => exact .inr (.inr ⟨rfl, r, t, rfl, by simp [hostCall, asHostCall, hb, hr, concluded]⟩)

/-- Everything an inner step can end in (rules R23, R250, R255, R262). -/
theorem innerStep_cases (op : Op α) (value : α → Value) (s : State) :
    (∃ a t, op s = .ok a t ∧ innerStep op value s = report (.returned (value a)) t) ∨
    (∃ e t, op s = .error (.raise e) t ∧ innerStep op value s = report (.raised e) (enterError e t)) ∨
    (∃ r t, op s = .error (.refuse r) t ∧ innerStep op value s = report (.refused r) (markRefused t)) := by
  simp only [innerStep, asStep]
  cases hr : op s with
  | ok a t => exact .inl ⟨a, t, rfl, rfl⟩
  | error e t => cases e with
    | raise e => exact .inr (.inl ⟨e, t, rfl, rfl⟩)
    | refuse r => exact .inr (.inr ⟨r, t, rfl, rfl⟩)

end Sys2Proof.Machine
end

