-- ==== Sys2Proof/Laws/Dialogues.lean ====
section
/-! SUPPORT. Every operation above the register interface goes as its dialogue says when the environment answers so:
`Plays`. A caller cites the lemma of its callee. -/

namespace Sys2Proof.Machine

variable {α β : Type}

/-! ## Lists of answers -/

@[simp] theorem answersOf_nil : answersOf [] = [] := rfl
@[simp] theorem answersOf_exchange (tx : List Byte) (a : ExchangeAnswer) (es : List Event) :
    answersOf (.exchange tx a :: es) = a :: answersOf es := rfl
@[simp] theorem answersOf_sleep (ms : Nat) (es : List Event) : answersOf (.sleep ms :: es) = answersOf es := rfl
@[simp] theorem answersOf_deadlineStart (ms : Nat) (es : List Event) :
    answersOf (.deadlineStart ms :: es) = answersOf es := rfl
@[simp] theorem answersOf_expired (b : Bool) (es : List Event) : answersOf (.expired b :: es) = answersOf es := rfl

@[simp] theorem answersOf_append (es fs : List Event) : answersOf (es ++ fs) = answersOf es ++ answersOf fs := by
  induction es with
  | nil => rfl
  | cons e es ih => cases e <;> simp [answersOf, ih]

@[simp] theorem answersOf_gave (a : RegAddr) (e v : Byte) (es : List Event) :
    answersOf (gave a e v :: es) = .reply [e, v] :: answersOf es := rfl

@[simp] theorem answersOf_wrote (e : Noise) (k : Nat) (tx : List Byte) (es : List Event) :
    answersOf (wrote e k tx :: es) = .reply ((List.range tx.length).map (e k)) :: answersOf es := rfl

/-! ## Programs and dialogues -/

/-- How a program ends when it goes as the dialogue says. -/
def Dialogue.run (d : Dialogue α) (s : State) : EStateM.Result Stop State α :=
  match d.result with
  | .ok a => .ok a (d.heard s)
  | .error e => .error (.raise e) (d.heard s)

/-- Under a configuration, from every state with an open handle where the environment answers as the dialogue says, the
program goes as the dialogue says. -/
def Plays (c : Cfg) (op : Op α) (d : Dialogue α) : Prop :=
  ∀ s, s.cfg = c → isOpen s.handle = true → Given d s → op s = d.run s

@[simp] theorem heard_cfg (d : Dialogue α) (s : State) : (d.heard s).cfg = s.cfg := rfl
@[simp] theorem heard_handle (d : Dialogue α) (s : State) : (d.heard s).handle = s.handle := rfl
@[simp] theorem heard_phase (d : Dialogue α) (s : State) : (d.heard s).phase = s.phase := rfl
@[simp] theorem heard_busy (d : Dialogue α) (s : State) : (d.heard s).busy = s.busy := rfl
@[simp] theorem heard_outcomes (d : Dialogue α) (s : State) : (d.heard s).outcomes = s.outcomes := rfl

/-- A dialogue of events alone. -/
@[simp] theorem andThen_says (es : List Event) (a : α) (f : α → Dialogue β) :
    (Dialogue.says es a).andThen f = ⟨es ++ (f a).events, (f a).expiries, (f a).result⟩ := by
  simp [Dialogue.andThen, Dialogue.says]

/-- Two answer lists, one after the other, at the front of a third. -/
theorem prefix_split {γ : Type} {xs ys zs : List γ} (h : xs ++ ys <+: zs) :
    xs <+: zs ∧ ys <+: zs.drop xs.length := by
  obtain ⟨r, rfl⟩ := h
  exact ⟨⟨ys ++ r, by simp⟩, ⟨r, by simp⟩⟩

theorem plays_pure (c : Cfg) (a : α) : Plays c (pure a) (.says [] a) := by
  intro s _ _ _
  simp [Dialogue.run, Dialogue.says, Dialogue.heard]

theorem plays_raise (c : Cfg) (e : Error) : Plays c (raise e : Op α) (.fails [] e) := by
  intro s _ _ _
  simp [Dialogue.run, Dialogue.fails, Dialogue.heard]

/-- A program and then another go as the two dialogues one after the other say. -/
theorem plays_bind {c : Cfg} {x : Op α} {f : α → Op β} {d : Dialogue α} {g : α → Dialogue β} (hx : Plays c x d)
    (hf : ∀ a, d.result = .ok a → Plays c (f a) (g a)) : Plays c (x >>= f) (d.andThen g) := by
  intro s hc ho hg
  rw [op_bind]
  cases hr : d.result with
  | error e =>
    have hd : d.andThen g = ⟨d.events, d.expiries, .error e⟩ := by simp [Dialogue.andThen, hr]
    rw [hd] at hg ⊢
    rw [hx s hc ho hg]
    simp [Dialogue.run, hr, Dialogue.heard]
  | ok a =>
    have hd : d.andThen g = ⟨d.events ++ (g a).events, d.expiries ++ (g a).expiries, (g a).result⟩ := by
      simp [Dialogue.andThen, hr]
    rw [hd] at hg ⊢
    obtain ⟨h1, h2⟩ := hg
    rw [answersOf_append] at h1
    obtain ⟨h1, h1'⟩ := prefix_split h1
    obtain ⟨h2, h2'⟩ := prefix_split h2
    rw [hx s hc ho ⟨h1, h2⟩]
    simp only [Dialogue.run, hr]
    rw [hf a hr (d.heard s) hc ho ⟨h1', h2'⟩]
    cases hg : (g a).result <;>
      simp [Dialogue.run, hg, Dialogue.heard, List.append_assoc, List.drop_drop] <;> omega

theorem plays_getCfg {c : Cfg} {f : Cfg → Op α} {d : Dialogue α} (h : Plays c (f c) d) :
    Plays c (getCfg >>= f) d := by
  intro s hc ho hg
  simpa [hc] using h s hc ho hg

/-- A program that goes as the first events of a dialogue say, and then the rest. -/
theorem plays_next {c : Cfg} {x : Op α} {f : α → Op β} {es : List Event} {a : α} {d : Dialogue β}
    (hx : Plays c x (.says es a)) (hf : Plays c (f a) ⟨d.events.drop es.length, d.expiries, d.result⟩)
    (hd : d.events = es ++ d.events.drop es.length := by rfl) : Plays c (x >>= f) d := by
  have h := plays_bind (g := fun _ => ⟨d.events.drop es.length, d.expiries, d.result⟩) hx (fun b hb => by
    obtain rfl : a = b := by simpa [Dialogue.says] using hb
    exact hf)
  rw [andThen_says, ← hd] at h
  exact h

theorem plays_require {c : Cfg} {b : Bool} {r : RefusalReason} {f : Unit → Op α} {d : Dialogue α} (hb : b = true)
    (h : Plays c (f ()) d) : Plays c (require b r >>= f) d := by
  subst hb
  exact h

/-! ## The register interface -/

theorem head_of_prefix {γ : Type} {a : γ} {as zs : List γ} (h : a :: as <+: zs) : zs = a :: zs.tail := by
  obtain ⟨r, rfl⟩ := h
  rfl

theorem plays_exchange (c : Cfg) {tx rx : List Byte} (hl : rx.length = tx.length) :
    Plays c (exchange tx) (.says [.exchange tx (.reply rx)] rx) := by
  intro s _ ho hg
  rw [exchange_reply ho (head_of_prefix hg.1) hl]
  simp [Dialogue.run, Dialogue.says, Dialogue.heard]

/-- An answered read (rule R111). -/
theorem plays_readRegister (c : Cfg) (a : RegAddr) (e v : Byte) :
    Plays c (readRegister a) (.says [gave a e v] v) :=
  plays_next (plays_exchange c (tx := txRead a) (rx := [e, v]) rfl) (plays_pure c v)

/-- An answered write (rule R112). -/
theorem plays_writeRegister (c : Cfg) (a : RegAddr) (v : Byte) (e : Noise) (k : Nat) :
    Plays c (writeRegister a v) (.says [wrote e k [encW a, v]] ()) :=
  plays_next (plays_exchange c (tx := txWrite a v) (rx := (List.range 2).map (e k)) (by simp [txWrite]))
    (plays_pure c ())

/-- An answered burst (rule R113). -/
theorem plays_writeRegisterBurst (c : Cfg) (a : RegAddr) (bs : List Byte) (e : Noise) (k : Nat) :
    Plays c (writeRegisterBurst a bs) (.says [wrote e k (encW a :: bs)] ()) :=
  plays_next (plays_exchange c (tx := txBurst a bs) (rx := (List.range (txBurst a bs).length).map (e k)) (by simp))
    (plays_pure c ())

theorem plays_record (c : Cfg) (ev : Event) (h : answersOf [ev] = []) : Plays c (record ev) (.says [ev] ()) := by
  intro s _ _ _
  simp [Dialogue.run, Dialogue.says, Dialogue.heard, h]

theorem plays_setBits (c : Cfg) (a : RegAddr) (m : Byte) (e : Noise) (v : Byte) :
    Plays c (setBits a m) (changeTalk a (fun v => v ||| m) e v) :=
  plays_next (plays_readRegister c a (e 0 0) v) (plays_writeRegister c a (withBits v m) e 1)

theorem plays_clearBits (c : Cfg) (a : RegAddr) (m : Byte) (e : Noise) (v : Byte) :
    Plays c (clearBits a m) (changeTalk a (fun v => v &&& ~~~m) e v) :=
  plays_next (plays_readRegister c a (e 0 0) v) (plays_writeRegister c a (withoutBits v m) e 1)

/-! ## The poll (rule R116) -/

theorem anySet_false {v m : Byte} : anySet v m = false ↔ v &&& m = 0 := by simp [anySet]
theorem anySet_true {v m : Byte} : anySet v m = true ↔ v &&& m ≠ 0 := by simp [anySet]

/-- The dialogue of a poll after its start. -/
def loopTalk (a : RegAddr) (stop echo last : Byte) (quiet : List (Byte × Byte)) : Dialogue (Byte × PollEnd) :=
  .says (quiet.flatMap (fun q => [gave a q.1 q.2, .expired false]) ++
      gave a echo last :: (if last &&& stop = 0 then [.expired true] else []))
    (last, if last &&& stop = 0 then .deadline else .bit)

/-- A read with a stop bit ends the poll. -/
theorem plays_stop (c : Cfg) (a : RegAddr) {stop last : Byte} (echo : Byte) (f : Byte → Op (Byte × PollEnd))
    (h : last &&& stop ≠ 0) :
    Plays c (readRegister a >>= fun v => if anySet v stop = true then pure (v, .bit) else f v)
      (loopTalk a stop echo last []) := by
  have ht : loopTalk a stop echo last [] = .says [gave a echo last] (last, .bit) := by
    simp only [loopTalk, if_neg h]; rfl
  rw [ht]
  refine plays_next (plays_readRegister c a echo last) ?_
  rw [if_pos (anySet_true.2 h)]
  exact plays_pure c _

theorem plays_pollLoop (c : Cfg) (a : RegAddr) (stop echo last : Byte) (quiet : List (Byte × Byte)) (k : Nat)
    (hq : ∀ q ∈ quiet, q.2 &&& stop = 0) (hd : last &&& stop = 0 → quiet.length = k) (hk : quiet.length ≤ k) :
    Plays c (pollLoop a stop k) (loopTalk a stop echo last quiet) := by
  induction k generalizing quiet with
  | zero =>
    obtain rfl : quiet = [] := List.eq_nil_of_length_eq_zero (by omega)
    by_cases hs : last &&& stop = 0
    · have ht : loopTalk a stop echo last [] = .says [gave a echo last, .expired true] (last, .deadline) := by
        simp only [loopTalk, if_pos hs]; rfl
      rw [ht]
      refine plays_next (plays_readRegister c a echo last) ?_
      rw [if_neg (by simp [anySet_false.2 hs])]
      exact plays_next (plays_record c _ rfl) (plays_pure c _)
    · exact plays_stop c a echo _ hs
  | succ k ih =>
    cases quiet with
    | nil =>
      have hs : last &&& stop ≠ 0 := fun hs => by simpa using hd hs
      exact plays_stop c a echo _ hs
    | cons q quiet =>
      have hq0 : q.2 &&& stop = 0 := hq q (by simp)
      refine plays_next (plays_readRegister c a q.1 q.2) ?_
      rw [if_neg (by simp [anySet_false.2 hq0])]
      exact plays_next (plays_record c _ rfl) (ih quiet (fun q hm => hq q (by simp [hm]))
        (fun hs => by simpa using hd hs) (by simpa using hk))

theorem plays_pollUntil (c : Cfg) (a : RegAddr) (stop : Byte) (ms : Nat) (p : Poll) (h : p.Ok stop) :
    Plays c (pollUntil a stop ms) (pollTalk a stop ms p) := by
  intro s hc ho hg
  obtain ⟨h1, h2⟩ := hg
  have he := head_of_prefix h2
  simp only [pollUntil, op_bind, record_apply, drawExpiry_apply]
  have hl := plays_pollLoop c a stop p.echo p.last p.quiet p.expiry h.1 h.2.1 h.2.2
    { s with events := s.events ++ [.deadlineStart ms], expiries := s.expiries.tail, draws := s.draws + 1 } hc ho
    ⟨h1, List.nil_prefix⟩
  rw [he]
  simp only [List.headD_cons, List.tail_cons]
  rw [hl]
  have hd : (pollTalk a stop ms p).heard s =
      (loopTalk a stop p.echo p.last p.quiet).heard
        { s with events := s.events ++ [.deadlineStart ms], expiries := s.expiries.tail, draws := s.draws + 1 } := by
    simp [Dialogue.heard, pollTalk, loopTalk, Dialogue.says]
    omega
  show (Dialogue.says _ _).run _ = (pollTalk a stop ms p).run s
  simp only [Dialogue.run, hd]
  rfl

/-! ## FIFO and CRC -/

theorem plays_flushFifo (c : Cfg) (e : Noise) (k : Nat) :
    Plays c flushFifo (.says [wrote e k [encW c.reg.fifoLevel, c.mask.flushBuffer]] ()) :=
  plays_getCfg (plays_writeRegister c _ _ e k)

theorem plays_fifoLevel (c : Cfg) (e v : Byte) :
    Plays c fifoLevel (.says [gave c.reg.fifoLevel e v] (v &&& c.mask.fifoLevel).toNat) :=
  plays_getCfg (plays_next (plays_readRegister c c.reg.fifoLevel e v) (plays_pure c _))

theorem plays_readFifoBytes (c : Cfg) (reads : List (Byte × Byte)) :
    Plays c (readFifoBytes reads.length) (fifoTalk c reads) := by
  induction reads with
  | nil => exact plays_pure c []
  | cons q rest ih =>
    refine plays_getCfg (plays_next (plays_readRegister c c.reg.fifoData q.1 q.2) ?_)
    refine plays_next ih ?_ (by simp [fifoTalk, Dialogue.says])
    have hd : (rest.map fun q => gave c.reg.fifoData q.1 q.2).drop rest.length = [] := by simp
    simpa [fifoTalk, Dialogue.says, hd] using plays_pure c (q.2 :: rest.map Prod.snd)

theorem plays_calcCrc (c : Cfg) (buffer : List Byte) (x : CrcRun) (hl : buffer.length ≤ 64) (hx : x.Ok c) :
    Plays c (calcCrc buffer) (crcTalk c buffer x) := by
  refine plays_require (decide_eq_true hl) (plays_getCfg ?_)
  refine plays_next (plays_writeRegister c c.reg.command c.cmd.idle x.noise 0) ?_
  refine plays_next (plays_writeRegister c c.reg.divIrq c.mask.crcIRq x.noise 1) ?_
  refine plays_next (plays_flushFifo c x.noise 2) ?_
  refine plays_next (plays_writeRegisterBurst c c.reg.fifoData buffer x.noise 3) ?_
  refine plays_next (plays_writeRegister c c.reg.command c.cmd.calcCrc x.noise 4) ?_
  refine plays_bind (plays_pollUntil c _ _ _ _ hx) fun p _ => ?_
  obtain ⟨v, why⟩ := p
  cases why with
  | deadline => exact plays_raise c _
  | bit =>
    exact plays_next (plays_readRegister c c.reg.crcResultL (x.noise 5 0) x.lo)
      (plays_next (plays_readRegister c c.reg.crcResultH (x.noise 6 0) x.hi) (plays_pure c [x.lo, x.hi]))

/-- What a CRC run answers has two bytes. -/
theorem crcTalk_result {c : Cfg} {buffer crc : List Byte} {x : CrcRun} (h : (crcTalk c buffer x).result = .ok crc) :
    crc = [x.lo, x.hi] := by
  by_cases hs : x.poll.last &&& c.mask.crcIRq = 0#8
  · simp [crcTalk, Dialogue.andThen, Dialogue.says, Dialogue.fails, pollTalk, hs] at h
  · simp only [crcTalk, Dialogue.andThen, Dialogue.says, pollTalk] at h
    simpa [hs, eq_comm] using h

/-! ## Transceive -/

theorem transceiveExit_eq (c : Cfg) (irq : Byte) :
    transceiveExit c irq =
      if irq &&& c.mask.rxIRq ≠ 0 ∧ (c.rxBeforeTimer = true ∨ irq &&& c.mask.timerIRq = 0) then .completion
      else if irq &&& c.mask.timerIRq ≠ 0 then .timer else .timeout := by
  cases hb : c.rxBeforeTimer <;> by_cases h1 : irq &&& c.mask.rxIRq = 0#8 <;>
    by_cases h2 : irq &&& c.mask.timerIRq = 0#8 <;> simp [transceiveExit, anySet_true, hb, h1, h2]

theorem plays_completion (c : Cfg) (r : Reception) (hr : r.reads.length = (r.level &&& c.mask.fifoLevel).toNat) :
    Plays c (transceiveCompletion r.poll.last) (completionTalk c r) := by
  refine plays_getCfg ?_
  refine plays_next (plays_clearBits c c.reg.bitFraming c.mask.startSend (fun k => r.noise (k + 8)) r.framing2) ?_
  refine plays_next (plays_readRegister c c.reg.error (r.noise 10 0) r.err) ?_
  by_cases he : r.err &&& c.mask.errTransceive = 0
  · have ht : completionTalk c r = .says
        ([gave c.reg.bitFraming (r.noise 8 0) r.framing2,
          wrote r.noise 9 [encW c.reg.bitFraming, r.framing2 &&& ~~~c.mask.startSend],
          gave c.reg.error (r.noise 10 0) r.err, gave c.reg.fifoLevel (r.noise 11 0) r.level] ++
          (r.reads.map (fun q => gave c.reg.fifoData q.1 q.2) ++ [gave c.reg.control (r.noise 12 0) r.control]))
        { data := r.reads.map Prod.snd, validBits := r.control &&& c.mask.rxLastBits, errReg := some r.err
          irqReg := r.poll.last, note := .noNote } := by
      simp only [completionTalk, andThen_says, if_neg (not_not.2 he)]; rfl
    rw [ht, if_neg (by simp [anySet_false.2 he])]
    refine plays_next (plays_fifoLevel c (r.noise 11 0) r.level) ?_
    have hfifo := plays_readFifoBytes c r.reads
    rw [hr] at hfifo
    have h := plays_bind hfifo (f := fun data => readRegister c.reg.control >>= fun rl =>
        pure ({ data := data, validBits := rl &&& c.mask.rxLastBits, errReg := some r.err, irqReg := r.poll.last
                note := .noNote } : TransceiveResult))
      (g := fun data => .says [gave c.reg.control (r.noise 12 0) r.control]
        { data := data, validBits := r.control &&& c.mask.rxLastBits, errReg := some r.err, irqReg := r.poll.last
          note := .noNote })
      fun data _ => plays_next (plays_readRegister c c.reg.control (r.noise 12 0) r.control) (plays_pure c _)
    rw [fifoTalk, andThen_says] at h
    exact h
  · have ht : completionTalk c r = .fails
        [gave c.reg.bitFraming (r.noise 8 0) r.framing2,
          wrote r.noise 9 [encW c.reg.bitFraming, r.framing2 &&& ~~~c.mask.startSend],
          gave c.reg.error (r.noise 10 0) r.err] (.transceiveError r.err r.poll.last) := by
      simp only [completionTalk, andThen_says, if_pos he]; rfl
    rw [ht, if_pos (anySet_true.2 he)]
    exact plays_raise c _

theorem plays_preamble (c : Cfg) (frame : List Byte) (vb : Byte) (e : Noise) (framing : Byte) :
    Plays c (transceivePreamble frame vb) (.says
      [wrote e 0 [encW c.reg.command, c.cmd.idle], wrote e 1 [encW c.reg.comIrq, c.mask.comIrqClearAll],
       wrote e 2 [encW c.reg.fifoLevel, c.mask.flushBuffer], wrote e 3 (encW c.reg.fifoData :: frame),
       wrote e 4 [encW c.reg.bitFraming, vb], wrote e 5 [encW c.reg.command, c.cmd.transceive],
       gave c.reg.bitFraming (e 6 0) framing, wrote e 7 [encW c.reg.bitFraming, framing ||| c.mask.startSend]] ()) := by
  refine plays_getCfg ?_
  refine plays_next (plays_writeRegister c c.reg.command c.cmd.idle e 0) ?_
  refine plays_next (plays_writeRegister c c.reg.comIrq c.mask.comIrqClearAll e 1) ?_
  refine plays_next (plays_flushFifo c e 2) ?_
  refine plays_next (plays_writeRegisterBurst c c.reg.fifoData frame e 3) ?_
  refine plays_next (plays_writeRegister c c.reg.bitFraming vb e 4) ?_
  refine plays_next (plays_writeRegister c c.reg.command c.cmd.transceive e 5) ?_
  exact plays_setBits c c.reg.bitFraming c.mask.startSend (fun k => e (k + 6)) framing

theorem plays_transceive (c : Cfg) (frame : List Byte) (vb : Byte) (ms : Nat) (r : Reception) (hv : vb.toNat ≤ 7)
    (hl : 1 ≤ frame.length ∧ frame.length ≤ 64) (hr : r.Ok c) :
    Plays c (transceive frame vb ms) (transceiveTalk c frame vb ms r) := by
  refine plays_require (decide_eq_true hv) (plays_require (decide_eq_true hl) (plays_getCfg ?_))
  refine plays_next (plays_preamble c frame vb r.noise r.framing) ?_
  refine plays_bind (plays_pollUntil c _ _ _ _ hr.1) fun p hp => ?_
  obtain ⟨irq, why⟩ := p
  obtain rfl : r.poll.last = irq := by
    simp only [pollTalk, Except.ok.injEq, Prod.mk.injEq] at hp
    exact hp.1
  dsimp only
  rw [transceiveExit_eq]
  by_cases h1 : r.Completes c
  · rw [if_pos h1, if_pos h1]
    exact plays_completion c r hr.2
  · rw [if_neg h1, if_neg h1]
    by_cases h2 : r.poll.last &&& c.mask.timerIRq = 0
    · rw [if_neg (not_not.2 h2), if_neg (not_not.2 h2)]
      exact plays_pure c _
    · rw [if_pos h2, if_pos h2]
      exact plays_pure c _

/-! ## Card operations -/

theorem andThen_assoc {γ : Type} (d : Dialogue α) (f : α → Dialogue β) (g : β → Dialogue γ) :
    (d.andThen f).andThen g = d.andThen fun a => (f a).andThen g := by
  unfold Dialogue.andThen
  cases h1 : d.result with
  | error e => rfl
  | ok a => cases h2 : (f a).result <;> simp [h2]

/-- A CRC-protected frame and what follows its answer (rules R94, R137). -/
theorem plays_crcTransceive (c : Cfg) (body : List Byte) (ms : Nat) (x : CrcRun) (r : Reception)
    (hl : body.length ≤ 62) (hx : x.Ok c) (hr : r.Ok c) (f : TransceiveResult → Op α) (g : TransceiveResult → Dialogue α)
    (hf : ∀ res, Plays c (f res) (g res)) :
    Plays c (appendCrc body >>= fun frame => transceive frame 0 ms >>= f) ((crcFrameTalk c body ms x r).andThen g) := by
  have h : Plays c (calcCrc body >>= fun crc => transceive (body ++ crc) 0 ms >>= f)
      ((crcTalk c body x).andThen fun crc => (transceiveTalk c (body ++ crc) 0 ms r).andThen g) :=
    plays_bind (plays_calcCrc c body x (by omega) hx) fun crc hcrc => by
      obtain rfl := crcTalk_result hcrc
      exact plays_bind (plays_transceive c _ 0 ms r (by decide) (by simp; omega) hr) fun res _ => hf res
  rw [crcFrameTalk, andThen_assoc]
  intro s hc ho hg
  rw [← h s hc ho hg]
  simp only [appendCrc, op_bind, op_pure]
  cases calcCrc body s <;> rfl

theorem plays_requestA (c : Cfg) (r : Reception) (hr : r.Ok c) :
    Plays c requestA ((transceiveTalk c [c.card.reqa] 7 80 r).andThen fun res => .says [] (atqaOf res.data)) :=
  plays_getCfg (plays_bind (plays_transceive c _ 7 80 r (by decide) (by simp [reqaFrame]) hr) fun _ _ => plays_pure c _)

theorem plays_anticollCL1 (c : Cfg) (e : Noise) (coll : Byte) (r : Reception) (hr : r.Ok c) :
    Plays c anticollCL1 ((anticollTalk c e coll r).andThen fun res => .says [] (uidOf res.data)) := by
  refine plays_getCfg ?_
  rw [anticollTalk, andThen_assoc]
  exact plays_bind (plays_clearBits c _ _ e coll) fun _ _ =>
    plays_bind (plays_transceive c _ 0 80 r (by decide) (by simp [anticollFrame]) hr) fun _ _ => plays_pure c _

theorem plays_selectCL1 (c : Cfg) (uid : List Byte) (x : CrcRun) (r : Reception) (hu : uid.length = 4) (hx : x.Ok c)
    (hr : r.Ok c) : Plays c (selectCL1 uid)
      ((crcFrameTalk c ([c.card.selCl1, c.card.nvbSelect] ++ uid ++ [bcc uid]) 80 x r).andThen fun res =>
        .says [] (sakOf res.data)) :=
  plays_require (by simp [hu, Config.uidLen]) (plays_getCfg (plays_crcTransceive c
    ([c.card.selCl1, c.card.nvbSelect] ++ uid ++ [bcc uid]) 80 x r (by simp [hu]) hx hr _ _
    fun _ => plays_pure c _))

theorem plays_authenticate (c : Cfg) (input : List Byte) (x : AuthRun) (hx : x.Ok c) :
    Plays c (authenticate input) (authTalk c input x) := by
  refine plays_getCfg ?_
  refine plays_next (plays_writeRegister c c.reg.command c.cmd.idle x.noise 0) ?_
  refine plays_next (plays_writeRegister c c.reg.comIrq c.mask.comIrqClearAll x.noise 1) ?_
  refine plays_next (plays_flushFifo c x.noise 2) ?_
  refine plays_next (plays_writeRegisterBurst c c.reg.fifoData input x.noise 3) ?_
  refine plays_next (plays_writeRegister c c.reg.command c.cmd.mfAuthent x.noise 4) ?_
  refine plays_bind (plays_pollUntil c _ _ _ _ hx) fun p hp => ?_
  obtain ⟨irq, why⟩ := p
  obtain rfl : x.poll.last = irq := by
    simp only [pollTalk, Except.ok.injEq, Prod.mk.injEq] at hp
    exact hp.1
  rw [andThen_says]
  refine plays_next (plays_readRegister c c.reg.error (x.noise 5 0) x.err) ?_
  show Plays c _ (if x.err &&& c.mask.errAuth ≠ 0 then _ else _)
  by_cases h : x.err &&& c.mask.errAuth = 0
  · rw [if_neg (by simp [anySet_false.2 h]), if_neg (not_not.2 h), andThen_says]
    refine plays_next (plays_readRegister c c.reg.status2 (x.noise 6 0) x.status2) ?_
    show Plays c _ (if x.status2 &&& c.mask.mfCrypto1On ≠ 0 then _ else _)
    by_cases h : x.status2 &&& c.mask.mfCrypto1On = 0
    · rw [if_neg (by simp [anySet_false.2 h]), if_neg (not_not.2 h)]
      exact plays_raise c _
    · rw [if_pos (anySet_true.2 h), if_pos h]
      exact plays_pure c ()
  · rw [if_pos (anySet_true.2 h), if_pos h]
    exact plays_raise c _

theorem plays_writePhase (c : Cfg) (phase : Nat) (body : List Byte) (ms : Nat) (x : CrcRun) (r : Reception)
    (hl : body.length ≤ 62) (hx : x.Ok c) (hr : r.Ok c) :
    Plays c (writePhase phase body ms) (phaseTalk c phase body ms x r) := by
  refine plays_getCfg (plays_crcTransceive c body ms x r hl hx hr _ _ fun res => ?_)
  by_cases h : isAck c res = true
  · rw [if_pos h, if_pos h]; exact plays_pure c ()
  · rw [if_neg h, if_neg h]; exact plays_raise c _

theorem plays_antennaOn (c : Cfg) (e : Noise) (v : Byte) : Plays c antennaOn (antennaTalk c e v) := by
  refine plays_getCfg ?_
  refine plays_next (plays_readRegister c c.reg.txControl (e 0 0) v) ?_
  by_cases h : v &&& c.mask.antenna = c.mask.antenna
  · rw [if_pos (by simpa [allSet] using h)]
    simpa [antennaTalk, Dialogue.says, h] using plays_pure c ()
  · rw [if_neg (by simpa [allSet] using h)]
    simpa [antennaTalk, Dialogue.says, h, withBits] using
      plays_writeRegister c c.reg.txControl (v ||| c.mask.antenna) e 1

/-! ## Ends -/

/-- The errors of a dialogue are those of values, not of the transport. -/
def Dialogue.Answered (d : Dialogue α) : Prop := ∀ e, d.result = .error e → isTransport e = false

theorem answered_says (es : List Event) (a : α) : (Dialogue.says es a).Answered := by
  intro e h
  simp [Dialogue.says] at h

theorem answered_fails {e : Error} (es : List Event) (h : isTransport e = false) :
    (Dialogue.fails es e : Dialogue α).Answered := by
  intro e' h'
  obtain rfl : e = e' := by simpa [Dialogue.fails] using h'
  exact h

theorem answered_andThen {d : Dialogue α} {f : α → Dialogue β} (h : d.Answered) (hf : ∀ a, (f a).Answered) :
    (d.andThen f).Answered := by
  intro e he
  unfold Dialogue.andThen at he
  cases hr : d.result with
  | error e' =>
    simp only [hr, Except.error.injEq] at he
    exact he ▸ h e' hr
  | ok a =>
    simp only [hr] at he
    exact hf a e he

theorem answered_ite {p : Prop} [Decidable p] {d e : Dialogue α} (h : d.Answered) (k : e.Answered) :
    (if p then d else e).Answered := by split <;> assumption

theorem answered_pollTalk (a : RegAddr) (stop : Byte) (ms : Nat) (p : Poll) : (pollTalk a stop ms p).Answered := by
  intro e h
  simp [pollTalk] at h

theorem answered_crcTalk (c : Cfg) (buffer : List Byte) (x : CrcRun) : (crcTalk c buffer x).Answered := by
  refine answered_andThen (answered_says _ _) fun _ => answered_andThen (answered_pollTalk _ _ _ _) fun p => ?_
  obtain ⟨v, why⟩ := p
  cases why
  · exact answered_says _ _
  · exact answered_fails _ rfl

theorem answered_transceiveTalk (c : Cfg) (frame : List Byte) (vb : Byte) (ms : Nat) (r : Reception) :
    (transceiveTalk c frame vb ms r).Answered :=
  answered_andThen (answered_says _ _) fun _ => answered_andThen (answered_pollTalk _ _ _ _) fun _ =>
    answered_ite (answered_andThen (answered_says _ _) fun _ => answered_ite (answered_fails _ rfl) (answered_says _ _))
      (answered_says _ _)

theorem answered_crcFrameTalk (c : Cfg) (body : List Byte) (ms : Nat) (x : CrcRun) (r : Reception) :
    (crcFrameTalk c body ms x r).Answered :=
  answered_andThen (answered_crcTalk _ _ _) fun _ => answered_transceiveTalk _ _ _ _ _

theorem answered_authTalk (c : Cfg) (input : List Byte) (x : AuthRun) : (authTalk c input x).Answered :=
  answered_andThen (answered_says _ _) fun _ => answered_andThen (answered_pollTalk _ _ _ _) fun _ =>
    answered_andThen (answered_says _ _) fun _ => answered_ite (answered_fails _ rfl)
      (answered_andThen (answered_says _ _) fun _ => answered_ite (answered_says _ _) (answered_fails _ rfl))

theorem answered_anticollTalk (c : Cfg) (e : Noise) (coll : Byte) (r : Reception) :
    (anticollTalk c e coll r).Answered :=
  answered_andThen (answered_says _ _) fun _ => answered_transceiveTalk _ _ _ _ _

theorem answered_phaseTalk (c : Cfg) (phase : Nat) (body : List Byte) (ms : Nat) (x : CrcRun) (r : Reception) :
    (phaseTalk c phase body ms x r).Answered :=
  answered_andThen (answered_crcFrameTalk _ _ _ _ _) fun _ => answered_ite (answered_says _ _) (answered_fails _ rfl)

/-- A call of the host whose program goes as a dialogue says. -/
theorem hostCall_run {op : Op α} {d : Dialogue α} {s : State} (value : α → Value)
    (h : op { s with busy := true } = d.run { s with busy := true }) (hb : s.busy = false) (ha : d.Answered) :
    hostCall op value s = d.endState value s := by
  cases hr : d.result with
  | ok a => simp [hostCall, asHostCall, hb, h, Dialogue.run, hr, concluded, Dialogue.endState, Dialogue.heard,
      report, leaveOperation, endOutcome]
  | error e => simp [hostCall, asHostCall, hb, h, Dialogue.run, hr, concluded, Dialogue.endState, Dialogue.heard,
      report, enterError, endOutcome, ha e hr]

/-- A precondition that holds changes nothing. -/
theorem plays_onOpenHandle {c : Cfg} {op : Op α} {d : Dialogue α} (h : Plays c op d) : Plays c (onOpenHandle op) d := by
  intro s hc ho hg
  simp only [onOpenHandle, op_bind, requireOpen_open ho]
  exact h s hc ho hg

/-- A call of the host that goes as a dialogue says. -/
theorem hostCall_plays {op : Op α} {d : Dialogue α} {s : State} (value : α → Value) (h : Plays s.cfg op d)
    (hs : CanCall s) (hg : Given d s) (ha : d.Answered) : hostCall (onOpenHandle op) value s = d.endState value s :=
  hostCall_run value (plays_onOpenHandle h { s with busy := true } rfl hs.1 hg) hs.2 ha

/-- A card operation that goes as a dialogue says. -/
theorem cardCall_plays {op : Op α} {d : Dialogue α} {s : State} (value : α → Value) (h : Plays s.cfg op d)
    (hs : CanCard s) (hg : Given d s) (ha : d.Answered) : hostCall (whenReady op) value s = d.endState value s := by
  refine hostCall_run value ?_ hs.1.2 ha
  have ho : isOpen ({ s with busy := true } : State).handle = true := hs.1.1
  have hp : ({ s with busy := true } : State).phase = .ready := hs.2
  simp only [whenReady, op_bind, requireOpen_open ho, requireReady_ready hp]
  exact h _ rfl ho hg

/-- A step of an inner layer that goes as a dialogue says. -/
theorem innerStep_plays {op : Op α} {d : Dialogue α} {s : State} (value : α → Value) (h : Plays s.cfg op d)
    (ho : isOpen s.handle = true) (hg : Given d s) (ha : d.Answered) :
    innerStep (onOpenHandle op) value s = d.endState value s := by
  have hrun := plays_onOpenHandle h s rfl ho hg
  cases hr : d.result with
  | ok a => simp [innerStep, asStep, hrun, Dialogue.run, hr, concluded, Dialogue.endState, Dialogue.heard, report,
      endOutcome]
  | error e => simp [innerStep, asStep, hrun, Dialogue.run, hr, concluded, Dialogue.endState, Dialogue.heard, report,
      enterError, endOutcome, ha e hr]

end Sys2Proof.Machine
end

