-- ==== Sys2Proof/Laws/Frames.lean ====
section
/-! SUPPORT. The frame of every operation above the register interface: it adds only well-formed exchanges that write
registers of `coreWrites` (rules R45, R81, R87), and changes nothing else. Opening, closing, `softReset` and `init`,
which change handle and phase, have exact lemmas instead. -/

namespace Sys2Proof.Machine

/-- An event the operations above the register interface may add. -/
def CoreEvent (c : Cfg) (e : Event) : Prop :=
  wireOk e = true ∧ ∀ a, writtenReg e = some a → a ∈ coreWrites c

theorem coreEvent_read (c : Cfg) (a : RegAddr) (x : ExchangeAnswer) : CoreEvent c (.exchange (txRead a) x) := by
  simp [CoreEvent, wireOk]

theorem coreEvent_write {c : Cfg} {a : RegAddr} (h : a ∈ coreWrites c) (v : Byte) (x : ExchangeAnswer) :
    CoreEvent c (.exchange (txWrite a v) x) := by
  simp [CoreEvent, wireOk, h]

theorem coreEvent_burst {c : Cfg} {a : RegAddr} (h : a ∈ coreWrites c) (bs : List Byte) (x : ExchangeAnswer) :
    CoreEvent c (.exchange (txBurst a bs) x) := by
  refine ⟨by simp [wireOk], fun b hb => ?_⟩
  rw [writtenReg_txBurst a bs x hb]
  exact h

theorem coreEvent_expired (c : Cfg) (b : Bool) : CoreEvent c (.expired b) := by simp [CoreEvent, wireOk, writtenReg]

theorem coreEvent_deadline (ms : Nat) (c : Cfg) : CoreEvent c (.deadlineStart ms) := by
  simp [CoreEvent, wireOk, writtenReg]

theorem mem_command (c : Cfg) : c.reg.command ∈ coreWrites c := by simp [coreWrites]
theorem mem_comIrq (c : Cfg) : c.reg.comIrq ∈ coreWrites c := by simp [coreWrites]
theorem mem_divIrq (c : Cfg) : c.reg.divIrq ∈ coreWrites c := by simp [coreWrites]
theorem mem_fifoLevel (c : Cfg) : c.reg.fifoLevel ∈ coreWrites c := by simp [coreWrites]
theorem mem_fifoData (c : Cfg) : c.reg.fifoData ∈ coreWrites c := by simp [coreWrites]
theorem mem_bitFraming (c : Cfg) : c.reg.bitFraming ∈ coreWrites c := by simp [coreWrites]
theorem mem_coll (c : Cfg) : c.reg.coll ∈ coreWrites c := by simp [coreWrites]

variable {c : Cfg}

theorem core_read (a : RegAddr) : StaysAt CoreEvent c (readRegister a) :=
  staysAt_readRegister (coreEvent_read c a)

theorem core_write {a : RegAddr} (h : a ∈ coreWrites c) (v : Byte) : StaysAt CoreEvent c (writeRegister a v) :=
  staysAt_writeRegister (coreEvent_write h v)

theorem core_burst {a : RegAddr} (h : a ∈ coreWrites c) (bs : List Byte) :
    StaysAt CoreEvent c (writeRegisterBurst a bs) := staysAt_writeRegisterBurst (coreEvent_burst h bs)

theorem core_poll (a : RegAddr) (m : Byte) (ms : Nat) : StaysAt CoreEvent c (pollUntil a m ms) :=
  staysAt_pollUntil (coreEvent_read c a) coreEvent_expired (coreEvent_deadline ms)

theorem core_require (b : Bool) (r : RefusalReason) : StaysAt CoreEvent c (require b r) := (stays_require b r).at c

/-! ## FIFO and CRC -/

theorem core_flushFifo : StaysAt CoreEvent c flushFifo := staysAt_getCfg (core_write (mem_fifoLevel c) _)

theorem core_fifoLevel : StaysAt CoreEvent c fifoLevel :=
  staysAt_getCfg (staysAt_bind (core_read _) fun _ => staysAt_pure _)

theorem core_readFifoBytes (n : Nat) : StaysAt CoreEvent c (readFifoBytes n) := by
  induction n with
  | zero => exact staysAt_pure _
  | succ n ih => exact staysAt_getCfg (staysAt_bind (core_read _) fun _ => staysAt_bind ih fun _ => staysAt_pure _)

theorem core_calcCrc (buffer : List Byte) : StaysAt CoreEvent c (calcCrc buffer) := by
  refine staysAt_bind (core_require _ _) fun _ => staysAt_getCfg ?_
  refine staysAt_bind (core_write (mem_command c) _) fun _ => staysAt_bind (core_write (mem_divIrq c) _) fun _ => ?_
  refine staysAt_bind core_flushFifo fun _ => staysAt_bind (core_burst (mem_fifoData c) _) fun _ => ?_
  refine staysAt_bind (core_write (mem_command c) _) fun _ => staysAt_bind (core_poll _ _ _) fun p => ?_
  obtain ⟨v, why⟩ := p
  cases why with
  | deadline => exact staysAt_raise _
  | bit => exact staysAt_bind (core_read _) fun _ => staysAt_bind (core_read _) fun _ => staysAt_pure _

theorem core_appendCrc (f : List Byte) : StaysAt CoreEvent c (appendCrc f) :=
  staysAt_bind (core_calcCrc f) fun _ => staysAt_pure _

/-! ## Transceive -/

theorem core_preamble (frame : List Byte) (vb : Byte) : StaysAt CoreEvent c (transceivePreamble frame vb) := by
  refine staysAt_getCfg (staysAt_bind (core_write (mem_command c) _) fun _ => ?_)
  refine staysAt_bind (core_write (mem_comIrq c) _) fun _ => staysAt_bind core_flushFifo fun _ => ?_
  refine staysAt_bind (core_burst (mem_fifoData c) _) fun _ => staysAt_bind (core_write (mem_bitFraming c) _) fun _ => ?_
  refine staysAt_bind (core_write (mem_command c) _) fun _ => ?_
  exact staysAt_setBits (coreEvent_read c _) (coreEvent_write (mem_bitFraming c))

theorem core_completion (irq : Byte) : StaysAt CoreEvent c (transceiveCompletion irq) := by
  refine staysAt_getCfg (staysAt_bind (staysAt_clearBits (coreEvent_read c _) (coreEvent_write (mem_bitFraming c)))
    fun _ => staysAt_bind (core_read _) fun err => ?_)
  split
  · exact staysAt_raise _
  · exact staysAt_bind core_fifoLevel fun _ => staysAt_bind (core_readFifoBytes _) fun _ =>
      staysAt_bind (core_read _) fun _ => staysAt_pure _

theorem core_transceive (frame : List Byte) (vb : Byte) (ms : Nat) : StaysAt CoreEvent c (transceive frame vb ms) := by
  refine staysAt_bind (core_require _ _) fun _ => staysAt_bind (core_require _ _) fun _ => staysAt_getCfg ?_
  refine staysAt_bind (core_preamble frame vb) fun _ => staysAt_bind (core_poll _ _ _) fun p => ?_
  obtain ⟨irq, why⟩ := p
  dsimp only
  split
  · exact staysAt_pure _
  · exact staysAt_pure _
  · exact core_completion irq

/-! ## Card operations -/

theorem core_requestA : StaysAt CoreEvent c requestA :=
  staysAt_getCfg (staysAt_bind (core_transceive _ _ _) fun _ => staysAt_pure _)

theorem core_anticollCL1 : StaysAt CoreEvent c anticollCL1 :=
  staysAt_getCfg (staysAt_bind (staysAt_clearBits (coreEvent_read c _) (coreEvent_write (mem_coll c))) fun _ =>
    staysAt_bind (core_transceive _ _ _) fun _ => staysAt_pure _)

theorem core_selectCL1 (uid : List Byte) : StaysAt CoreEvent c (selectCL1 uid) :=
  staysAt_bind (core_require _ _) fun _ => staysAt_getCfg (staysAt_bind (core_appendCrc _) fun _ =>
    staysAt_bind (core_transceive _ _ _) fun _ => staysAt_pure _)

theorem core_authenticate (f : List Byte) : StaysAt CoreEvent c (authenticate f) := by
  refine staysAt_getCfg (staysAt_bind (core_write (mem_command c) _) fun _ => ?_)
  refine staysAt_bind (core_write (mem_comIrq c) _) fun _ => staysAt_bind core_flushFifo fun _ => ?_
  refine staysAt_bind (core_burst (mem_fifoData c) _) fun _ => staysAt_bind (core_write (mem_command c) _) fun _ => ?_
  refine staysAt_bind (core_poll _ _ _) fun p => staysAt_bind (core_read _) fun err => ?_
  split
  · exact staysAt_raise _
  · refine staysAt_bind (core_read _) fun s2 => ?_
    split
    · exact staysAt_pure _
    · exact staysAt_raise _

theorem core_mifareAuthKeyA (blk : Nat) (key uid : List Byte) : StaysAt CoreEvent c (mifareAuthKeyA blk key uid) := by
  refine staysAt_bind ((stays_blockOperand blk).at c) fun b => staysAt_bind (core_require _ _) fun _ => ?_
  split
  · exact staysAt_raise _
  · exact staysAt_getCfg (core_authenticate _)

theorem core_mifareReadBlock (blk : Nat) : StaysAt CoreEvent c (mifareReadBlock blk) := by
  refine staysAt_bind ((stays_blockOperand blk).at c) fun b => staysAt_getCfg ?_
  refine staysAt_bind (core_appendCrc _) fun _ => staysAt_bind (core_transceive _ _ _) fun r => ?_
  split
  · exact staysAt_raise _
  · exact staysAt_pure _

theorem core_writePhase (phase : Nat) (body : List Byte) (ms : Nat) : StaysAt CoreEvent c (writePhase phase body ms) := by
  refine staysAt_getCfg (staysAt_bind (core_appendCrc _) fun _ => staysAt_bind (core_transceive _ _ _) fun r => ?_)
  split
  · exact staysAt_pure _
  · exact staysAt_raise _

theorem core_mifareWriteBlock (blk : Nat) (payload : List Byte) :
    StaysAt CoreEvent c (mifareWriteBlock blk payload) :=
  staysAt_bind ((stays_blockOperand blk).at c) fun _ => staysAt_getCfg (staysAt_bind (core_writePhase _ _ _) fun _ =>
    core_writePhase _ _ _)

theorem core_detectCard : StaysAt CoreEvent c detectCard := by
  refine staysAt_bind core_requestA fun a => ?_
  cases a with
  | none => exact staysAt_pure _
  | some atqa =>
    refine staysAt_bind core_anticollCL1 fun u => ?_
    cases u with
    | none => exact staysAt_pure _
    | some uid => exact staysAt_bind (core_selectCL1 _) fun _ => staysAt_pure _

/-! ## The lifecycle -/

/-- The reset write, its settle delay and the phase (rule R220), when the write is answered. -/
theorem softReset_reply {s : State} {rx : List Byte} {rest : List ExchangeAnswer} (h : isOpen s.handle = true)
    (ha : s.answers = .reply rx :: rest) (hl : rx.length = 2) :
    softReset s = .ok ()
      { s with
        events := s.events ++ [.exchange (txWrite s.cfg.reg.command s.cfg.cmd.softReset) (.reply rx), .sleep Config.tSettle]
        answers := rest, draws := s.draws + 1, phase := .opened } := by
  simp [softReset, writeRegister_reply h ha hl]

end Sys2Proof.Machine
end

