-- ==== Sys2Proof/Laws/PerInstr.lean ====
section
/-! SUPPORT. Per-instruction families. `WordForm`: no instruction's word is empty, so a call always has a byte that says
what it is (rules R80, R88, R92, R104, R194). -/

namespace Sys2Proof.Laws.WordForm

/-- The word of an instruction has a first byte. -/
def Statement (i : Instr) : Prop := ∀ c : Cfg, encode c i ≠ []

theorem openTransport (busIndex deviceIndex clockHz : Nat) : Statement (.openTransport busIndex deviceIndex clockHz) := fun _ => List.cons_ne_nil _ _

theorem close : Statement (.close) := fun _ => List.cons_ne_nil _ _

theorem writeRegister (a v : Byte) : Statement (.writeRegister a v) := fun _ => List.cons_ne_nil _ _

theorem readRegister (a : Byte) : Statement (.readRegister a) := fun _ => List.cons_ne_nil _ _

theorem writeRegisterBurst (a : Byte) (bs : List Byte) : Statement (.writeRegisterBurst a bs) := fun _ => List.cons_ne_nil _ _

theorem flushFifo : Statement (.flushFifo) := fun _ => List.cons_ne_nil _ _

theorem fifoLevel : Statement (.fifoLevel) := fun _ => List.cons_ne_nil _ _

theorem readFifoBytes (n : Nat) : Statement (.readFifoBytes n) := fun _ => List.cons_ne_nil _ _

theorem calcCrc (buffer : List Byte) : Statement (.calcCrc buffer) := fun _ => List.cons_ne_nil _ _

theorem transceive (frame : List Byte) (validBits : Byte) (timeoutMs : Nat) : Statement (.transceive frame validBits timeoutMs) := fun _ => List.cons_ne_nil _ _

theorem requestA : Statement (.requestA) := fun _ => List.cons_ne_nil _ _

theorem anticollCL1 : Statement (.anticollCL1) := fun _ => List.cons_ne_nil _ _

theorem selectCL1 (uid : List Byte) : Statement (.selectCL1 uid) := fun _ => List.cons_ne_nil _ _

theorem mifareAuthKeyA (blk : Nat) (key uid : List Byte) : Statement (.mifareAuthKeyA blk key uid) := fun _ => List.cons_ne_nil _ _

theorem mifareReadBlock (blk : Nat) : Statement (.mifareReadBlock blk) := fun _ => List.cons_ne_nil _ _

theorem mifareWriteBlock (blk : Nat) (payload : List Byte) : Statement (.mifareWriteBlock blk payload) := fun _ => List.cons_ne_nil _ _

theorem softReset : Statement (.softReset) := fun _ => List.cons_ne_nil _ _

theorem init : Statement (.init) := fun _ => List.cons_ne_nil _ _

theorem isTrailerBlock (b : Nat) : Statement (.isTrailerBlock b) := fun _ => List.cons_ne_nil _ _

theorem ensure16Bytes (xs : List Byte) : Statement (.ensure16Bytes xs) := fun _ => List.cons_ne_nil _ _

theorem detectCard : Statement (.detectCard) := fun _ => List.cons_ne_nil _ _

theorem setBits (a : RegAddr) (m : Byte) : Statement (.setBits a m) := fun _ => List.cons_ne_nil _ _

theorem clearBits (a : RegAddr) (m : Byte) : Statement (.clearBits a m) := fun _ => List.cons_ne_nil _ _

theorem pollUntil (a : RegAddr) (stopMask : Byte) (ms : Nat) : Statement (.pollUntil a stopMask ms) := fun _ => List.cons_ne_nil _ _

theorem antennaOn : Statement (.antennaOn) := fun _ => List.cons_ne_nil _ _

theorem spiWriteByte (a : RegAddr) (v : Byte) : Statement (.spiWriteByte a v) := fun _ => List.cons_ne_nil _ _

theorem spiReadByte (a : RegAddr) : Statement (.spiReadByte a) := fun _ => List.cons_ne_nil _ _

theorem spiBurstWrite (a : RegAddr) (bs : List Byte) : Statement (.spiBurstWrite a bs) := fun _ => List.cons_ne_nil _ _

theorem cmdIdle : Statement (.cmdIdle) := fun _ => List.cons_ne_nil _ _

theorem cmdCalcCrc : Statement (.cmdCalcCrc) := fun _ => List.cons_ne_nil _ _

theorem cmdTransceive : Statement (.cmdTransceive) := fun _ => List.cons_ne_nil _ _

theorem cmdMfAuthent : Statement (.cmdMfAuthent) := fun _ => List.cons_ne_nil _ _

theorem cmdSoftReset : Statement (.cmdSoftReset) := fun _ => List.cons_ne_nil _ _

theorem piccReqa : Statement (.piccReqa) := fun _ => List.cons_ne_nil _ _

theorem piccAnticoll : Statement (.piccAnticoll) := fun _ => List.cons_ne_nil _ _

theorem piccSelect (uid : List Byte) (crcLo crcHi : Byte) : Statement (.piccSelect uid crcLo crcHi) := fun _ => List.cons_ne_nil _ _

theorem mfAuthKeyA (blk : Byte) (key uid : List Byte) : Statement (.mfAuthKeyA blk key uid) := fun _ => List.cons_ne_nil _ _

theorem mfRead (blk crcLo crcHi : Byte) : Statement (.mfRead blk crcLo crcHi) := fun _ => List.cons_ne_nil _ _

theorem mfWrite (blk crcLo crcHi : Byte) : Statement (.mfWrite blk crcLo crcHi) := fun _ => List.cons_ne_nil _ _

theorem mfAck (high : BitVec 4) (fourBits : Bool) : Statement (.mfAck high fourBits) := fun _ => List.cons_ne_nil _ _

end Sys2Proof.Laws.WordForm
end

