-- ==== Sys2Proof/Tests/Slice0.lean ====
section
/-! SUPPORT. The model's own tests: ill-formed instructions refused, words written out from the spec decoded, the worked
vectors of spec/95_test_vectors.md run, and for every statement with hypotheses a witness that meets them. -/

namespace Sys2Proof.Tests

open Sys2Proof.Machine

/- One proof after another: the kernel evaluates these theorems, and evaluating all at once takes a thread each. -/
set_option Elab.async false

/-! ## Helpers -/

/-- The "Ready state" of 95_test_vectors.md, with answers given in advance. -/
def ready (answers : List ExchangeAnswer) (expiries : List Nat) : State :=
  { State.reset with handle := .opened 0 0 1000000, phase := .ready, answers := answers, expiries := expiries }

/-- The state after `open`. -/
def opened (answers : List ExchangeAnswer) : State := { ready answers [] with phase := .opened }

/-- An answered write, its reply zero bytes (95_test_vectors.md, Conventions). -/
def wr (tx : List Byte) : Event := .exchange tx (.reply (List.replicate tx.length 0))

/-- An answered read: the address byte sent and the value. -/
def rd (b v : Byte) : Event := .exchange [b, 0x00] (.reply [0x00, v])

/-- The state an instruction leads to. -/
def after (i : Instr) (s : State) : State :=
  match exec i s with
  | .next t => t
  | .fault _ => s
  | .refused _ => s

/-- From a state whose answers are those of the trace, the instruction issues exactly the trace, uses all the answers
and ends with the outcome. -/
def runs (i : Instr) (trace : List Event) (expiries : List Nat) (o : CallOutcome) (s : State := ready [] []) : Bool :=
  match exec i { s with answers := answersOf trace, expiries := expiries } with
  | .next t => t.events == trace && t.outcomes == [o] && t.answers == [] && t.expiries == []
  | .fault _ => false
  | .refused _ => false

/-- Refused, with the mark and no event. -/
def refuses (i : Instr) (s : State) (r : RefusalReason) : Bool := after i s == refusedWith r s

/-- The UID, key and block of the vectors. -/
def uid0 : List Byte := [0xDE, 0xAD, 0xBE, 0xEF]
def key0 : List Byte := List.replicate 6 0xFF
def block0 : List Byte :=
  [0x00, 0x11, 0x22, 0x33, 0x44, 0x55, 0x66, 0x77, 0x88, 0x99, 0xAA, 0xBB, 0xCC, 0xDD, 0xEE, 0xFF]

/-! ## WellFormed refuses -/

theorem test_wf_refuses_wide_naturals :
    (Instr.openTransport (2 ^ 32) 0 0).wf = false ∧ (Instr.openTransport 0 (2 ^ 32) 0).wf = false ∧
    (Instr.openTransport 0 0 (2 ^ 32)).wf = false ∧ (Instr.readFifoBytes (2 ^ 32)).wf = false ∧
    (Instr.transceive [0x26] 7 (2 ^ 32)).wf = false ∧ (Instr.mifareAuthKeyA (2 ^ 32) key0 uid0).wf = false ∧
    (Instr.mifareReadBlock (2 ^ 32)).wf = false ∧ (Instr.mifareWriteBlock (2 ^ 32) []).wf = false ∧
    (Instr.isTrailerBlock (2 ^ 32)).wf = false ∧ (Instr.pollUntil 4 0x21 (2 ^ 32)).wf = false := by decide +kernel

theorem test_wf_refuses_long_lists :
    let xs : List Byte := List.replicate 256 0
    (Instr.writeRegisterBurst 9 xs).wf = false ∧ (Instr.calcCrc xs).wf = false ∧
    (Instr.transceive xs 0 80).wf = false ∧ (Instr.selectCL1 xs).wf = false ∧
    (Instr.mifareAuthKeyA 8 xs uid0).wf = false ∧ (Instr.mifareAuthKeyA 8 key0 xs).wf = false ∧
    (Instr.mifareWriteBlock 8 xs).wf = false ∧ (Instr.ensure16Bytes xs).wf = false := by
  simp only [Instr.wf, FitsList, List.length_replicate]; decide

theorem test_wf_refuses_other_shapes :
    (Instr.spiBurstWrite 9 [0x26]).wf = false ∧ (Instr.piccSelect [0xDE, 0xAD, 0xBE] 0 0).wf = false ∧
    (Instr.mfAuthKeyA 8 [0xFF] uid0).wf = false ∧ (Instr.mfAuthKeyA 8 key0 [0xDE]).wf = false := by decide +kernel

/-! ## Decoding: words written out from the spec's encodings -/

/-- Rules R102, R104; vector V-ENC-6 and the examples of R104 where the spec gives the word. -/
theorem test_decode_host_calls :
    decode Cfg.default .hostCall [0x01, 0, 0, 0, 0, 0, 0, 0, 0, 0x00, 0x0F, 0x42, 0x40] = .ok (.openTransport 0 0 1000000) ∧
    decode Cfg.default .hostCall [0x02] = .ok .close ∧
    decode Cfg.default .hostCall [0x03, 0x01, 0x0C] = .ok (.writeRegister 0x01 0x0C) ∧
    decode Cfg.default .hostCall [0x04, 0x04] = .ok (.readRegister 0x04) ∧
    decode Cfg.default .hostCall [0x05, 0x09, 0x02, 0x93, 0x20] = .ok (.writeRegisterBurst 0x09 [0x93, 0x20]) ∧
    decode Cfg.default .hostCall [0x06] = .ok .flushFifo ∧
    decode Cfg.default .hostCall [0x07] = .ok .fifoLevel ∧
    decode Cfg.default .hostCall [0x08, 0, 0, 0, 0x03] = .ok (.readFifoBytes 3) ∧
    decode Cfg.default .hostCall [0x09, 0x02, 0x30, 0x08] = .ok (.calcCrc [0x30, 0x08]) ∧
    decode Cfg.default .hostCall [0x0A, 0x01, 0x26, 0x07, 0, 0, 0, 0x50] = .ok (.transceive [0x26] 7 80) ∧
    decode Cfg.default .hostCall [0x0B] = .ok .requestA := by decide +kernel

theorem test_decode_card_calls :
    decode Cfg.default .hostCall [0x0C] = .ok .anticollCL1 ∧
    decode Cfg.default .hostCall [0x0D, 0x03, 0xDE, 0xAD, 0xBE] = .ok (.selectCL1 [0xDE, 0xAD, 0xBE]) ∧
    decode Cfg.default .hostCall [0x0E, 0, 0, 0, 0x08, 0x06, 1, 2, 3, 4, 5, 6, 0x04, 0xDE, 0xAD, 0xBE, 0xEF] =
      .ok (.mifareAuthKeyA 8 [1, 2, 3, 4, 5, 6] uid0) ∧
    decode Cfg.default .hostCall [0x0F, 0, 0, 0, 0x08] = .ok (.mifareReadBlock 8) ∧
    decode Cfg.default .hostCall [0x10, 0, 0, 0x01, 0x02, 0x02, 0xAA, 0xBB] = .ok (.mifareWriteBlock 258 [0xAA, 0xBB]) ∧
    decode Cfg.default .hostCall [0x11] = .ok .softReset ∧
    decode Cfg.default .hostCall [0x12] = .ok .init ∧
    decode Cfg.default .hostCall [0x13, 0, 0, 0x04, 0x03] = .ok (.isTrailerBlock 1027) ∧
    decode Cfg.default .hostCall [0x14, 0x02, 0x01, 0x02] = .ok (.ensure16Bytes [0x01, 0x02]) ∧
    decode Cfg.default .hostCall [0x15] = .ok .detectCard := by decide +kernel

/-- Rules R102 and R104: too few, too many, unknown, internal; V-ENC-6. -/
theorem test_decode_host_refusals :
    decode Cfg.default .hostCall [0x0D, 0x04, 0xDE, 0xAD, 0xBE] = .error .tooFew ∧
    decode Cfg.default .hostCall [0x02, 0x00] = .error .tooMany ∧
    decode Cfg.default .hostCall [0x16] = .error (.unknownIdentifier 0x16) ∧
    decode Cfg.default .hostCall [0x00] = .error (.unknownIdentifier 0x00) ∧
    decode Cfg.default .hostCall [0x23] = .error (.wrongLayer 0x23) ∧
    decode Cfg.default .internalStep [0x02] = .error (.wrongLayer 0x02) := by decide +kernel

/-- Rules R114, R115, R116 and R223 with the identifiers of R102. -/
theorem test_decode_internal_steps :
    decode Cfg.default .internalStep [0x20, 0x0D, 0x80] = .ok (.setBits 0x0D 0x80) ∧
    decode Cfg.default .internalStep [0x21, 0x0E, 0x80] = .ok (.clearBits 0x0E 0x80) ∧
    decode Cfg.default .internalStep [0x22, 0x04, 0x21, 0, 0, 0, 0x50] = .ok (.pollUntil 0x04 0x21 80) ∧
    decode Cfg.default .internalStep [0x23] = .ok .antennaOn ∧
    decode Cfg.default .internalStep [0x20, 0x40, 0x80] = .error (.badRegister 0x40) := by decide +kernel

/-- Rules R80 to R85, bit by bit: register 0x0D is 001101, so its write byte is 0 001101 0. -/
theorem test_decode_exchanges :
    decode Cfg.default .exchange [0b00011010, 0x07] = .ok (.spiWriteByte 0b001101 0x07) ∧
    decode Cfg.default .exchange [0b10001000, 0x00] = .ok (.spiReadByte 0b000100) ∧
    decode Cfg.default .exchange [0b00010010, 0x93, 0x20] = .ok (.spiBurstWrite 0b001001 [0x93, 0x20]) ∧
    decode Cfg.default .exchange [0b00010010] = .ok (.spiBurstWrite 0b001001 []) ∧
    decode Cfg.default .exchange [0b00011011, 0x07] = .error .reservedBit ∧
    decode Cfg.default .exchange [0b10001000, 0x00, 0x00] = .error .badRead := by decide +kernel

/-- Rule R88, and R89's reserved and unused codes. -/
theorem test_decode_commands :
    decode Cfg.default .chipCommand [0x00] = .ok .cmdIdle ∧ decode Cfg.default .chipCommand [0x03] = .ok .cmdCalcCrc ∧
    decode Cfg.default .chipCommand [0x0C] = .ok .cmdTransceive ∧ decode Cfg.default .chipCommand [0x0E] = .ok .cmdMfAuthent ∧
    decode Cfg.default .chipCommand [0x0F] = .ok .cmdSoftReset ∧ decode Cfg.default .chipCommand [0x0D] = .error (.unknownCommand 0x0D) ∧
    decode Cfg.default .chipCommand [0x08] = .error (.unknownCommand 0x08) := by decide +kernel

/-- Rule R92 and vector V-ENC-4. -/
theorem test_decode_frames :
    decode Cfg.default .cardFrame [0x26] = .ok .piccReqa ∧ decode Cfg.default .cardFrame [0x93, 0x20] = .ok .piccAnticoll ∧
    decode Cfg.default .cardFrame [0x93, 0x70, 0xDE, 0xAD, 0xBE, 0xEF, 0x22, 0xB9, 0x9C] = .ok (.piccSelect uid0 0xB9 0x9C) ∧
    decode Cfg.default .cardFrame [0x93, 0x70, 0xDE, 0xAD, 0xBE, 0xEF, 0x23, 0xB9, 0x9C] = .error .badCheckByte ∧
    decode Cfg.default .cardFrame [0x60, 0x08, 1, 2, 3, 4, 5, 6, 0xDE, 0xAD, 0xBE, 0xEF] =
      .ok (.mfAuthKeyA 0x08 [1, 2, 3, 4, 5, 6] uid0) ∧
    decode Cfg.default .cardFrame [0x30, 0x08, 0x4A, 0x24] = .ok (.mfRead 0x08 0x4A 0x24) ∧
    decode Cfg.default .cardFrame [0xA0, 0x08, 0x17, 0x3D] = .ok (.mfWrite 0x08 0x17 0x3D) ∧
    decode Cfg.default .cardFrame [0x52] = .error .unknownFrame := by decide +kernel

/-- Rule R194: low nibble 0xA, 4 or 0 valid bits. -/
theorem test_decode_ack :
    decode Cfg.default .cardAnswer [0x0A, 4] = .ok (.mfAck 0 true) ∧ decode Cfg.default .cardAnswer [0xFA, 0] = .ok (.mfAck 0xF false) ∧
    decode Cfg.default .cardAnswer [0x0A, 3] = .error .notAck ∧ decode Cfg.default .cardAnswer [0x05, 4] = .error .notAck := by decide +kernel

/-- Rules R13 and R91, C6: a model can set `PICC_REQA` to 0x52, and then that word is REQA. -/
theorem test_decode_configured :
    let c : Cfg := { Cfg.default with card := { Cfg.default.card with reqa := 0x52 } }
    decode c .cardFrame [0x52] = .ok .piccReqa ∧ decode c .cardFrame [0x26] = .error .unknownFrame ∧
    encode c .piccReqa = [0x52] ∧ c.CodesDistinct := by decide +kernel

/-- Words of spec/opcode_table.json, as the table numbers them: `readRegister`, `SetBits`, the two 16-bit frames and a
read exchange; and the step that runs one. -/
theorem test_table_words :
    decodeTableWord 8 0x04 = some (.readRegister 0x00) ∧ decodeTableWord 8 0x20 = some (.setBits 0x00 0x00) ∧
    decodeTableWord 16 0x9320 = some .piccAnticoll ∧ decodeTableWord 8 0x26 = some .piccReqa ∧
    decodeTableWord 8 0x80 = some (.spiReadByte 0x00) := by decide +kernel

/-- As the first instruction after reset: a helper answers, a read exchange is refused on the closed handle (R119). -/
theorem test_fetch_word_runs :
    (match step (State.reset.withFetchWord 8 0x13) with
      | .next t => t == { State.reset with outcomes := [.returned (.bool false)] }
      | .fault _ => false
      | .refused _ => false) = true ∧
    (match step (State.reset.withFetchWord 8 0x80) with
      | .next t => t == refusedWith .notOpen State.reset
      | .fault _ => false
      | .refused _ => false) = true := by decide +kernel

/-! ## The register interface (vectors V-REG) -/

/-- V-REG-14, V-REG-15. -/
theorem test_open :
    (after (.openTransport 0 0 1000000) { State.reset with links := [.ok] }).handle = .opened 0 0 1000000 ∧
    (after (.openTransport 0 0 1000000) { State.reset with links := [.ok] }).phase = .opened ∧
    (after (.openTransport 0 0 1000000) { State.reset with links := [.fail 1] }).outcomes =
      [.raised (.transportError (.external 1))] ∧
    (after (.openTransport 0 0 1000000) { State.reset with links := [.fail 1] }).handle = .closed := by decide +kernel

/-- V-REG-12, V-REG-13. -/
theorem test_close :
    (after .close State.reset).events = [] ∧ (after .close State.reset).outcomes = [.returned .unit] ∧
    (after .close { ready [] [] with links := [.fail 1] }).events = [.transportClose (.fail 1)] ∧
    (after .close { ready [] [] with links := [.fail 1] }).outcomes = [.returned .unit] ∧
    (after .close { ready [] [] with links := [.fail 1] }).handle = .closed := by decide +kernel

/-- V-REG-1, V-REG-17. -/
theorem test_readRegister :
    runs (.readRegister 0x04) [rd 0x88 0x21] [] (.returned (.byte 0x21)) = true ∧
    refuses (.readRegister 0x40) (ready [] []) .badRegisterAddress = true := by decide +kernel

/-- V-REG-11: the error is the transport's, and the phase drops (rule R262). -/
theorem test_readRegister_fails :
    (after (.readRegister 0x06) (ready [.fail 1] [])).outcomes = [.raised (.transportError (.external 1))] ∧
    (after (.readRegister 0x06) (ready [.fail 1] [])).phase = .opened ∧
    (after (.readRegister 0x06) (ready [.reply [0x00]] [])).outcomes = [.raised (.transportError .lengthMismatch)] := by
  decide +kernel

/-- V-REG-2. -/
theorem test_writeRegister :
    runs (.writeRegister 0x01 0x0C) [wr [0x02, 0x0C]] [] (.returned .unit) = true := by decide +kernel

/-- V-REG-3, V-REG-4. -/
theorem test_writeRegisterBurst :
    runs (.writeRegisterBurst 0x09 [0x93, 0x20]) [wr [0x12, 0x93, 0x20]] [] (.returned .unit) = true ∧
    runs (.writeRegisterBurst 0x09 []) [wr [0x12]] [] (.returned .unit) = true := by decide +kernel

/-- V-REG-5. -/
theorem test_setBits :
    runs (.setBits 0x0D 0x80) [rd 0x9A 0x07, wr [0x1A, 0x87]] [] (.returned .unit) = true := by decide +kernel

/-- V-REG-6, V-REG-7. -/
theorem test_clearBits :
    runs (.clearBits 0x0E 0x80) [rd 0x9C 0xA0, wr [0x1C, 0x20]] [] (.returned .unit) = true ∧
    runs (.clearBits 0x0E 0x80) [rd 0x9C 0x20, wr [0x1C, 0x20]] [] (.returned .unit) = true := by decide +kernel

/-- V-REG-8, V-REG-9: after the stop bit no further deadline test. -/
theorem test_pollUntil :
    runs (.pollUntil 0x05 0x04 50) [.deadlineStart 50, rd 0x8A 0x00, .expired false, rd 0x8A 0x04] [3]
      (.returned (.poll 0x04 .bit)) = true ∧
    runs (.pollUntil 0x04 0x21 80) [.deadlineStart 80, rd 0x88 0x14, .expired true] [0]
      (.returned (.poll 0x14 .deadline)) = true := by decide +kernel

/-- R223's example: 0x80 causes the write, 0x83 none. -/
theorem test_antennaOn :
    runs .antennaOn [rd 0xA8 0x80, wr [0x28, 0x83]] [] (.returned .unit) = true ∧
    runs .antennaOn [rd 0xA8 0x83] [] (.returned .unit) = true := by decide +kernel

/-! ## FIFO and CRC (vectors V-FIFO, V-CRC) -/

theorem test_flushFifo : runs .flushFifo [wr [0x14, 0x80]] [] (.returned .unit) = true := by decide +kernel

/-- V-FIFO-2: bit 7 discarded, not clamped. -/
theorem test_fifoLevel :
    runs .fifoLevel [rd 0x94 0x92] [] (.returned (.count 18)) = true ∧
    runs .fifoLevel [rd 0x94 0xFF] [] (.returned (.count 127)) = true := by decide +kernel

/-- V-FIFO-4, V-FIFO-5. -/
theorem test_readFifoBytes :
    runs (.readFifoBytes 3) [rd 0x92 0x08, rd 0x92 0xB6, rd 0x92 0xDD] [] (.returned (.bytes [0x08, 0xB6, 0xDD])) =
      true ∧
    (after (.readFifoBytes 3) (ready [.reply [0, 8], .fail 1] [])).outcomes =
      [.raised (.transportError (.external 1))] := by decide +kernel

/-- The exchanges of `calcCrc` up to its poll, for a buffer. -/
def crcStart (buffer : List Byte) : List Event :=
  [wr [0x02, 0x00], wr [0x0A, 0x04], wr [0x14, 0x80], wr (0x12 :: buffer), wr [0x02, 0x03], .deadlineStart 50]

/-- The exchanges of `calcCrc` that answer a CRC. -/
def crcTrace (buffer : List Byte) (lo hi : Byte) : List Event :=
  crcStart buffer ++ [rd 0x8A 0x04, rd 0xC4 lo, rd 0xC2 hi]

/-- V-CRC-2, V-CRC-3. -/
theorem test_calcCrc :
    runs (.calcCrc [0x30, 0x08]) (crcTrace [0x30, 0x08] 0x4A 0x24) [0] (.returned (.bytes [0x4A, 0x24])) = true ∧
    runs (.calcCrc [0x30, 0x08]) (crcStart [0x30, 0x08] ++ [rd 0x8A 0x00, .expired false, rd 0x8A 0x00, .expired true])
      [1] (.raised (.crcTimeout 0x00)) = true := by decide +kernel

/-! ## Transceive (vectors V-TRX, W4) -/

/-- The exchanges of a transceive up to its poll. -/
def trxStart (frame : List Byte) (vb : Byte) (ms : Nat) : List Event :=
  [wr [0x02, 0x00], wr [0x08, 0x7F], wr [0x14, 0x80], wr (0x12 :: frame), wr [0x1A, vb], wr [0x02, 0x0C], rd 0x9A vb,
   wr [0x1A, vb ||| 0x80], .deadlineStart ms]

/-- A completed transceive: the answer bytes and the valid-bits field. -/
def trxTrace (frame : List Byte) (vb : Byte) (ms : Nat) (data : List Byte) (bits : Byte) : List Event :=
  trxStart frame vb ms ++ [rd 0x88 0x30, rd 0x9A (vb ||| 0x80), wr [0x1A, vb], rd 0x8C 0x00,
    rd 0x94 (BitVec.ofNat 8 data.length)] ++ data.map (rd 0x92) ++ [rd 0x98 bits]

/-- V-TRX-1, V-TRX-3. -/
theorem test_transceive :
    runs (.transceive [0x26] 7 80) (trxTrace [0x26] 7 80 [0x04, 0x00] 0) [0]
      (.returned (.transceived ⟨[0x04, 0x00], 0, some 0x00, 0x30, .noNote⟩)) = true ∧
    runs (.transceive [0x93, 0x20] 0 80)
      (trxStart [0x93, 0x20] 0 80 ++ [rd 0x88 0x30, rd 0x9A 0x80, wr [0x1A, 0x00], rd 0x8C 0x08]) [0]
      (.raised (.transceiveError 0x08 0x30)) = true := by decide +kernel

/-- W4a, W4b. -/
theorem test_transceive_no_answer :
    runs (.transceive [0x26] 7 80)
      (trxStart [0x26] 7 80 ++ [rd 0x88 0, .expired false, rd 0x88 0, .expired false, rd 0x88 0, .expired true]) [2]
      (.returned (.transceived ⟨[], 0, none, 0x00, .timeout⟩)) = true ∧
    runs (.transceive [0x26] 7 80) (trxStart [0x26] 7 80 ++ [rd 0x88 0, .expired false, rd 0x88 0x01]) [4]
      (.returned (.transceived ⟨[], 0, none, 0x01, .timerIRq⟩)) = true := by decide +kernel

/-! ## Card operations (vectors V-CARD, W1, W5) -/

/-- R170: two bytes are the ATQA, three are no card. -/
theorem test_requestA :
    runs .requestA (trxTrace [0x26] 7 80 [0x04, 0x00] 0) [0] (.returned (.atqa ⟨0x04, 0x00⟩)) = true ∧
    runs .requestA (trxTrace [0x26] 7 80 [0x04, 0x00, 0x00] 0) [0] (.returned .absent) = true := by decide +kernel

/-- W1: the check byte matches, and is one bit off. -/
theorem test_anticollCL1 :
    runs .anticollCL1 ([rd 0x9C 0xA0, wr [0x1C, 0x20]] ++ trxTrace [0x93, 0x20] 0 80 (uid0 ++ [0x22]) 0) [0]
      (.returned (.uid ⟨0xDE, 0xAD, 0xBE, 0xEF⟩)) = true ∧
    runs .anticollCL1 ([rd 0x9C 0xA0, wr [0x1C, 0x20]] ++ trxTrace [0x93, 0x20] 0 80 (uid0 ++ [0x23]) 0) [0]
      (.returned .absent) = true := by decide +kernel

/-- The exchanges of a select (R178's example). -/
def selectTrace (data : List Byte) : List Event :=
  crcTrace ([0x93, 0x70] ++ uid0 ++ [0x22]) 0xB9 0x9C ++
    trxTrace ([0x93, 0x70] ++ uid0 ++ [0x22, 0xB9, 0x9C]) 0 80 data 0

theorem test_selectCL1 :
    runs (.selectCL1 uid0) (selectTrace [0x08, 0xB6, 0xDD]) [0, 0] (.returned (.sak 0x08)) = true ∧
    runs (.selectCL1 uid0) (selectTrace []) [0, 0] (.returned .absent) = true := by decide +kernel

/-- The exchanges of an authentication of block 8 up to its poll. -/
def authStart : List Event :=
  [wr [0x02, 0x00], wr [0x08, 0x7F], wr [0x14, 0x80], wr ([0x12, 0x60, 0x08] ++ key0 ++ uid0), wr [0x02, 0x0E],
   .deadlineStart 150]

/-- W5a, W5c. -/
theorem test_mifareAuthKeyA :
    runs (.mifareAuthKeyA 8 key0 uid0) (authStart ++ [rd 0x88 0x10, rd 0x8C 0x00, rd 0x90 0x00]) [5]
      (.raised (.authFailed 0x00 0x10)) = true ∧
    runs (.mifareAuthKeyA 8 key0 uid0)
      (authStart ++ [rd 0x88 0x00, .expired false, rd 0x88 0x00, .expired true, rd 0x8C 0x00, rd 0x90 0x08]) [1]
      (.returned .unit) = true := by decide +kernel

/-- R256: an error bit comes before the crypto bit; R257: the key before any exchange. -/
theorem test_mifareAuthKeyA_errors :
    runs (.mifareAuthKeyA 8 key0 uid0) (authStart ++ [rd 0x88 0x10, rd 0x8C 0x01]) [0]
      (.raised (.authError 0x01 0x10)) = true ∧
    runs (.mifareAuthKeyA 8 [0xFF] uid0) [] [] (.raised (.invalidKeyLength 1)) = true := by decide +kernel

/-- R187: of 18 bytes the first 16; 15 bytes are short. -/
theorem test_mifareReadBlock :
    runs (.mifareReadBlock 8)
      (crcTrace [0x30, 0x08] 0x4A 0x24 ++ trxTrace [0x30, 0x08, 0x4A, 0x24] 0 250 (block0 ++ [0xCC, 0x69]) 0) [0, 0]
      (.returned (.bytes block0)) = true ∧
    runs (.mifareReadBlock 8)
      (crcTrace [0x30, 0x08] 0x4A 0x24 ++ trxTrace [0x30, 0x08, 0x4A, 0x24] 0 250 (block0.take 15) 0) [0, 0]
      (.raised (.shortRead 15)) = true := by decide +kernel

/-- R193's example, and a NAK in phase 1: no payload is sent. -/
theorem test_mifareWriteBlock :
    runs (.mifareWriteBlock 8 block0)
      (crcTrace [0xA0, 0x08] 0x17 0x3D ++ trxTrace [0xA0, 0x08, 0x17, 0x3D] 0 250 [0x0A] 4 ++
        crcTrace block0 0xCC 0x69 ++ trxTrace (block0 ++ [0xCC, 0x69]) 0 400 [0x0A] 0) [0, 0, 0, 0]
      (.returned .unit) = true ∧
    runs (.mifareWriteBlock 8 block0)
      (crcTrace [0xA0, 0x08] 0x17 0x3D ++ trxTrace [0xA0, 0x08, 0x17, 0x3D] 0 250 [0x04] 4) [0, 0]
      (.raised (.writeNotAcked 1 [0x04] 4)) = true := by decide +kernel

/-- R202: a card, and no card after a timer exit of REQA. -/
theorem test_detectCard :
    runs .detectCard (trxTrace [0x26] 7 80 [0x04, 0x00] 0 ++ [rd 0x9C 0xA0, wr [0x1C, 0x20]] ++
        trxTrace [0x93, 0x20] 0 80 (uid0 ++ [0x22]) 0 ++ selectTrace [0x08, 0xB6, 0xDD]) [0, 0, 0, 0]
      (.returned (.card ⟨⟨0x04, 0x00⟩, ⟨0xDE, 0xAD, 0xBE, 0xEF⟩, some 0x08⟩)) = true ∧
    runs .detectCard (trxStart [0x26] 7 80 ++ [rd 0x88 0x01]) [0] (.returned .absent) = true := by decide +kernel

/-! ## Lifecycle -/

/-- R220. -/
theorem test_softReset :
    runs .softReset [wr [0x02, 0x0F], .sleep 50] [] (.returned .unit) = true ∧
    (after .softReset (ready [.reply [0, 0]] [])).phase = .opened := by decide +kernel

/-- The exchanges of `init` (R222's example). -/
def initTrace : List Event :=
  [wr [0x02, 0x0F], .sleep 50, wr [0x54, 0x8D], wr [0x56, 0x3E], wr [0x5A, 0x1E], wr [0x58, 0x00], wr [0x2A, 0x40],
   wr [0x22, 0x3D], rd 0xA8 0x80, wr [0x28, 0x83]]

theorem test_init :
    runs .init initTrace [] (.returned .unit) (opened []) = true ∧
    (after .init (opened (answersOf initTrace))).phase = .ready ∧
    refuses .init (ready [] []) .alreadyInitialised = true := by decide +kernel

/-! ## Pure helpers, and the rows below the host calls -/

/-- W2. -/
theorem test_isTrailerBlock :
    (after (.isTrailerBlock 1027) State.reset).outcomes = [.returned (.bool true)] ∧
    (after (.isTrailerBlock 256) State.reset).outcomes = [.returned (.bool false)] := by decide +kernel

/-- W3. -/
theorem test_ensure16Bytes :
    (after (.ensure16Bytes [0x01, 0x02]) State.reset).outcomes =
      [.returned (.bytes [0x01, 0x02, 0, 0, 0, 0, 0, 0, 0, 0, 0, 0, 0, 0, 0, 0])] ∧
    (after (.ensure16Bytes (block0 ++ [0x10])) State.reset).outcomes = [.returned (.bytes block0)] := by decide +kernel

/-- R83 to R86: the echo is ignored. -/
theorem test_exchange_rows :
    runs (.spiWriteByte 0x01 0x0C) [wr [0x02, 0x0C]] [] (.returned .unit) = true ∧
    (after (.spiReadByte 0x04) (ready [.reply [0xFF, 0x21]] [])).outcomes = [.returned (.byte 0x21)] ∧
    runs (.spiBurstWrite 0x09 [0x93, 0x20]) [wr [0x12, 0x93, 0x20]] [] (.returned .unit) = true := by decide +kernel

/-- R88. -/
theorem test_command_rows :
    runs .cmdIdle [wr [0x02, 0x00]] [] (.returned .unit) = true ∧
    runs .cmdCalcCrc [wr [0x02, 0x03]] [] (.returned .unit) = true ∧
    runs .cmdTransceive [wr [0x02, 0x0C]] [] (.returned .unit) = true ∧
    runs .cmdMfAuthent [wr [0x02, 0x0E]] [] (.returned .unit) = true ∧
    runs .cmdSoftReset [wr [0x02, 0x0F]] [] (.returned .unit) = true := by decide +kernel

/-- R92, V-ENC-4. -/
theorem test_frame_rows :
    runs .piccReqa (trxTrace [0x26] 7 80 [0x04, 0x00] 0) [0]
      (.returned (.transceived ⟨[0x04, 0x00], 0, some 0, 0x30, .noNote⟩)) = true ∧
    runs .piccAnticoll (trxTrace [0x93, 0x20] 0 80 [0x01] 0) [0]
      (.returned (.transceived ⟨[0x01], 0, some 0, 0x30, .noNote⟩)) = true ∧
    runs (.piccSelect uid0 0xB9 0x9C) (trxTrace ([0x93, 0x70] ++ uid0 ++ [0x22, 0xB9, 0x9C]) 0 80 [0x08] 0) [0]
      (.returned (.transceived ⟨[0x08], 0, some 0, 0x30, .noNote⟩)) = true ∧
    runs (.mfRead 0x08 0x4A 0x24) (trxTrace [0x30, 0x08, 0x4A, 0x24] 0 250 [0x01] 0) [0]
      (.returned (.transceived ⟨[0x01], 0, some 0, 0x30, .noNote⟩)) = true ∧
    runs (.mfWrite 0x08 0x17 0x3D) (trxTrace [0xA0, 0x08, 0x17, 0x3D] 0 250 [0x0A] 4) [0]
      (.returned (.transceived ⟨[0x0A], 4, some 0, 0x30, .noNote⟩)) = true := by decide +kernel

theorem test_auth_row :
    runs (.mfAuthKeyA 0x08 key0 uid0) (authStart ++ [rd 0x88 0x10, rd 0x8C 0x00, rd 0x90 0x08]) [0] (.returned .unit) =
      true := by decide +kernel

theorem test_ack_row : runs (.mfAck 0x3 true) [] [] (.returned (.bool true)) = true := by decide +kernel

/-! ## The chip as the spec describes it -/

/-- The fields of every register of R29 to R39 cover its eight bits once. -/
theorem test_fields_tile :
    chipRegs.all (fun r => chipFields r == [] || tiles 8 (chipFields r)) = true := by decide +kernel

/-- R27: 50 named and 14 reserved addresses are the 64 addresses, each once. -/
theorem test_register_map :
    chipRegs.length = 50 ∧ (chipRegs.map (chipRegAddr Cfg.default.reg)).Nodup ∧
    reservedAddrs Cfg.default.reg =
      [0x00, 0x0F, 0x10, 0x1A, 0x1B, 0x1E, 0x20, 0x23, 0x25, 0x30, 0x3C, 0x3D, 0x3E, 0x3F] := by decide +kernel

/-- V-ENC-5: 50 00 gives 57 CD; with preset 0xFFFF, 12 34 gives 3E 21. -/
theorem test_crc_a :
    crcA [0x50, 0x00] = [0x57, 0xCD] ∧ crcA [] = [0x63, 0x63] ∧ crcBytes (crc16 0xFFFF [0x12, 0x34]) = [0x3E, 0x21] := by
  simp [crcA, crcBytes, crc16, crcByte, crcBit]

/-- R39: most significant bit first, preset 0: 01 leaves the polynomial 0x1021. -/
theorem test_crc_msb_first : crcStep 0x80 0x0000 0x01 = 0x1021 := by decide +kernel

/-- A reference chip whose registers hold one value. -/
def chipOf (v : Byte) : RefChip := { cfg := Cfg.default, regs := List.replicate 64 v, fifo := [], draws := 0 }

/-- R28, R32, R33, R36, R38, R41: a write leaves read-only and dynamic bits as they were, and holds the others. -/
theorem test_chip_write_access :
    chipReg (chipWrite (chipOf 0x00) 0x06 0xFF) 0x06 = 0x00 ∧ chipReg (chipWrite (chipOf 0x00) 0x08 0xFF) 0x08 = 0xC0 ∧
    chipReg (chipWrite (chipOf 0xA0) 0x0E 0x1F) 0x0E &&& 0xBF = 0x20 ∧
    chipReg (chipWrite (chipOf 0x12) 0x21 0xFF) 0x21 = 0x12 ∧
    chipReg (chipWrite (chipOf 0x00) 0x0C 0xC7) 0x0C &&& 0xC7 = 0x00 := by decide +kernel

/-- R28, R36, R37: a write-only bit reads 0, `StartSend` reads back, whatever the reserved bits read. -/
theorem test_chip_read_access :
    bitsAt Cfg.default.reg accessReadsZero 0x0C = 0xC0 ∧ bitsAt Cfg.default.reg accessReads 0x0C = 0x07 ∧ bitsAt Cfg.default.reg accessReads 0x0D = 0xF7 ∧
    bitsAt Cfg.default.reg accessReads 0x00 = 0x00 ∧ bitsAt Cfg.default.reg accessReads 0x37 = 0x00 := by decide +kernel

/-- R35: a flush empties the FIFO and clears `BufferOvfl`; R32: a write when full sets it. -/
theorem test_chip_flush :
    (chipWrite { chipOf 0x10 with fifo := [1, 2] } 0x0A 0x80).fifo = [] ∧
    chipReg (chipWrite (chipOf 0x10) 0x0A 0x80) 0x06 = 0x00 ∧
    chipReg (chipWrite { chipOf 0x00 with fifo := List.replicate 64 0 } 0x09 0x01) 0x06 = 0x10 := by decide +kernel

/-- R38: after a reset bits 7:5 of `CollReg` are 101, whatever the others are. -/
theorem test_chip_coll_reset (n : Nat) : resetByte Cfg.default.reg n 0x0E &&& 0xE0 = 0xA0 := by
  have h : ∀ p : Byte, ((0xA0 &&& 0xE0) ||| (p &&& ~~~0xE0)) &&& 0xE0 = (0xA0 : Byte) := by decide +kernel
  exact h (Config.freeChipReset n 0x0E)

/-- R80, R81, R87: no reply to a reserved bit or to a read of three bytes. -/
theorem test_chip_no_reply :
    chipServe (chipOf 0) [0x0D, 0x00] = none ∧ chipServe (chipOf 0) [0x92, 0x00, 0x00] = none := by decide +kernel

/-- R88: the ten codes, and a reserved one. -/
theorem test_chip_commands :
    [0x0, 0x1, 0x2, 0x3, 0x4, 0x7, 0x8, 0xC, 0xE, 0xF, 0xD].map (chipCommandOf Cfg.default.cmd) =
      [some .idle, some .mem, some .generateRandomId, some .calcCrc, some .transmit, some .noCmdChange, some .receive,
       some .transceive, some .mfAuthent, some .softReset, none] := by decide +kernel

/-- R237: hex strings, the '0x'-prefixed SAK, the host's timestamp. -/
theorem test_upward_data :
    let now : Timestamp := ⟨['r', 't', 'c'], ['s'], 7⟩
    let r : CycleReport := ⟨⟨⟨0x04, 0x00⟩, ⟨0xDE, 0xAD, 0xBE, 0xEF⟩, some 0x08⟩, some (8, [0x0A, 0xFF]), none, none⟩
    upwardData ⟨true, []⟩ now r =
      ⟨['D', 'E', 'A', 'D', 'B', 'E', 'E', 'F'], some ['0', 'x', '0', '8'], ['0', '4', '0', '0'], now, some 8,
        some ['0', 'A', 'F', 'F'], none, none⟩ ∧
    hexText ⟨false, [':']⟩ [0xDE, 0xAD] = ['d', 'e', ':', 'a', 'd'] := by decide +kernel

/-- R42: the period of the default init values is (2·3390 + 1)·31 cycles of 13.56 MHz, about 15.5 ms. -/
theorem test_timer : timerCycles 0x8D 0x3E 0x00 0x1E = 6781 * 31 := by decide +kernel

/-- R240, R96. -/
theorem test_boundary :
    writeAllowed 0 = false ∧ writeAllowed 3 = false ∧ writeAllowed 8 = true ∧ frameBits 1 7 = 7 ∧ frameBits 9 0 = 72 := by
  decide +kernel

/-! ## Witnesses: for each statement with hypotheses, a state and operands that meet them -/

/-- Every instruction answers a next state. -/
theorem exec_after (i : Instr) (s : State) : exec i s = .next (after i s) := by cases i <;> rfl

/-- A ready state whose environment is about to answer as the dialogue says. -/
def facing {α : Type} (d : Dialogue α) : State := ready (answersOf d.events) d.expiries

theorem given_facing {α : Type} (d : Dialogue α) : Given d (facing d) := ⟨List.prefix_rfl, List.prefix_rfl⟩

theorem canCard_facing {α : Type} (d : Dialogue α) : CanCard (facing d) := ⟨⟨rfl, rfl⟩, rfl⟩

/-- An echo of zeros. -/
def zeros : Noise := fun _ _ => 0

/-- A poll that ends at its first read. -/
def hit (v : Byte) : Poll := ⟨[], 0, v, 0⟩

/-- A CRC whose poll ends with the value. -/
def crcRun (v : Byte) : CrcRun := ⟨zeros, hit v, 0x4A, 0x24⟩

/-- An answer of up to 127 bytes, or none. -/
def answer (irq err : Byte) (data : List Byte) (control : Byte) : Reception :=
  ⟨zeros, hit irq, 0x07, 0x87, err, BitVec.ofNat 8 (data.take 127).length, (data.take 127).map (fun b => (0, b)), control⟩

/-- An authentication whose poll ends with the value. -/
def authRun (irq err status2 : Byte) : AuthRun := ⟨zeros, hit irq, err, status2⟩

theorem hit_ok (stop v : Byte) : (hit v).Ok stop := ⟨by simp [hit], fun _ => rfl, Nat.le_refl _⟩

theorem crcRun_ok (v : Byte) : (crcRun v).Ok Cfg.default := hit_ok _ v

theorem authRun_ok (irq err status2 : Byte) : (authRun irq err status2).Ok Cfg.default := hit_ok _ irq

theorem answer_ok (irq err : Byte) (data : List Byte) (control : Byte) : (answer irq err data control).Ok Cfg.default := by
  refine ⟨hit_ok _ irq, ?_⟩
  have h : ∀ n ≤ 127, n = (BitVec.ofNat 8 n &&& 0x7F).toNat := by decide
  have hl : (data.take 127).length ≤ 127 := by simp
  rw [show (answer irq err data control).reads = (data.take 127).map (fun b => ((0 : Byte), b)) from rfl, List.length_map]
  exact h _ hl

/-- How a poll ends: a completion, the timer, the deadline. -/
def exits : List Byte := [0x30, 0x01, 0x00]

theorem witness_DecodeOfEncode :
    Cfg.default.CodesDistinct ∧ (Instr.isTrailerBlock (2 ^ 32 - 1)).wf = true ∧ (Instr.ensure16Bytes (List.replicate 255 0)).wf = true ∧
    (Instr.spiBurstWrite 0x3F []).wf = true ∧ (Instr.piccSelect uid0 0xB9 0x9C).wf = true := by decide +kernel

theorem witness_EncodeOfDecode :
    decode Cfg.default .hostCall [0x13, 0xFF, 0xFF, 0xFF, 0xFF] = .ok (.isTrailerBlock (2 ^ 32 - 1)) ∧
    decode Cfg.default .exchange [0x7E] = .ok (.spiBurstWrite 0x3F []) ∧ decode Cfg.default .cardAnswer [0xFA, 0] = .ok (.mfAck 0xF false) := by
  decide +kernel

theorem witness_SpecWordsDecode : State.reset.cfg = Cfg.default := rfl

theorem witness_OperationIdentifiers :
    decode Cfg.default .hostCall (0x01 :: List.replicate 12 0) = .ok (.openTransport 0 0 0) ∧
    decode Cfg.default .hostCall (0x15 :: []) = .ok .detectCard := by decide +kernel

/-- A state with one call waiting. -/
def waiting (c : Call) : State := { ready [] [] with calls := [c] }

theorem witness_StepRunsDecoded :
    (waiting ⟨.hostCall, [0x02], false⟩).calls = ⟨.hostCall, [0x02], false⟩ :: [] ∧
    decode Cfg.default .hostCall [0x02] = .ok .close ∧ (waiting ⟨.exchange, [0x88, 0x00], true⟩).calls ≠ [] ∧
    decode Cfg.default .exchange [0x88, 0x00] = .ok (.spiReadByte 0x04) ∧ State.reset.calls = [] := by decide +kernel

theorem witness_UnknownWordRefused :
    decode Cfg.default .hostCall [0x16] = .error (.unknownIdentifier 0x16) ∧ decode Cfg.default .hostCall [] = .error .empty ∧
    (waiting ⟨.hostCall, [0x16], false⟩).calls = ⟨.hostCall, [0x16], false⟩ :: [] ∧
    (waiting ⟨.hostCall, [], true⟩).calls = ⟨.hostCall, [], true⟩ :: [] := by decide +kernel

theorem witness_StepKeepsInv :
    StateInv (waiting ⟨.hostCall, [0x02], false⟩) ∧
    step (waiting ⟨.hostCall, [0x02], false⟩) =
      .next (after .close { waiting ⟨.hostCall, [0x02], false⟩ with calls := [] }) := by
  exact ⟨by decide +kernel, rfl⟩

theorem witness_EveryCallEnds : (after .close State.reset).outcomes = State.reset.outcomes ++ [.returned .unit] := by
  decide +kernel

/-- A `readFifoBytes` on a closed handle. -/
theorem witness_RefusalChangesNothing :
    exec (.readFifoBytes 3) State.reset = .next (after (.readFifoBytes 3) State.reset) ∧
    (after (.readFifoBytes 3) State.reset).outcomes = State.reset.outcomes ++ [.refused .notOpen] :=
  ⟨exec_after _ _, by decide +kernel⟩

theorem witness_RefusedMarkStays :
    exec .flushFifo State.reset = .next (after .flushFifo State.reset) ∧
    step { State.reset with refused := true } = .next { State.reset with refused := true } ∧
    ({ State.reset with refused := true } : State).refused = true := ⟨exec_after _ _, rfl, rfl⟩

/-- A transport error, and an error that is none. -/
theorem witness_ErrorEntry :
    exec (.readRegister 0x3F) (ready [.fail 1] []) = .next (after (.readRegister 0x3F) (ready [.fail 1] [])) ∧
    (after (.readRegister 0x3F) (ready [.fail 1] [])).outcomes = [] ++ [.raised (.transportError (.external 1))] ∧
    exec (.mifareAuthKeyA 255 [] uid0) (ready [] []) = .next (after (.mifareAuthKeyA 255 [] uid0) (ready [] [])) ∧
    (after (.mifareAuthKeyA 255 [] uid0) (ready [] [])).outcomes = [] ++ [.raised (.invalidKeyLength 0)] :=
  ⟨exec_after _ _, by decide +kernel, exec_after _ _, by decide +kernel⟩

/-- A reply one byte short in the second of three exchanges. -/
theorem witness_FailedExchangeIsLast :
    let s := ready [.reply [0, 0x11], .reply [0]] []
    exec (.readFifoBytes 3) s = .next (after (.readFifoBytes 3) s) ∧
    (after (.readFifoBytes 3) s).events = s.events ++ [rd 0x92 0x11] ++ .exchange [0x92, 0x00] (.reply [0]) :: [] ∧
    failureOf (.exchange [0x92, 0x00] (.reply [0])) = some .lengthMismatch ∧
    (after (.readFifoBytes 3) s).outcomes = s.outcomes ++ [.raised (.transportError .lengthMismatch)] :=
  ⟨exec_after _ _, by decide +kernel, by decide +kernel, by decide +kernel⟩

theorem witness_HistoryOnlyGrows :
    exec .flushFifo (ready [.reply [0, 0]] []) = .next (after .flushFifo (ready [.reply [0, 0]] [])) := exec_after _ _

/-- The handle changes, the phase changes, the phase becomes `Ready`. -/
theorem witness_LifecycleChanges :
    (exec .close (ready [] []) = .next (after .close (ready [] [])) ∧
      (after .close (ready [] [])).handle ≠ (ready [] []).handle) ∧
    (exec .softReset (ready [.reply [0, 0]] []) = .next (after .softReset (ready [.reply [0, 0]] [])) ∧
      (after .softReset (ready [.reply [0, 0]] [])).phase ≠ (ready [] []).phase) ∧
    (exec .init (opened (answersOf initTrace)) = .next (after .init (opened (answersOf initTrace))) ∧
      (after .init (opened (answersOf initTrace))).phase = .ready) := by
  exact ⟨⟨exec_after _ _, by decide +kernel⟩, ⟨exec_after _ _, by decide +kernel⟩, exec_after _ _, by decide +kernel⟩

theorem witness_NoShadowState :
    let s := ready [.reply [0, 0x92]] []
    let s' : State := { s with events := [rd 0x94 0x01], outcomes := [.returned (.count 1)], refused := true }
    SameButRecord s s' ∧ exec .fifoLevel s = .next (after .fifoLevel s) ∧
      exec .fifoLevel s' = .next (after .fifoLevel s') := ⟨rfl, exec_after _ _, exec_after _ _⟩

theorem witness_PreconditionOrder :
    (Instr.detectCard.layer = .hostCall ∧ ({ ready [] [] with busy := true } : State).busy = true) ∧
    (State.reset.busy = false ∧ State.reset.handle = .closed ∧ needsHandle .init = true) ∧
    (CanCall (opened []) ∧ (opened []).phase ≠ .ready ∧ isCardOperation (.mifareReadBlock 256) = true) := by
  decide +kernel

theorem witness_OperandRefusals :
    CanCard (ready [] []) ∧ 63 < (0x40 : Byte).toNat ∧ 63 < (0xFF : Byte).toNat ∧
    7 < (8 : Byte).toNat ∧ (7 : Byte).toNat ≤ 7 ∧ 64 < (List.replicate 65 (0 : Byte)).length ∧ 255 < 256 ∧
    (uid0.take 3).length ≠ 4 ∧ (uid0 ++ [0]).length ≠ 4 ∧ 255 ≤ 255 := by decide +kernel

theorem witness_InvalidKeyLength :
    CanCard (ready [] []) ∧ 255 ≤ 255 ∧ uid0.length = 4 ∧ (key0.take 5).length ≠ 6 ∧ (key0 ++ [0]).length ≠ 6 ∧
    exec (.mifareAuthKeyA 255 (key0.take 5) uid0) (ready [] []) =
      .next (after (.mifareAuthKeyA 255 (key0.take 5) uid0) (ready [] [])) ∧
    (after (.mifareAuthKeyA 255 (key0.take 5) uid0) (ready [] [])).outcomes = [] ++ [.raised (.invalidKeyLength 5)] :=
  ⟨by decide +kernel, by decide, by decide, by decide, by decide, exec_after _ _, by decide +kernel⟩

theorem witness_OpenTransport :
    (State.reset.busy = false ∧ State.reset.handle = .closed) ∧
    ((ready [] []).busy = false ∧ (ready [] []).handle ≠ .closed) := by decide

theorem witness_CloseTransport :
    ((ready [] []).busy = false ∧ (ready [] []).handle ≠ .closed) ∧
    (State.reset.busy = false ∧ State.reset.handle = .closed) := by decide

theorem witness_RegisterOperations : CanCall (opened []) ∧ 63 < (0x40 : Byte).toNat := by decide

theorem witness_FlushAndLevel : CanCall (opened []) := by decide

/-- No byte, and two. -/
theorem witness_ReadFifoBytes :
    ∀ reads ∈ [[], [((0 : Byte), (0x08 : Byte)), (0xFF, 0xB6)]],
      CanCall (facing (fifoTalk Cfg.default reads)) ∧
      Given (fifoTalk (facing (fifoTalk Cfg.default reads)).cfg reads) (facing (fifoTalk Cfg.default reads)) :=
  fun _ _ => ⟨(canCard_facing _).1, given_facing _⟩

theorem witness_ExchangeForms : isOpen (opened []).handle = true := by decide

theorem witness_ChipCommands : isOpen (opened []).handle = true := by decide

theorem witness_ReadModifyWrite :
    let d := changeTalk 0x3F (fun v => v ||| 0x80) zeros 0x07
    let d' := changeTalk 0x3F (fun v => v &&& ~~~0x80) zeros 0xA0
    (isOpen (facing d).handle = true ∧ Given d (facing d)) ∧ isOpen (facing d').handle = true ∧ Given d' (facing d') :=
  ⟨⟨rfl, given_facing _⟩, rfl, given_facing _⟩

/-- A bit at once, a bit after two quiet reads, the deadline at its first test, and a mask of no bit. -/
def polls : List (Poll × Byte) :=
  [(⟨[], 0, 0x04, 7⟩, 0x04), (⟨[(0, 0), (9, 0xFB)], 0, 0x04, 2⟩, 0x04), (hit 0x00, 0x04), (hit 0xFF, 0x00)]

theorem polls_ok : ∀ x ∈ polls, x.1.Ok x.2 := by
  simp [polls, hit, Poll.Ok]
  rintro a b (⟨-, rfl⟩ | ⟨-, rfl⟩) <;> rfl

theorem witness_PollUntil :
    ∀ x ∈ polls,
      isOpen (facing (pollTalk 0x05 x.2 50 x.1)).handle = true ∧ x.1.Ok x.2 ∧
      Given (pollTalk 0x05 x.2 50 x.1) (facing (pollTalk 0x05 x.2 50 x.1)) :=
  fun x hx => ⟨rfl, polls_ok x hx, given_facing _⟩

/-- Both drivers on, and one of them. -/
theorem witness_AntennaOn :
    ∀ v ∈ [(0x83 : Byte), 0x82],
      isOpen (facing (antennaTalk Cfg.default zeros v)).handle = true ∧
      Given (antennaTalk (facing (antennaTalk Cfg.default zeros v)).cfg zeros v) (facing (antennaTalk Cfg.default zeros v)) :=
  fun _ _ => ⟨rfl, given_facing _⟩

/-- A CRC of 64 bytes and of none; a result and a timeout. -/
theorem witness_CalcCrc :
    ∀ v ∈ [(0x04 : Byte), 0x00],
      (let d := crcTalk Cfg.default (List.replicate 64 0) (crcRun v)
       CanCall (facing d) ∧ (List.replicate 64 (0 : Byte)).length ≤ 64 ∧ (crcRun v).Ok (facing d).cfg ∧
         Given d (facing d)) ∧
      (let d := crcTalk Cfg.default [] (crcRun v)
       CanCall (facing d) ∧ ([] : List Byte).length ≤ 64 ∧ (crcRun v).Ok (facing d).cfg ∧ Given d (facing d)) :=
  fun v _ => ⟨⟨(canCard_facing _).1, by simp, crcRun_ok v, given_facing _⟩,
    (canCard_facing _).1, by simp, crcRun_ok v, given_facing _⟩

/-- Every exit, an error bit or none, with a frame of one byte and of 64. -/
theorem witness_Transceive :
    ∀ irq ∈ exits, ∀ err ∈ [(0x00 : Byte), 0x08],
      (let d := transceiveTalk Cfg.default [0x26] 7 80 (answer irq err [0x04, 0x00] 0)
       CanCall (facing d) ∧ (7 : Byte).toNat ≤ 7 ∧ 1 ≤ [(0x26 : Byte)].length ∧ [(0x26 : Byte)].length ≤ 64 ∧
         (answer irq err [0x04, 0x00] 0).Ok (facing d).cfg ∧ Given d (facing d)) ∧
      (let d := transceiveTalk Cfg.default (List.replicate 64 0) 0 400 (answer irq err [0x0A] 4)
       CanCall (facing d) ∧ (0 : Byte).toNat ≤ 7 ∧ 1 ≤ (List.replicate 64 (0 : Byte)).length ∧
         (List.replicate 64 (0 : Byte)).length ≤ 64 ∧ (answer irq err [0x0A] 4).Ok (facing d).cfg ∧ Given d (facing d)) :=
  fun irq _ err _ => ⟨⟨(canCard_facing _).1, by decide, by decide, by decide, answer_ok _ _ _ _, given_facing _⟩,
    (canCard_facing _).1, by decide, by simp, by simp, answer_ok _ _ _ _, given_facing _⟩

/-- Two bytes, and one more or fewer; every exit. -/
theorem witness_RequestA :
    ∀ irq ∈ exits, ∀ data ∈ [[(0x04 : Byte), 0x00], [0x04], [0x04, 0x00, 0x00]],
      let d := (transceiveTalk Cfg.default [Cfg.default.card.reqa] 7 80 (answer irq 0 data 0)).andThen fun res =>
        Dialogue.says [] (match res.data with
          | [b0, b1] => Value.atqa ⟨b0, b1⟩
          | _ => .absent)
      CanCard (facing d) ∧ (answer irq 0 data 0).Ok (facing d).cfg ∧ Given d (facing d) :=
  fun _ _ _ _ => ⟨canCard_facing _, answer_ok _ _ _ _, given_facing _⟩

/-- A check byte that matches, one that does not, and four bytes; every exit. -/
theorem witness_AnticollCL1 :
    ∀ irq ∈ exits, ∀ data ∈ [uid0 ++ [0x22], uid0 ++ [0x23], uid0],
      let d := (anticollTalk Cfg.default zeros 0xA0 (answer irq 0 data 0)).andThen fun res =>
        Dialogue.says [] (match res.data with
        | u0 :: u1 :: u2 :: u3 :: c :: _ => if u0 ^^^ u1 ^^^ u2 ^^^ u3 = c then Value.uid ⟨u0, u1, u2, u3⟩ else .absent
        | _ => .absent)
      CanCard (facing d) ∧ (answer irq 0 data 0).Ok (facing d).cfg ∧ Given d (facing d) :=
  fun _ _ _ _ => ⟨canCard_facing _, answer_ok _ _ _ _, given_facing _⟩

/-- A CRC and a timeout; a SAK and no byte; every exit. -/
theorem witness_SelectCL1 :
    ∀ v ∈ [(0x04 : Byte), 0x00], ∀ irq ∈ exits, ∀ data ∈ [[(0x08 : Byte), 0xB6, 0xDD], []],
      let d := (crcFrameTalk Cfg.default [0x93, 0x70, 0xDE, 0xAD, 0xBE, 0xEF, 0x22] 80 (crcRun v)
          (answer irq 0 data 0)).andThen fun res =>
        Dialogue.says [] (match res.data with
          | k :: _ => Value.sak k
          | [] => .absent)
      CanCard (facing d) ∧ (crcRun v).Ok (facing d).cfg ∧ (answer irq 0 data 0).Ok (facing d).cfg ∧ Given d (facing d) :=
  fun _ _ _ _ _ _ => ⟨canCard_facing _, crcRun_ok _, answer_ok _ _ _ _, given_facing _⟩

/-- The crypto bit set or clear, an error bit or none, after every exit of the poll. -/
theorem witness_MifareAuthKeyA :
    ∀ irq ∈ [(0x10 : Byte), 0x01, 0x00], ∀ err ∈ [(0x00 : Byte), 0x01], ∀ status2 ∈ [(0x08 : Byte), 0xF7],
      let d := authTalk Cfg.default ([Cfg.default.card.authKeyA, 0xFF] ++ key0 ++ uid0) (authRun irq err status2)
      CanCard (facing d) ∧ key0.length = 6 ∧ uid0.length = 4 ∧ (authRun irq err status2).Ok (facing d).cfg ∧
        Given d (facing d) :=
  fun _ _ _ _ _ _ => ⟨canCard_facing _, rfl, rfl, authRun_ok _ _ _, given_facing _⟩

/-- A CRC and a timeout; fifteen, sixteen and eighteen bytes; every exit. -/
theorem witness_MifareReadBlock :
    ∀ v ∈ [(0x04 : Byte), 0x00], ∀ irq ∈ exits, ∀ data ∈ [block0.take 15, block0, block0 ++ [0xCC, 0x69]],
      let d := (crcFrameTalk Cfg.default [0x30, 0xFF] 250 (crcRun v) (answer irq 0 data 0)).andThen fun res =>
        if res.data.length < 16 then .fails [] (.shortRead res.data.length) else .says [] (res.data.take 16)
      CanCard (facing d) ∧ (crcRun v).Ok (facing d).cfg ∧ (answer irq 0 data 0).Ok (facing d).cfg ∧ Given d (facing d) :=
  fun _ _ _ _ _ _ => ⟨canCard_facing _, crcRun_ok _, answer_ok _ _ _ _, given_facing _⟩

/-- An ACK or a NAK in either phase; a payload of no byte, of 16 and of 17. -/
theorem witness_MifareWriteBlock :
    ∀ payload ∈ [[], block0, block0 ++ [0x10]], ∀ a1 ∈ [(0x0A : Byte), 0x04], ∀ a2 ∈ [(0xFA : Byte), 0x04],
      let data := payload.take 16 ++ List.replicate (16 - min 16 payload.length) 0x00
      let d := (phaseTalk Cfg.default 1 [0xA0, 0xFF] 250 (crcRun 0x04) (answer 0x30 0 [a1] 4)).andThen fun _ =>
        phaseTalk Cfg.default 2 data 400 (crcRun 0x04) (answer 0x30 0 [a2] 0)
      CanCard (facing d) ∧ (crcRun 0x04).Ok (facing d).cfg ∧ (answer 0x30 0 [a1] 4).Ok (facing d).cfg ∧
        (answer 0x30 0 [a2] 0).Ok (facing d).cfg ∧ Given d (facing d) :=
  fun _ _ _ _ _ _ => ⟨canCard_facing _, crcRun_ok _, answer_ok _ _ _ _, answer_ok _ _ _ _, given_facing _⟩

/-- Answered, failed, and answered with a wrong length. -/
theorem witness_SoftReset :
    (CanCall (ready [.reply [0, 0]] []) ∧ nextAnswer (ready [.reply [0, 0]] []) [0x02, 0x0F] = .reply [0, 0] ∧
      [(0 : Byte), 0].length = 2) ∧
    exchangeEnd [0x02, 0x0F] (nextAnswer (ready [.fail 1] []) [0x02, 0x0F]) = .error (.external 1) ∧
    exchangeEnd [0x02, 0x0F] (nextAnswer (ready [.reply [0]] []) [0x02, 0x0F]) = .error .lengthMismatch :=
  ⟨by decide +kernel, rfl, rfl⟩

/-- The drivers off, and on already. -/
theorem witness_InitChip :
    ∀ v ∈ [(0x80 : Byte), 0x83],
      let s : State := { facing (initTalk Cfg.default zeros zeros v) with phase := .opened }
      CanCall s ∧ s.phase ≠ .ready ∧ Given (initTalk s.cfg zeros zeros v) s := by decide +kernel

theorem witness_IsTrailerBlock : State.reset.busy = false := by decide

theorem witness_EnsureSixteenBytes : State.reset.busy = false ∧ block0.length = 16 := by decide

/-- A whole cycle, and one that ends at each stage. -/
theorem witness_DetectCard :
    ∀ irq1 ∈ exits, ∀ irq2 ∈ exits, ∀ irq3 ∈ exits,
      let r1 := answer irq1 0 [0x04, 0x00] 0
      let r2 := answer irq2 0 (uid0 ++ [0x22]) 0
      let r3 := answer irq3 0 [0x08, 0xB6, 0xDD] 0
      let c := Cfg.default
      let d : Dialogue Value := (transceiveTalk c [c.card.reqa] 7 80 r1).andThen fun a => match atqaOf a.data with
        | none => .says [] .absent
        | some atqa => (anticollTalk c zeros 0xA0 r2).andThen fun u => match uidOf u.data with
          | none => .says [] .absent
          | some uid =>
            (crcFrameTalk c ([c.card.selCl1, c.card.nvbSelect] ++ uidBytes uid ++ [bcc (uidBytes uid)]) 80
              (crcRun 0x04) r3).andThen fun k => .says [] (.card { atqa := atqa, uid := uid, sak := sakOf k.data })
      CanCard (facing d) ∧ r1.Ok (facing d).cfg ∧ r2.Ok (facing d).cfg ∧ (crcRun 0x04).Ok (facing d).cfg ∧
        r3.Ok (facing d).cfg ∧ Given d (facing d) :=
  fun _ _ _ _ _ _ => ⟨canCard_facing _, answer_ok _ _ _ _, answer_ok _ _ _ _, crcRun_ok _, answer_ok _ _ _ _,
    given_facing _⟩

/-- Inside an operation (busy) and outside; every row, every exit. -/
theorem witness_CardFrames :
    ∀ b ∈ [false, true], ∀ irq ∈ exits,
    ∀ row ∈ [([(0x26 : Byte)], (7 : Byte), 80), ([0x93, 0x20], 0, 80),
        ([0x93, 0x70, 0xDE, 0xAD, 0xBE, 0xEF, 0x22, 0xB9, 0x9C], 0, 80), ([0x30, 0xFF, 0, 0], 0, 250),
        ([0xA0, 0xFF, 0, 0], 0, 250)],
      let r := answer irq 0 [0x0A] 4
      let d := transceiveTalk Cfg.default row.1 row.2.1 row.2.2 r
      let s : State := { facing d with busy := b }
      isOpen s.handle = true ∧ r.Ok s.cfg ∧ Given d s :=
  fun _ _ _ _ _ _ => ⟨rfl, answer_ok _ _ _ _, List.prefix_rfl, List.prefix_rfl⟩

theorem witness_MfAuthInput :
    ∀ b ∈ [false, true], ∀ err ∈ [(0x00 : Byte), 0x01], ∀ status2 ∈ [(0x08 : Byte), 0xF7],
      let d := authTalk Cfg.default ([0x60, 0xFF] ++ key0 ++ uid0) (authRun 0x10 err status2)
      let s : State := { facing d with busy := b }
      isOpen s.handle = true ∧ key0.length = 6 ∧ uid0.length = 4 ∧ (authRun 0x10 err status2).Ok s.cfg ∧ Given d s :=
  fun _ _ _ _ _ _ => ⟨rfl, rfl, rfl, authRun_ok _ _ _, List.prefix_rfl, List.prefix_rfl⟩

theorem witness_AckTest : State.reset.cfg.card.ack.toNat < 16 ∧ (0x0F : Byte).toNat < 16 := by decide

theorem witness_LoadsFlushed :
    (ready [] []).cfg = Cfg.default ∧ isRaw .requestA = false ∧
    exec .requestA (ready [.fail 1] []) = .next (after .requestA (ready [.fail 1] [])) := ⟨rfl, rfl, exec_after _ _⟩

theorem witness_SettleKept :
    (opened []).cfg = Cfg.default ∧ isRaw .init = false ∧ Instr.init ≠ .cmdSoftReset ∧
    exec .init (opened (answersOf initTrace)) = .next (after .init (opened (answersOf initTrace))) :=
  ⟨rfl, rfl, by decide, exec_after _ _⟩

theorem witness_WritesListed :
    let s := ready (answersOf (wr [0x02, 0x00] :: [wr [0x08, 0x7F]])) []
    isRaw .requestA = false ∧ exec .requestA { s with answers := s.answers ++ [.fail 1] } =
      .next (after .requestA { s with answers := s.answers ++ [.fail 1] }) ∧
    wr [0x02, 0x00] ∈ newEvents s (after .requestA { s with answers := s.answers ++ [.fail 1] }) ∧
    Instr.requestA ≠ .init ∧ Instr.requestA ≠ .antennaOn ∧ writtenReg (wr [0x02, 0x00]) = some 0x01 :=
  ⟨rfl, exec_after _ _, by decide +kernel, by decide, by decide, by decide⟩

/-- A chip that answers phase 1 of a write with a NAK. -/
def nakState : State := facing (phaseTalk Cfg.default 1 [0xA0, 0xFF] 250 (crcRun 0x04) (answer 0x30 0 [0x04] 4))

/-- A chip that answers both phases of a write with an ACK. -/
def ackState : State :=
  facing ((phaseTalk Cfg.default 1 [0xA0, 0xFF] 250 (crcRun 0x04) (answer 0x30 0 [0x0A] 4)).andThen fun _ =>
    phaseTalk Cfg.default 2 block0 400 (crcRun 0x04) (answer 0x30 0 [0x0A] 0))

/-- The exchanges of that whole write. -/
def writeEvents : List Event := newEvents ackState (after (.mifareWriteBlock 255 block0) ackState)

/-- A NAK in phase 1, and a whole write, whose third FIFO load is the payload. -/
theorem witness_PayloadOnlyAfterAck :
    (exec (.mifareWriteBlock 255 block0) nakState = .next (after (.mifareWriteBlock 255 block0) nakState) ∧
      (after (.mifareWriteBlock 255 block0) nakState).outcomes = [] ++ [.raised (.writeNotAcked 1 [0x04] 4)]) ∧
    (exec (.mifareWriteBlock 255 block0) ackState = .next (after (.mifareWriteBlock 255 block0) ackState) ∧
      (after (.mifareWriteBlock 255 block0) ackState).outcomes = [] ++ [.returned .unit]) ∧
    (writeEvents.take 28 ++ wr (0x12 :: block0) :: writeEvents.drop 29 == writeEvents) = true ∧
    (loadsOf Cfg.default (writeEvents.take 28)).length = 2 ∧ (loadOf Cfg.default (wr (0x12 :: block0))).isSome = true :=
  ⟨⟨exec_after _ _, by decide +kernel⟩, ⟨exec_after _ _, by decide +kernel⟩, by decide +kernel, by decide +kernel,
    by decide +kernel⟩

/-- A CRC timeout of a block read, of phase 2 of a block write and of a card detection. -/
theorem witness_CrcTimeoutSendsNoFrame :
    let late : Dialogue Unit := (phaseTalk Cfg.default 1 [0xA0, 0x08] 250 (crcRun 0x04) (answer 0x30 0 [0x0A] 4)).andThen
      fun _ => (crcTalk Cfg.default block0 (crcRun 0x00)).andThen fun _ => .says [] ()
    let found : Dialogue Unit :=
      ((transceiveTalk Cfg.default [0x26] 7 80 (answer 0x30 0 [0x04, 0x00] 0)).andThen fun _ =>
        (anticollTalk Cfg.default zeros 0xA0 (answer 0x30 0 (uid0 ++ [0x22]) 0)).andThen fun _ =>
          (crcTalk Cfg.default ([0x93, 0x70] ++ uid0 ++ [0x22]) (crcRun 0x00)).andThen fun _ => .says [] ())
    ∀ x ∈ [(Instr.mifareReadBlock 8, facing (crcTalk Cfg.default [0x30, 0x08] (crcRun 0x00))),
        (.mifareWriteBlock 8 block0, facing late), (.detectCard, facing found)],
      x.2.cfg = Cfg.default ∧ (after x.1 x.2).outcomes = x.2.outcomes ++ [.raised (.crcTimeout 0x00)] := by
  decide +kernel

theorem witness_AuthSuccessIsCryptoBit :
    let d := authTalk Cfg.default ([0x60, 0x08] ++ key0 ++ uid0) (authRun 0x00 0x00 0x08)
    let d' := authTalk Cfg.default ([0x60, 0x08] ++ key0 ++ uid0) (authRun 0x10 0x00 0xF7)
    (exec (.mifareAuthKeyA 8 key0 uid0) (facing d) = .next (after (.mifareAuthKeyA 8 key0 uid0) (facing d)) ∧
      (after (.mifareAuthKeyA 8 key0 uid0) (facing d)).outcomes = [] ++ [.returned .unit]) ∧
    (after (.mifareAuthKeyA 8 key0 uid0) (facing d')).events =
      [] ++ (after (.mifareAuthKeyA 8 key0 uid0) (facing d')).events.dropLast ++ [gave 0x08 0 0xF7] ∧
    (0xF7 : Byte) &&& 0x08 = 0 :=
  ⟨⟨exec_after _ _, by decide +kernel⟩, by decide +kernel, by decide⟩

/-- The exits with data, by the timer and with an error bit; and a transport failure at the first exchange, at the
framing write, at the command, at the start write, in the poll, at the clearing write and at the error register. -/
theorem witness_TransceiveLeftovers :
    (∀ x ∈ [(answer 0x30 0 [0x04, 0x00] 0, CallOutcome.returned (.transceived ⟨[0x04, 0x00], 0, some 0, 0x30, .noNote⟩)),
        (answer 0x01 0 [] 0, .returned (.transceived ⟨[], 0, none, 0x01, .timerIRq⟩)),
        (answer 0x30 0x08 [] 0, .raised (.transceiveError 0x08 0x30))],
      let s := facing (transceiveTalk Cfg.default [0x26] 7 80 x.1)
      s.cfg = Cfg.default ∧ (after (.transceive [0x26] 7 80) s).outcomes = s.outcomes ++ [x.2]) ∧
    ∀ k ∈ [0, 4, 5, 7, 8, 10, 11],
      let all := answersOf (transceiveTalk Cfg.default [0x26] 7 80 (answer 0x30 0 [0x04, 0x00] 0)).events
      let s := ready (all.take k ++ [.fail 1]) [0]
      s.cfg = Cfg.default ∧
        (after (.transceive [0x26] 7 80) s).outcomes = s.outcomes ++ [.raised (.transportError (.external 1))] := by
  decide +kernel

theorem witness_NoReceiveIsEmpty :
    let s := facing (transceiveTalk Cfg.default (List.replicate 64 0) 7 80 (answer 0x11 0 [] 0))
    let t := after (.transceive (List.replicate 64 0) 7 80) s
    s.cfg = Cfg.default ∧ CanCall s ∧ (7 : Byte).toNat ≤ 7 ∧ 1 ≤ (List.replicate 64 (0 : Byte)).length ∧
    (List.replicate 64 (0 : Byte)).length ≤ 64 ∧ (∀ e ∈ newEvents s t, failureOf e = none) ∧
    ∀ v : Byte, gave 0x04 0 v ∈ newEvents s t → v &&& 0x20 = 0 := by decide +kernel

/-- A cycle that asks to write block 0 finds the card of `test_detectCard`, and is not allowed; another ends with the
error of its first exchange. -/
theorem witness_WritePolicy :
    let trace := trxTrace [0x26] 7 80 [0x04, 0x00] 0 ++ [rd 0x9C 0xA0, wr [0x1C, 0x20]] ++
      trxTrace [0x93, 0x20] 0 80 (uid0 ++ [0x22]) 0 ++ selectTrace [0x08, 0xB6, 0xDD]
    let inp : CycleInput := ⟨.write, 0, defaultKey, defaultPayload, true⟩
    writeAllowed 0 = false ∧ writeAllowed 3 = false ∧ inp.action = .write ∧
    (match referenceCycle inp (ready (answersOf trace) [0, 0, 0, 0]) with
      | .ok r _ => r == .writeNotAllowed
      | .error _ _ => false) = true ∧
    (match referenceCycle inp (ready [.fail 1] []) with
      | .ok _ _ => false
      | .error e _ => e == .raise (.transportError (.external 1))) = true := by decide +kernel

theorem witness_ReferenceChipCrc :
    (chipOf 0x3D).cfg = Cfg.default ∧ (chipOf 0x3D).regs.length = 64 ∧ chipReg (chipOf 0x3D) 0x11 &&& 0x83 = 0x01 ∧
    (List.replicate 64 (0 : Byte)).length ≤ 64 := by decide +kernel

theorem witness_InterruptClear : (0x7F : Byte).getLsbD 7 = false ∧ (7 : Nat) < 8 := by decide

end Sys2Proof.Tests
end

section
/-! SUPPORT. Decoding and encoding agree (obligations O1 and O2). Each operand parser has one equivalence: what it answers,
and for which bytes. From these follow, layer by layer, that the parser reads back the encoder's bytes and that whatever
it reads is the encoder's bytes. -/

namespace Sys2Proof

open Machine

/-! ## The operand fields (rule R104) -/

theorem except_bind_eq_ok {ε α β : Type} {x : Except ε α} {f : α → Except ε β} {y : β} :
    (x >>= f) = .ok y ↔ ∃ a, x = .ok a ∧ f a = .ok y := by
  cases x <;> simp [bind, Except.bind]

@[simp] theorem except_ok_bind {ε α β : Type} (a : α) (f : α → Except ε β) : (Except.ok a >>= f) = f a := rfl

theorem takeByte_eq_ok {bs r : List Byte} {b : Byte} : takeByte bs = .ok (b, r) ↔ bs = b :: r := by
  cases bs <;> simp [takeByte]

theorem takeBytes_eq_ok {n : Nat} {bs xs r : List Byte} :
    takeBytes n bs = .ok (xs, r) ↔ xs.length = n ∧ bs = xs ++ r := by
  constructor
  · intro h
    unfold takeBytes at h
    split at h
    · obtain ⟨rfl, rfl⟩ := by simpa using h
      simpa
    · cases h
  · rintro ⟨rfl, rfl⟩
    simp [takeBytes]

theorem takeNat_eq_ok {bs r : List Byte} {n : Nat} :
    takeNat bs = .ok (n, r) ↔ FitsNat n ∧ bs = encNat n ++ r := by
  constructor
  · intro h
    match bs, h with
    | b3 :: b2 :: b1 :: b0 :: _, h =>
      obtain ⟨rfl, rfl⟩ := by simpa [takeNat] using h
      have := b3.isLt; have := b2.isLt; have := b1.isLt; have := b0.isLt
      refine ⟨by unfold FitsNat; omega, ?_⟩
      simp only [encNat, List.cons_append, List.nil_append, List.cons.injEq, and_true]
      refine ⟨?_, ?_, ?_, ?_⟩ <;> apply BitVec.eq_of_toNat_eq <;> rw [BitVec.toNat_ofNat] <;> omega
  · rintro ⟨hn, rfl⟩
    simp only [encNat, List.cons_append, List.nil_append, takeNat, BitVec.toNat_ofNat, Except.ok.injEq, Prod.mk.injEq,
      and_true]
    unfold FitsNat at hn
    omega

theorem takeList_eq_ok {bs xs r : List Byte} :
    takeList bs = .ok (xs, r) ↔ FitsList xs ∧ bs = encList xs ++ r := by
  cases bs with
  | nil => simp [takeList, encList]
  | cons n bs =>
    have hlen : xs.length = n.toNat ↔ FitsList xs ∧ n = BitVec.ofNat 8 xs.length := by
      rw [← BitVec.toNat_inj, BitVec.toNat_ofNat]
      have := n.isLt
      unfold FitsList
      omega
    simp only [takeList, takeBytes_eq_ok, hlen, encList, List.cons_append, List.cons.injEq, and_assoc]

theorem toRegAddr_encReg (a : RegAddr) : toRegAddr (encReg a) = some a := by
  revert a; decide

theorem encReg_of_toRegAddr {b : Byte} {a : RegAddr} (h : toRegAddr b = some a) : encReg a = b := by
  unfold toRegAddr at h
  split at h
  · next hb =>
    obtain rfl := Option.some.inj h
    apply BitVec.eq_of_toNat_eq
    simp only [encReg, BitVec.toNat_setWidth]
    omega
  · cases h

theorem takeReg_eq_ok {bs r : List Byte} {a : RegAddr} : takeReg bs = .ok (a, r) ↔ bs = encReg a :: r := by
  constructor
  · intro h
    cases bs with
    | nil => cases h
    | cons b bs =>
      unfold takeReg at h
      cases hb : toRegAddr b with
      | none => simp [hb] at h
      | some a' =>
        obtain ⟨rfl, rfl⟩ := by simpa [hb] using h
        rw [encReg_of_toRegAddr hb]
  · rintro rfl
    simp [takeReg, toRegAddr_encReg]

@[simp] theorem takeByte_cons (b : Byte) (r : List Byte) : takeByte (b :: r) = .ok (b, r) := rfl

theorem takeNat_encNat {n : Nat} (h : FitsNat n) (r : List Byte) : takeNat (encNat n ++ r) = .ok (n, r) :=
  takeNat_eq_ok.2 ⟨h, rfl⟩

theorem takeList_encList {xs : List Byte} (h : FitsList xs) (r : List Byte) :
    takeList (encList xs ++ r) = .ok (xs, r) := takeList_eq_ok.2 ⟨h, rfl⟩

theorem takeBytes_append {n : Nat} {xs : List Byte} (h : xs.length = n) (r : List Byte) :
    takeBytes n (xs ++ r) = .ok (xs, r) := takeBytes_eq_ok.2 ⟨h, rfl⟩

@[simp] theorem takeReg_encReg (a : RegAddr) (r : List Byte) : takeReg (encReg a :: r) = .ok (a, r) :=
  takeReg_eq_ok.2 rfl

theorem takeBytes_all {n : Nat} {xs : List Byte} (h : xs.length = n) : takeBytes n xs = .ok (xs, []) :=
  takeBytes_eq_ok.2 ⟨h, (List.append_nil xs).symm⟩

/-! ## Identifiers (rule R102) -/

@[simp] theorem opOfId_id (op : OpName) : opOfId op.id = some op := by
  cases op <;> decide

theorem id_of_opOfId {b : Byte} {op : OpName} (h : opOfId b = some op) : op.id = b := by
  simpa using List.find?_some h

/-- The operation of rule R102 that an instruction is a call or a step of, if it is one. -/
def Instr.op : Instr → Option OpName
  | .openTransport _ _ _ => some .openTransport
  | .close => some .close
  | .writeRegister _ _ => some .writeRegister
  | .readRegister _ => some .readRegister
  | .writeRegisterBurst _ _ => some .writeRegisterBurst
  | .flushFifo => some .flushFifo
  | .fifoLevel => some .fifoLevel
  | .readFifoBytes _ => some .readFifoBytes
  | .calcCrc _ => some .calcCrc
  | .transceive _ _ _ => some .transceive
  | .requestA => some .requestA
  | .anticollCL1 => some .anticollCL1
  | .selectCL1 _ => some .selectCL1
  | .mifareAuthKeyA _ _ _ => some .mifareAuthKeyA
  | .mifareReadBlock _ => some .mifareReadBlock
  | .mifareWriteBlock _ _ => some .mifareWriteBlock
  | .softReset => some .softReset
  | .init => some .init
  | .isTrailerBlock _ => some .isTrailerBlock
  | .ensure16Bytes _ => some .ensure16Bytes
  | .detectCard => some .detectCard
  | .setBits _ _ => some .setBits
  | .clearBits _ _ => some .clearBits
  | .pollUntil _ _ _ => some .pollUntil
  | .antennaOn => some .antennaOn
  | _ => none

/-! ## Host calls and internal steps (rules R102, R104) -/

/-- Behind its identifier, a well-formed call or step is read back from its operand bytes, whatever follows them. -/
theorem takeOperands_encode {c : Cfg} {i : Instr} {op : OpName} {bs r : List Byte} (hop : i.op = some op)
    (hwf : i.wf = true) (h : encode c i ++ r = op.id :: bs) : takeOperands op bs = .ok (i, r) := by
  cases i <;> cases hop <;> obtain rfl := (List.cons.inj h).2
  case close | flushFifo | fifoLevel | requestA | anticollCL1 | softReset | init | detectCard | antennaOn | writeRegister
    | readRegister => rfl
  case setBits | clearBits => simp [takeOperands]
  all_goals have hwf := of_decide_eq_true hwf
  case readFifoBytes | mifareReadBlock | isTrailerBlock | pollUntil => simp [takeOperands, takeNat_encNat hwf]
  case calcCrc | selectCL1 | ensure16Bytes | writeRegisterBurst => simp [takeOperands, takeList_encList hwf]
  case transceive => simp [takeOperands, takeList_encList hwf.1, takeNat_encNat hwf.2]
  case mifareWriteBlock => simp [takeOperands, takeNat_encNat hwf.1, takeList_encList hwf.2]
  case openTransport =>
    obtain ⟨hbus, hdev, hhz⟩ := hwf
    simp [takeOperands, takeNat_encNat hbus, takeNat_encNat hdev, takeNat_encNat hhz]
  case mifareAuthKeyA =>
    obtain ⟨hblk, hkey, huid⟩ := hwf
    simp [takeOperands, takeNat_encNat hblk, takeList_encList hkey, takeList_encList huid]

theorem takeOperation_encode {c : Cfg} {i : Instr} {op : OpName} {internal : Bool} (hop : i.op = some op)
    (hint : op.internal = internal) (hwf : i.wf = true) : takeOperation internal (encode c i) = .ok (i, []) := by
  obtain ⟨bs, h⟩ : ∃ bs, encode c i = op.id :: bs := by
    cases i <;> cases hop <;> exact ⟨_, rfl⟩
  simp [h, takeOperation, hint, takeOperands_encode hop hwf ((List.append_nil _).trans h)]

/-- What an operation's parser reads is a well-formed call or step of that operation, followed by what is left over. -/
theorem encode_of_takeOperands (c : Cfg) {i : Instr} {op : OpName} {bs r : List Byte}
    (h : takeOperands op bs = .ok (i, r)) : i.op = some op ∧ i.wf = true ∧ encode c i ++ r = op.id :: bs := by
  cases op <;>
    simp only [takeOperands, except_bind_eq_ok, Prod.exists, takeByte_eq_ok, takeNat_eq_ok, takeList_eq_ok,
      takeReg_eq_ok, Except.ok.injEq, Prod.mk.injEq] at h
  case close | flushFifo | fifoLevel | requestA | anticollCL1 | softReset | init | detectCard | antennaOn =>
    obtain ⟨rfl, rfl⟩ := h
    exact ⟨rfl, rfl, rfl⟩
  case readRegister =>
    obtain ⟨a, _, rfl, rfl, rfl⟩ := h
    exact ⟨rfl, rfl, rfl⟩
  case writeRegister | setBits | clearBits =>
    obtain ⟨a, _, rfl, v, _, rfl, rfl, rfl⟩ := h
    exact ⟨rfl, rfl, rfl⟩
  case readFifoBytes | mifareReadBlock | isTrailerBlock | calcCrc | selectCL1 | ensure16Bytes =>
    obtain ⟨x, _, ⟨hx, rfl⟩, rfl, rfl⟩ := h
    exact ⟨rfl, decide_eq_true hx, rfl⟩
  case writeRegisterBurst =>
    obtain ⟨a, _, rfl, bs, _, ⟨hbs, rfl⟩, rfl, rfl⟩ := h
    exact ⟨rfl, decide_eq_true hbs, rfl⟩
  case pollUntil =>
    obtain ⟨a, _, rfl, m, _, rfl, ms, _, ⟨hms, rfl⟩, rfl, rfl⟩ := h
    exact ⟨rfl, decide_eq_true hms, rfl⟩
  case mifareWriteBlock =>
    obtain ⟨blk, _, ⟨hblk, rfl⟩, payload, _, ⟨hp, rfl⟩, rfl, rfl⟩ := h
    exact ⟨rfl, decide_eq_true ⟨hblk, hp⟩, by simp [encode, OpName.id]⟩
  case transceive =>
    obtain ⟨frame, _, ⟨hf, rfl⟩, vb, _, rfl, ms, _, ⟨hms, rfl⟩, rfl, rfl⟩ := h
    exact ⟨rfl, decide_eq_true ⟨hf, hms⟩, by simp [encode, OpName.id]⟩
  case openTransport | mifareAuthKeyA =>
    obtain ⟨x, _, ⟨hx, rfl⟩, y, _, ⟨hy, rfl⟩, z, _, ⟨hz, rfl⟩, rfl, rfl⟩ := h
    exact ⟨rfl, decide_eq_true ⟨hx, hy, hz⟩, by simp [encode, OpName.id]⟩

/-- What the parser of calls (or of steps) reads is one of a host-callable operation (or of an internal one). -/
theorem encode_of_takeOperation (c : Cfg) {internal : Bool} {i : Instr} {bs r : List Byte}
    (h : takeOperation internal bs = .ok (i, r)) :
    (∃ op, i.op = some op ∧ op.internal = internal) ∧ i.wf = true ∧ encode c i ++ r = bs := by
  cases bs with
  | nil => cases h
  | cons b bs =>
    unfold takeOperation at h
    cases hop : opOfId b with
    | none => simp [hop] at h
    | some op =>
      by_cases hi : op.internal = internal
      · simp only [hop, hi, if_true] at h
        obtain ⟨hi', hwf, henc⟩ := encode_of_takeOperands c h
        exact ⟨⟨op, hi', hi⟩, hwf, by rw [henc, id_of_opOfId hop]⟩
      · simp [hop, hi] at h

/-! ## Exchanges (rules R80 to R85) -/

theorem encW_addrReg {b : Byte} (hr : addrReserved b = false) (hd : addrIsRead b = false) : encW (addrReg b) = b := by
  revert b; decide

theorem encR_addrReg {b : Byte} (hr : addrReserved b = false) (hd : addrIsRead b = true) : encR (addrReg b) = b := by
  revert b; decide

theorem encode_of_takeExchange (c : Cfg) {i : Instr} {bs r : List Byte} (h : takeExchange bs = .ok (i, r)) :
    i.layer = .exchange ∧ i.wf = true ∧ encode c i ++ r = bs := by
  cases bs with
  | nil => cases h
  | cons b data =>
    simp only [takeExchange] at h
    split at h
    · cases h
    next hres =>
    rw [Bool.not_eq_true] at hres
    split at h
    next hread =>
      split at h
      · next hpad =>
        obtain ⟨rfl, rfl⟩ := by simpa using h
        exact ⟨rfl, rfl, by simp [encode, encR_addrReg hres hread, hpad]⟩
      · cases h
    next hwrite =>
      rw [Bool.not_eq_true] at hwrite
      split at h
      · obtain ⟨rfl, rfl⟩ := by simpa using h
        exact ⟨rfl, rfl, by simp [encode, encW_addrReg hres hwrite]⟩
      · next hone =>
        obtain ⟨rfl, rfl⟩ := by simpa using h
        refine ⟨rfl, ?_, by simp [encode, encW_addrReg hres hwrite]⟩
        simpa [Instr.wf, List.length_eq_one_iff] using hone

theorem takeExchange_encode {c : Cfg} {i : Instr} (hl : i.layer = .exchange) (hwf : i.wf = true) :
    takeExchange (encode c i) = .ok (i, []) := by
  cases i <;> cases hl
  case spiWriteByte a v => simp [takeExchange, encode, addrReserved_encW, addrIsRead_encW, addrReg_encW]
  case spiReadByte a => simp [takeExchange, encode, addrReserved_encR, addrIsRead_encR, addrReg_encR]
  case spiBurstWrite a bs =>
    have hlen : bs.length ≠ 1 := of_decide_eq_true hwf
    simp only [takeExchange, encode, addrReserved_encW, addrIsRead_encW, addrReg_encW, Bool.false_eq_true, if_false]
    split
    · exact absurd (List.length_singleton ..) hlen
    · rfl

/-! ## Chip commands (rule R88) -/

theorem encode_of_takeCommand {c : Cfg} {i : Instr} {bs r : List Byte} (h : takeCommand c bs = .ok (i, r)) :
    i.layer = .chipCommand ∧ i.wf = true ∧ encode c i ++ r = bs := by
  cases bs with
  | nil => cases h
  | cons b bs =>
    simp only [takeCommand] at h
    split_ifs at h <;> cases h <;> exact ⟨rfl, rfl, by simp [encode, *]⟩

theorem takeCommand_encode {c : Cfg} {i : Instr} (hc : c.CodesDistinct) (hl : i.layer = .chipCommand) :
    takeCommand c (encode c i) = .ok (i, []) := by
  have hcmd := hc.1
  simp only [List.nodup_cons, List.mem_cons, List.not_mem_nil, not_or, or_false] at hcmd
  cases i <;> cases hl <;> simp [takeCommand, encode, hcmd, eq_comm]

/-! ## Card frames (rule R92) -/

theorem encode_of_takeSelect {c : Cfg} {i : Instr} {bs r : List Byte} (h : takeSelect c bs = .ok (i, r)) :
    i.layer = .cardFrame ∧ i.wf = true ∧ encode c i ++ r = c.card.selCl1 :: bs := by
  cases bs with
  | nil => cases h
  | cons nvb bs =>
    simp only [takeSelect] at h
    split at h
    next hnvb =>
      cases h
      exact ⟨rfl, rfl, by simp [encode, hnvb]⟩
    next =>
    split at h
    next hnvb =>
      simp only [except_bind_eq_ok, Prod.exists, takeByte_eq_ok, takeBytes_eq_ok] at h
      obtain ⟨uid, _, ⟨huid, rfl⟩, check, _, rfl, lo, _, rfl, hi, _, rfl, h⟩ := h
      split at h
      · next hcheck =>
        cases h
        exact ⟨rfl, decide_eq_true huid, by simp [encode, hnvb, hcheck]⟩
      · cases h
    · cases h

theorem encode_of_takeAuth (c : Cfg) {i : Instr} {bs r : List Byte} (h : takeAuth bs = .ok (i, r)) :
    i.layer = .cardFrame ∧ i.wf = true ∧ encode c i ++ r = c.card.authKeyA :: bs := by
  simp only [takeAuth, except_bind_eq_ok, Prod.exists, takeByte_eq_ok, takeBytes_eq_ok] at h
  obtain ⟨blk, _, rfl, key, _, ⟨hkey, rfl⟩, uid, _, ⟨huid, rfl⟩, h⟩ := h
  cases h
  exact ⟨rfl, decide_eq_true ⟨hkey, huid⟩, by simp [encode]⟩

theorem takeBlockCrc_eq_ok {f : Byte → Byte → Byte → Instr} {i : Instr} {bs r : List Byte} :
    takeBlockCrc f bs = .ok (i, r) ↔ ∃ blk lo hi, i = f blk lo hi ∧ bs = blk :: lo :: hi :: r := by
  constructor
  · intro h
    unfold takeBlockCrc at h
    split at h
    · cases h
      exact ⟨_, _, _, rfl, rfl⟩
    · cases h
  · rintro ⟨blk, lo, hi, rfl, rfl⟩
    rfl

theorem encode_of_takeFrame {c : Cfg} {i : Instr} {bs r : List Byte} (h : takeFrame c bs = .ok (i, r)) :
    i.layer = .cardFrame ∧ i.wf = true ∧ encode c i ++ r = bs := by
  cases bs with
  | nil => cases h
  | cons b bs =>
    simp only [takeFrame] at h
    split_ifs at h with hreqa hsel hauth hread hwrite
    · cases h
      exact ⟨rfl, rfl, by simp [encode, hreqa]⟩
    · exact hsel ▸ encode_of_takeSelect h
    · exact hauth ▸ encode_of_takeAuth c h
    · obtain ⟨blk, lo, hi, rfl, rfl⟩ := takeBlockCrc_eq_ok.1 h
      exact ⟨rfl, rfl, by simp [encode, hread]⟩
    · obtain ⟨blk, lo, hi, rfl, rfl⟩ := takeBlockCrc_eq_ok.1 h
      exact ⟨rfl, rfl, by simp [encode, hwrite]⟩

theorem takeFrame_encode {c : Cfg} {i : Instr} (hc : c.CodesDistinct) (hl : i.layer = .cardFrame) (hwf : i.wf = true) :
    takeFrame c (encode c i) = .ok (i, []) := by
  obtain ⟨-, hcard, hnvb⟩ := hc
  simp only [List.nodup_cons, List.mem_cons, List.not_mem_nil, not_or, or_false] at hcard
  cases i <;> cases hl
  case piccReqa => simp [takeFrame, encode]
  case piccAnticoll => simp [takeFrame, takeSelect, encode, hcard, eq_comm]
  case piccSelect uid lo hi =>
    have huid : uid.length = Config.uidLen := of_decide_eq_true hwf
    simp [takeFrame, takeSelect, encode, takeBytes_append huid, hcard, hnvb, eq_comm]
  case mfAuthKeyA blk key uid =>
    obtain ⟨hkey, huid⟩ : key.length = Config.keyLen ∧ uid.length = Config.uidLen := of_decide_eq_true hwf
    simp [takeFrame, takeAuth, encode, takeBytes_append hkey, takeBytes_all huid, hcard, eq_comm]
  case mfRead | mfWrite => simp [takeFrame, takeBlockCrc, encode, hcard, eq_comm]

/-! ## The ACK (rule R194) -/

theorem encode_of_takeAck {c : Cfg} {i : Instr} {bs r : List Byte} (h : takeAck c bs = .ok (i, r)) :
    i.layer = .cardAnswer ∧ i.wf = true ∧ encode c i ++ r = bs := by
  match bs, h with
  | b :: vb :: bs, h =>
    have nibbles : b.extractLsb' 4 4 ++ b.extractLsb' 0 4 = b :=
      BitVec.extractLsb'_append_extractLsb' (w := 4) (len := 4)
    simp only [takeAck] at h
    split_ifs at h with hlow hbits hbits <;> rw [not_not] at hlow <;> cases h
    all_goals exact ⟨rfl, rfl, by simp [encode, ← hlow, nibbles, hbits]⟩

theorem takeAck_encode {c : Cfg} {i : Instr} (hl : i.layer = .cardAnswer) : takeAck c (encode c i) = .ok (i, []) := by
  cases i <;> cases hl
  case mfAck high fourBits =>
    have hlow : (high ++ ackNibble c).extractLsb' 0 4 = ackNibble c := BitVec.extractLsb'_append_eq_right
    have hhigh : (high ++ ackNibble c).extractLsb' 4 4 = high := BitVec.extractLsb'_append_eq_left
    cases fourBits <;> simp [takeAck, encode, hlow, hhigh]

/-! ## Every layer -/

/-- A word decodes when its layer's parser reads an instruction from it and leaves nothing over. -/
theorem decode_eq_ok {c : Cfg} {l : Layer} {bs : List Byte} {i : Instr} :
    decode c l bs = .ok i ↔ decodePrefix c l bs = .ok (i, []) := by
  unfold decode
  split <;> simp_all

/-- An instruction is of the layer of host calls (or of internal steps) when rule R102 names a host-callable operation
(or an internal one) for it. -/
theorem layer_eq_iff_op {i : Instr} {internal : Bool} :
    (i.layer = if internal then .internalStep else .hostCall) ↔ ∃ op, i.op = some op ∧ op.internal = internal := by
  constructor
  · intro hl
    cases internal <;> cases i <;> cases hl <;> exact ⟨_, rfl, rfl⟩
  · rintro ⟨op, hop, rfl⟩
    cases i <;> cases hop <;> rfl

theorem decodePrefix_encode {c : Cfg} {i : Instr} (hc : c.CodesDistinct) (hwf : i.wf = true) :
    decodePrefix c i.layer (encode c i) = .ok (i, []) := by
  cases hl : i.layer with
  | hostCall =>
    obtain ⟨op, hop, hint⟩ := layer_eq_iff_op (internal := false).1 hl
    exact takeOperation_encode hop hint hwf
  | internalStep =>
    obtain ⟨op, hop, hint⟩ := layer_eq_iff_op (internal := true).1 hl
    exact takeOperation_encode hop hint hwf
  | exchange => exact takeExchange_encode hl hwf
  | chipCommand => exact takeCommand_encode hc hl
  | cardFrame => exact takeFrame_encode hc hl hwf
  | cardAnswer => exact takeAck_encode hl

theorem encode_of_decodePrefix {c : Cfg} {l : Layer} {i : Instr} {bs r : List Byte}
    (h : decodePrefix c l bs = .ok (i, r)) : i.layer = l ∧ i.wf = true ∧ encode c i ++ r = bs := by
  cases l with
  | hostCall | internalStep =>
    obtain ⟨hop, hwf, henc⟩ := encode_of_takeOperation c h
    exact ⟨layer_eq_iff_op.2 hop, hwf, henc⟩
  | exchange => exact encode_of_takeExchange c h
  | chipCommand => exact encode_of_takeCommand h
  | cardFrame => exact encode_of_takeFrame h
  | cardAnswer => exact encode_of_takeAck h

/-- Settles O1: each layer's parser reads back the encoder's bytes, operand by operand; the configured codes decide only
which row a command or frame is. -/
theorem decodeOfEncode : Obligations.DecodeOfEncode := by
  exact ⟨by decide, fun _ _ hc hwf => decode_eq_ok.2 (decodePrefix_encode hc hwf)⟩

/-- Settles O2: what a layer's parser reads is the encoding it consumed, and a decoded word has nothing left over. -/
theorem encodeOfDecode : Obligations.EncodeOfDecode := by
  intro c l bs i h
  obtain ⟨hl, hwf, henc⟩ := encode_of_decodePrefix (decode_eq_ok.1 h)
  exact ⟨hl, hwf, by simpa using henc⟩

end Sys2Proof
end

section
/-! SUPPORT. The frame over configuration, waiting calls, history and inputs (rules R8, R9, R13; obligation O18), and the
step (obligation O8). `Stays` of Laws/Ops.lean excludes the operations that change handle or phase and does not speak of
the answers left over; `Extends` is what every operation keeps, `open`, `close`, `softReset` and `init` among them. -/

namespace Sys2Proof.Machine

/-- From `s` to `t` configuration and waiting calls are the same, the history only grew, and the environment's answers
were only taken from the front. -/
structure Extends (s t : State) : Prop where
  cfg : t.cfg = s.cfg
  calls : t.calls = s.calls
  events : s.events <+: t.events
  answers : t.answers <:+ s.answers
  links : t.links <:+ s.links
  expiries : t.expiries <:+ s.expiries
  draws : s.draws ≤ t.draws

theorem Extends.refl (s : State) : Extends s s :=
  ⟨rfl, rfl, List.prefix_rfl, List.suffix_rfl, List.suffix_rfl, List.suffix_rfl, le_rfl⟩

theorem Extends.trans {s t u : State} (h : Extends s t) (k : Extends t u) : Extends s u :=
  ⟨k.cfg.trans h.cfg, k.calls.trans h.calls, h.events.trans k.events, k.answers.trans h.answers, k.links.trans h.links,
    k.expiries.trans h.expiries, h.draws.trans k.draws⟩

/-- Whatever the program `x` does, the state it reaches extends the one it began in. -/
def OnlyExtends {α : Type} (x : Op α) : Prop := ∀ s, Extends s (reached (x s))

variable {α β : Type}

theorem extends_pure (a : α) : OnlyExtends (pure a : Op α) := Extends.refl

theorem extends_refuse (r : RefusalReason) : OnlyExtends (refuse r : Op α) := Extends.refl

theorem extends_raise (e : Error) : OnlyExtends (raise e : Op α) := Extends.refl

theorem extends_bind {x : Op α} {f : α → Op β} (hx : OnlyExtends x) (hf : ∀ a, OnlyExtends (f a)) :
    OnlyExtends (x >>= f) := by
  intro s
  have h := hx s
  rw [op_bind]
  cases hr : x s with
  | ok a t => rw [hr] at h; exact h.trans (hf a t)
  | error e t => rw [hr] at h; exact h

theorem extends_withCfg {f : Cfg → Op α} (hf : ∀ c, OnlyExtends (f c)) : OnlyExtends (getCfg >>= f) :=
  extends_bind Extends.refl hf

theorem extends_require (c : Bool) (r : RefusalReason) : OnlyExtends (require c r) := by
  cases c
  · exact extends_refuse r
  · exact extends_pure ()

theorem extends_requireOpen : OnlyExtends requireOpen := fun s => extends_require _ _ s

theorem extends_requireReady : OnlyExtends requireReady := fun s => extends_require _ _ s

theorem extends_requireNotReady : OnlyExtends requireNotReady := fun s => extends_require _ _ s

theorem extends_registerOperand (a : Byte) : OnlyExtends (registerOperand a) := by
  unfold registerOperand
  split
  · exact extends_pure _
  · exact extends_refuse _

theorem extends_blockOperand (blk : Nat) : OnlyExtends (blockOperand blk) := by
  unfold blockOperand
  split
  · exact extends_pure _
  · exact extends_refuse _

/-! ### What records, asks, or changes handle and phase -/

theorem extends_record (e : Event) : OnlyExtends (record e) :=
  fun s => { Extends.refl s with events := List.prefix_append .. }

theorem extends_setPhase (p : Phase) : OnlyExtends (setPhase p) := fun s => { Extends.refl s with }

theorem extends_dropHandle : OnlyExtends dropHandle := fun s => { Extends.refl s with }

theorem extends_drawExchange (tx : List Byte) : OnlyExtends (drawExchange tx) := fun s => by
  rw [drawExchange_apply]
  exact { Extends.refl s with answers := List.tail_suffix _, draws := Nat.le_succ _ }

theorem extends_drawLink : OnlyExtends drawLink := fun s => by
  rw [drawLink_apply]
  exact { Extends.refl s with links := List.tail_suffix _, draws := Nat.le_succ _ }

theorem extends_drawExpiry : OnlyExtends drawExpiry := fun s => by
  rw [drawExpiry_apply]
  exact { Extends.refl s with expiries := List.tail_suffix _, draws := Nat.le_succ _ }

/-! ### The register interface -/

theorem extends_exchange (tx : List Byte) : OnlyExtends (exchange tx) := by
  refine extends_bind extends_requireOpen fun _ => extends_bind (extends_drawExchange tx) fun answer =>
    extends_bind (extends_record _) fun _ => ?_
  cases answer with
  | fail reason => exact extends_raise _
  | reply rx =>
    dsimp only
    split
    · exact extends_pure _
    · exact extends_raise _

theorem extends_readRegister (a : RegAddr) : OnlyExtends (readRegister a) :=
  extends_bind (extends_exchange _) fun _ => extends_pure _

theorem extends_writeRegister (a : RegAddr) (v : Byte) : OnlyExtends (writeRegister a v) :=
  extends_bind (extends_exchange _) fun _ => extends_pure _

theorem extends_writeRegisterBurst (a : RegAddr) (bs : List Byte) : OnlyExtends (writeRegisterBurst a bs) :=
  extends_bind (extends_exchange _) fun _ => extends_pure _

theorem extends_setBits (a : RegAddr) (m : Byte) : OnlyExtends (setBits a m) :=
  extends_bind (extends_readRegister a) fun _ => extends_writeRegister a _

theorem extends_clearBits (a : RegAddr) (m : Byte) : OnlyExtends (clearBits a m) :=
  extends_bind (extends_readRegister a) fun _ => extends_writeRegister a _

theorem extends_pollLoop (a : RegAddr) (stopMask : Byte) (k : Nat) : OnlyExtends (pollLoop a stopMask k) := by
  induction k with
  | zero =>
    refine extends_bind (extends_readRegister a) fun v => ?_
    split
    · exact extends_pure _
    · exact extends_bind (extends_record _) fun _ => extends_pure _
  | succ k ih =>
    refine extends_bind (extends_readRegister a) fun v => ?_
    split
    · exact extends_pure _
    · exact extends_bind (extends_record _) fun _ => ih

theorem extends_pollUntil (a : RegAddr) (stopMask : Byte) (ms : Nat) : OnlyExtends (pollUntil a stopMask ms) :=
  extends_bind (extends_record _) fun _ => extends_bind extends_drawExpiry fun k => extends_pollLoop a stopMask k

/-! ### FIFO and CRC -/

theorem extends_flushFifo : OnlyExtends flushFifo := extends_withCfg fun _ => extends_writeRegister _ _

theorem extends_fifoLevel : OnlyExtends fifoLevel :=
  extends_withCfg fun _ => extends_bind (extends_readRegister _) fun _ => extends_pure _

theorem extends_readFifoBytes (n : Nat) : OnlyExtends (readFifoBytes n) := by
  induction n with
  | zero => exact extends_pure _
  | succ n ih =>
    exact extends_withCfg fun _ => extends_bind (extends_readRegister _) fun _ => extends_bind ih fun _ => extends_pure _

theorem extends_calcCrc (buffer : List Byte) : OnlyExtends (calcCrc buffer) := by
  refine extends_bind (extends_require _ _) fun _ => extends_withCfg fun c => ?_
  refine extends_bind (extends_writeRegister _ _) fun _ => extends_bind (extends_writeRegister _ _) fun _ => ?_
  refine extends_bind extends_flushFifo fun _ => extends_bind (extends_writeRegisterBurst _ _) fun _ => ?_
  refine extends_bind (extends_writeRegister _ _) fun _ => extends_bind (extends_pollUntil _ _ _) fun ⟨v, why⟩ => ?_
  cases why with
  | deadline => exact extends_raise _
  | bit =>
    exact extends_bind (extends_readRegister _) fun _ => extends_bind (extends_readRegister _) fun _ => extends_pure _

theorem extends_appendCrc (f : List Byte) : OnlyExtends (appendCrc f) :=
  extends_bind (extends_calcCrc f) fun _ => extends_pure _

/-! ### Transceive -/

theorem extends_transceivePreamble (frame : List Byte) (vb : Byte) : OnlyExtends (transceivePreamble frame vb) := by
  refine extends_withCfg fun c => extends_bind (extends_writeRegister _ _) fun _ => ?_
  refine extends_bind (extends_writeRegister _ _) fun _ => extends_bind extends_flushFifo fun _ => ?_
  refine extends_bind (extends_writeRegisterBurst _ _) fun _ => extends_bind (extends_writeRegister _ _) fun _ => ?_
  exact extends_bind (extends_writeRegister _ _) fun _ => extends_setBits _ _

theorem extends_transceiveCompletion (irq : Byte) : OnlyExtends (transceiveCompletion irq) := by
  refine extends_withCfg fun c => extends_bind (extends_clearBits _ _) fun _ =>
    extends_bind (extends_readRegister _) fun err => ?_
  split
  · exact extends_raise _
  · exact extends_bind extends_fifoLevel fun n => extends_bind (extends_readFifoBytes n) fun _ =>
      extends_bind (extends_readRegister _) fun _ => extends_pure _

theorem extends_transceive (frame : List Byte) (vb : Byte) (ms : Nat) : OnlyExtends (transceive frame vb ms) := by
  refine extends_bind (extends_require _ _) fun _ => extends_bind (extends_require _ _) fun _ =>
    extends_withCfg fun c => ?_
  refine extends_bind (extends_transceivePreamble frame vb) fun _ =>
    extends_bind (extends_pollUntil _ _ _) fun ⟨irq, _⟩ => ?_
  dsimp only
  split
  · exact extends_pure _
  · exact extends_pure _
  · exact extends_transceiveCompletion irq

/-! ### Card operations -/

theorem extends_requestA : OnlyExtends requestA :=
  extends_withCfg fun _ => extends_bind (extends_transceive _ _ _) fun _ => extends_pure _

theorem extends_anticollCL1 : OnlyExtends anticollCL1 :=
  extends_withCfg fun _ => extends_bind (extends_clearBits _ _) fun _ =>
    extends_bind (extends_transceive _ _ _) fun _ => extends_pure _

theorem extends_selectCL1 (uid : List Byte) : OnlyExtends (selectCL1 uid) :=
  extends_bind (extends_require _ _) fun _ => extends_withCfg fun _ => extends_bind (extends_appendCrc _) fun _ =>
    extends_bind (extends_transceive _ _ _) fun _ => extends_pure _

theorem extends_authenticate (f : List Byte) : OnlyExtends (authenticate f) := by
  refine extends_withCfg fun c => extends_bind (extends_writeRegister _ _) fun _ => ?_
  refine extends_bind (extends_writeRegister _ _) fun _ => extends_bind extends_flushFifo fun _ => ?_
  refine extends_bind (extends_writeRegisterBurst _ _) fun _ => extends_bind (extends_writeRegister _ _) fun _ => ?_
  refine extends_bind (extends_pollUntil _ _ _) fun _ => extends_bind (extends_readRegister _) fun err => ?_
  split
  · exact extends_raise _
  · refine extends_bind (extends_readRegister _) fun s2 => ?_
    split
    · exact extends_pure _
    · exact extends_raise _

theorem extends_mifareAuthKeyA (blk : Nat) (key uid : List Byte) : OnlyExtends (mifareAuthKeyA blk key uid) := by
  refine extends_bind (extends_blockOperand blk) fun b => extends_bind (extends_require _ _) fun _ => ?_
  split
  · exact extends_raise _
  · exact extends_withCfg fun _ => extends_authenticate _

theorem extends_mifareReadBlock (blk : Nat) : OnlyExtends (mifareReadBlock blk) := by
  refine extends_bind (extends_blockOperand blk) fun b => extends_withCfg fun c => ?_
  refine extends_bind (extends_appendCrc _) fun _ => extends_bind (extends_transceive _ _ _) fun r => ?_
  split
  · exact extends_raise _
  · exact extends_pure _

theorem extends_writePhase (phase : Nat) (body : List Byte) (ms : Nat) : OnlyExtends (writePhase phase body ms) := by
  refine extends_withCfg fun c => extends_bind (extends_appendCrc _) fun _ =>
    extends_bind (extends_transceive _ _ _) fun r => ?_
  split
  · exact extends_pure _
  · exact extends_raise _

theorem extends_mifareWriteBlock (blk : Nat) (payload : List Byte) : OnlyExtends (mifareWriteBlock blk payload) :=
  extends_bind (extends_blockOperand blk) fun _ => extends_withCfg fun _ =>
    extends_bind (extends_writePhase _ _ _) fun _ => extends_writePhase _ _ _

theorem extends_detectCard : OnlyExtends detectCard := by
  refine extends_bind extends_requestA fun a => ?_
  cases a with
  | none => exact extends_pure _
  | some atqa =>
    refine extends_bind extends_anticollCL1 fun u => ?_
    cases u with
    | none => exact extends_pure _
    | some uid => exact extends_bind (extends_selectCL1 _) fun _ => extends_pure _

/-! ### The lifecycle -/

theorem extends_softReset : OnlyExtends softReset :=
  extends_withCfg fun _ => extends_bind (extends_writeRegister _ _) fun _ =>
    extends_bind (extends_record _) fun _ => extends_setPhase _

theorem extends_antennaOn : OnlyExtends antennaOn := by
  refine extends_withCfg fun c => extends_bind (extends_readRegister _) fun v => ?_
  split
  · exact extends_pure _
  · exact extends_writeRegister _ _

theorem extends_initChip : OnlyExtends initChip := by
  refine extends_bind extends_requireNotReady fun _ => extends_bind extends_softReset fun _ =>
    extends_withCfg fun c => ?_
  refine extends_bind (extends_writeRegister _ _) fun _ => extends_bind (extends_writeRegister _ _) fun _ => ?_
  refine extends_bind (extends_writeRegister _ _) fun _ => extends_bind (extends_writeRegister _ _) fun _ => ?_
  refine extends_bind (extends_writeRegister _ _) fun _ => extends_bind (extends_writeRegister _ _) fun _ => ?_
  exact extends_bind extends_antennaOn fun _ => extends_setPhase _

theorem extends_openTransport (bus dev hz : Nat) : OnlyExtends (openTransport bus dev hz) := by
  intro s
  unfold openTransport
  split
  · exact extends_refuse _ s
  · refine extends_bind extends_drawLink (fun answer => extends_bind (extends_record _) fun _ => ?_) s
    cases answer with
    | fail reason => exact extends_raise _
    | ok => exact fun t => { Extends.refl t with }

theorem extends_closeTransport : OnlyExtends closeTransport := by
  intro s
  unfold closeTransport
  split
  · exact extends_bind extends_drawLink (fun _ => extends_bind (extends_record _) fun _ => extends_dropHandle) s
  · exact extends_dropHandle s

/-! ### Calls and steps -/

theorem extends_onOpenHandle {x : Op α} (h : OnlyExtends x) : OnlyExtends (onOpenHandle x) :=
  extends_bind extends_requireOpen fun _ => h

theorem extends_whenReady {x : Op α} (h : OnlyExtends x) : OnlyExtends (whenReady x) :=
  extends_bind extends_requireOpen fun _ => extends_bind extends_requireReady fun _ => h

theorem extends_issueCommand (code : Commands → Byte) : OnlyExtends (issueCommand code) :=
  extends_withCfg fun _ => extends_writeRegister _ _

/-- How a call begins and ends (rules R23, R250, R262) touches none of the fields `Extends` speaks of. -/
theorem extends_hostCall {x : Op α} (h : OnlyExtends x) (value : α → Value) (s : State) :
    Extends s (hostCall x value s) := by
  have hx : Extends s (reached (x { s with busy := true })) := { h { s with busy := true } with }
  rcases hostCall_cases x value s with ⟨-, he⟩ | ⟨-, a, t, hr, he⟩ | ⟨-, e, t, hr, he⟩ | ⟨-, r, t, hr, he⟩
  · rw [he]; exact { Extends.refl s with }
  all_goals
    rw [hr] at hx
    rw [he]
    exact { hx with }

theorem extends_innerStep {x : Op α} (h : OnlyExtends x) (value : α → Value) (s : State) :
    Extends s (innerStep x value s) := by
  have hx := h s
  rcases innerStep_cases x value s with ⟨a, t, hr, he⟩ | ⟨e, t, hr, he⟩ | ⟨r, t, hr, he⟩
  all_goals
    rw [hr] at hx
    rw [he]
    exact { hx with }

/-- A meaning that is one call of the host. -/
theorem extends_next_hostCall {x : Op α} (h : OnlyExtends x) {value : α → Value} {s t : State}
    (ht : Host.Outcome.next (φ := Fault) (ρ := Refusal) (hostCall x value s) = .next t) : Extends s t := by
  cases ht
  exact extends_hostCall h value s

/-- A meaning that is one step of an inner layer. -/
theorem extends_next_innerStep {x : Op α} (h : OnlyExtends x) {value : α → Value} {s t : State}
    (ht : Host.Outcome.next (φ := Fault) (ρ := Refusal) (innerStep x value s) = .next t) : Extends s t := by
  cases ht
  exact extends_innerStep h value s

theorem extends_registerCall (a : Byte) {f : RegAddr → Op α} (hf : ∀ a', OnlyExtends (f a')) :
    OnlyExtends (onOpenHandle (registerOperand a >>= f)) :=
  extends_onOpenHandle (extends_bind (extends_registerOperand a) hf)

theorem extends_frameStep {frame : Cfg → List Byte} {vb : Byte} {ms : Nat} :
    OnlyExtends (onOpenHandle (getCfg >>= fun c => transceive (frame c) vb ms)) :=
  extends_onOpenHandle (extends_withCfg fun _ => extends_transceive _ _ _)

/-- Every instruction only extends the state it begins in. -/
theorem extends_exec {i : Instr} {s t : State} (h : exec i s = .next t) : Extends s t := by
  cases i with
  | openTransport bus dev hz => exact extends_next_hostCall (extends_openTransport bus dev hz) h
  | close => exact extends_next_hostCall extends_closeTransport h
  | writeRegister a v => exact extends_next_hostCall (extends_registerCall a fun _ => extends_writeRegister _ v) h
  | readRegister a => exact extends_next_hostCall (extends_registerCall a extends_readRegister) h
  | writeRegisterBurst a bs =>
    exact extends_next_hostCall (extends_registerCall a fun _ => extends_writeRegisterBurst _ bs) h
  | flushFifo => exact extends_next_hostCall (extends_onOpenHandle extends_flushFifo) h
  | fifoLevel => exact extends_next_hostCall (extends_onOpenHandle extends_fifoLevel) h
  | readFifoBytes n => exact extends_next_hostCall (extends_onOpenHandle (extends_readFifoBytes n)) h
  | calcCrc buffer => exact extends_next_hostCall (extends_onOpenHandle (extends_calcCrc buffer)) h
  | transceive frame vb ms => exact extends_next_hostCall (extends_onOpenHandle (extends_transceive frame vb ms)) h
  | requestA => exact extends_next_hostCall (extends_whenReady extends_requestA) h
  | anticollCL1 => exact extends_next_hostCall (extends_whenReady extends_anticollCL1) h
  | selectCL1 uid => exact extends_next_hostCall (extends_whenReady (extends_selectCL1 uid)) h
  | mifareAuthKeyA blk key uid => exact extends_next_hostCall (extends_whenReady (extends_mifareAuthKeyA blk key uid)) h
  | mifareReadBlock blk => exact extends_next_hostCall (extends_whenReady (extends_mifareReadBlock blk)) h
  | mifareWriteBlock blk payload =>
    exact extends_next_hostCall (extends_whenReady (extends_mifareWriteBlock blk payload)) h
  | softReset => exact extends_next_hostCall (extends_onOpenHandle extends_softReset) h
  | init => exact extends_next_hostCall (extends_onOpenHandle extends_initChip) h
  | isTrailerBlock b => exact extends_next_hostCall (extends_pure _) h
  | ensure16Bytes xs => exact extends_next_hostCall (extends_pure _) h
  | detectCard => exact extends_next_hostCall (extends_whenReady extends_detectCard) h
  | setBits a m => exact extends_next_innerStep (extends_onOpenHandle (extends_setBits a m)) h
  | clearBits a m => exact extends_next_innerStep (extends_onOpenHandle (extends_clearBits a m)) h
  | pollUntil a m ms => exact extends_next_innerStep (extends_onOpenHandle (extends_pollUntil a m ms)) h
  | antennaOn => exact extends_next_innerStep (extends_onOpenHandle extends_antennaOn) h
  | spiWriteByte a v => exact extends_next_innerStep (extends_exchange _) h
  | spiReadByte a => exact extends_next_innerStep (extends_exchange _) h
  | spiBurstWrite a bs => exact extends_next_innerStep (extends_exchange _) h
  | cmdIdle | cmdCalcCrc | cmdTransceive | cmdMfAuthent | cmdSoftReset =>
    exact extends_next_innerStep (extends_issueCommand _) h
  | piccReqa | piccAnticoll | piccSelect | mfRead | mfWrite => exact extends_next_innerStep extends_frameStep h
  | mfAuthKeyA blk key uid =>
    exact extends_next_innerStep (extends_onOpenHandle (extends_withCfg fun _ =>
      extends_bind (extends_require _ _) fun _ => extends_authenticate _)) h
  | mfAck high fourBits => exact extends_next_innerStep (extends_withCfg fun _ => extends_pure _) h

/-- Settles O18: no primitive of the machine changes configuration or queue, removes an event or puts an answer back, so
no operation built from them does. -/
theorem historyOnlyGrows : Obligations.HistoryOnlyGrows := by
  intro i s t h
  obtain ⟨hcfg, hcalls, hevents, hanswers, hlinks, hexpiries, hdraws⟩ := extends_exec h
  exact ⟨hcfg, hcalls, hevents, hanswers, hlinks, hexpiries, hdraws⟩

/-! ## The step (rules R8, R9, R23) -/

/-- Settles O8: the step's own cases, a waiting call that decodes and an empty queue; the statement writes out `beginCall`
and `endCall`. -/
theorem stepRunsDecoded : Obligations.StepRunsDecoded := by
  constructor
  · intro s c rest i hc hd
    simp only [step, hc, decodeCall, hd]
    rfl
  · intro s hc
    simp only [step, hc]

end Sys2Proof.Machine
end

section
/-! SUPPORT. Preconditions and small facts of the state family (obligations O10, O11, O21, O30, O60): how a call ends whose
operation refuses at once, and what the single exchange of a command row does. -/

namespace Sys2Proof.Machine

variable {α : Type}

/-! ## Calls refused by a precondition (rules R23, R119, R255, R264) -/

/-- An operation that refuses before it does anything leaves the mark and the reason. -/
theorem hostCall_refusing {x : Op α} {r : RefusalReason} {s : State} (value : α → Value) (hb : s.busy = false)
    (hx : ∀ u, u.handle = s.handle → u.phase = s.phase → x u = .error (.refuse r) u) :
    hostCall x value s = refusedWith r s := by
  simp [hostCall, asHostCall, hb, hx, concluded, refusedWith, report, leaveOperation, markRefused]

theorem hostCall_busy (x : Op α) (value : α → Value) {s : State} (hb : s.busy = true) :
    hostCall x value s = refusedWith .concurrentCall s := by
  simp [hostCall, asHostCall, hb, concluded, refusedWith, report, markRefused]

theorem innerStep_refusing {x : Op α} {r : RefusalReason} {s : State} (value : α → Value)
    (hx : x s = .error (.refuse r) s) : innerStep x value s = refusedWith r s := by
  simp [innerStep, asStep, hx, concluded, refusedWith, report, markRefused]

theorem onOpenHandle_closed (x : Op α) {s : State} (h : s.handle = .closed) :
    onOpenHandle x s = .error (.refuse .notOpen) s := by
  simp [onOpenHandle, requireOpen_closed (isOpen_false.2 h)]

/-- `whenReady` is `onOpenHandle` of an operation that tests the phase, so this speaks of card operations as well. -/
theorem hostCall_closed (x : Op α) (value : α → Value) {s : State} (hb : s.busy = false) (h : s.handle = .closed) :
    hostCall (onOpenHandle x) value s = refusedWith .notOpen s :=
  hostCall_refusing value hb fun _ hu _ => onOpenHandle_closed x (hu.trans h)

theorem innerStep_closed (x : Op α) (value : α → Value) {s : State} (h : s.handle = .closed) :
    innerStep (onOpenHandle x) value s = refusedWith .notOpen s :=
  innerStep_refusing value (onOpenHandle_closed x h)

theorem whenReady_notReady (x : Op α) {s : State} (h : isOpen s.handle = true) (hp : s.phase ≠ .ready) :
    whenReady x s = .error (.refuse .notInitialised) s := by
  simp [whenReady, requireOpen_open h, requireReady_other hp]

theorem hostCall_notReady (x : Op α) (value : α → Value) {s : State} (hs : CanCall s) (hp : s.phase ≠ .ready) :
    hostCall (whenReady x) value s = refusedWith .notInitialised s :=
  have ⟨ho, hb⟩ := hs
  hostCall_refusing value hb fun _ hh hu => whenReady_notReady x (hh ▸ ho) (hu ▸ hp)

/-- A word that spells no instruction is refused whatever the state. -/
theorem unknownCall_eq (s : State) :
    unknownCall s = refusedWith (if s.busy then .concurrentCall else .unknownOperation) s := by
  cases hb : s.busy with
  | true => exact hostCall_busy _ _ hb
  | false => exact hostCall_refusing _ hb fun _ _ _ => rfl

/-- A command issue is one exchange whose reply is ignored. -/
theorem issueCommand_apply (code : Commands → Byte) (s : State) :
    issueCommand code s = (exchange (txWrite s.cfg.reg.command (code s.cfg.cmd)) >>= fun _ => pure ()) s := rfl

/-- Every host call is refused while another is in progress. -/
theorem exec_busy {i : Instr} {s : State} (hl : i.layer = .hostCall) (hb : s.busy = true) :
    exec i s = .next (refusedWith .concurrentCall s) := by
  cases i <;> cases hl <;> exact congrArg Host.Outcome.next (hostCall_busy _ _ hb)

/-- The handle is tested after `busy` and before anything else: by `onOpenHandle`, or by the exchange itself in the rows
that are one exchange. -/
theorem exec_closed {i : Instr} {s : State} (hb : i.layer = .hostCall → s.busy = false) (hc : s.handle = .closed)
    (hi : needsHandle i = true) : exec i s = .next (refusedWith .notOpen s) := by
  have hx := fun tx => exchange_closed tx (isOpen_false.2 hc)
  cases i
  case openTransport | close | isTrailerBlock | ensure16Bytes | mfAck => cases hi
  case spiWriteByte | spiReadByte | spiBurstWrite => exact congrArg Host.Outcome.next (innerStep_refusing _ (hx _))
  case cmdIdle | cmdCalcCrc | cmdTransceive | cmdMfAuthent | cmdSoftReset =>
    exact congrArg Host.Outcome.next (innerStep_refusing _ (by rw [issueCommand_apply, op_bind, hx]))
  case setBits | clearBits | pollUntil | antennaOn | piccReqa | piccAnticoll | piccSelect | mfAuthKeyA | mfRead
    | mfWrite => exact congrArg Host.Outcome.next (innerStep_closed _ _ hc)
  all_goals exact congrArg Host.Outcome.next (hostCall_closed _ _ (hb rfl) hc)

theorem exec_notReady {i : Instr} {s : State} (hs : CanCall s) (hp : s.phase ≠ .ready) (hi : isCardOperation i = true) :
    exec i s = .next (refusedWith .notInitialised s) := by
  cases i <;> cases hi <;> exact congrArg Host.Outcome.next (hostCall_notReady _ _ hs hp)

/-- Settles O21: `asHostCall` tests `busy` before the operation runs, `onOpenHandle` and `whenReady` the handle, and
`whenReady` the phase last. -/
theorem preconditionOrder : Obligations.PreconditionOrder := by
  intro i s
  exact ⟨exec_busy, exec_closed, exec_notReady⟩

/-! ## One exchange as a step (rules R29, R88, R110) -/

/-- A step that is one exchange and makes its value of the reply. -/
theorem innerStep_exchange {tx : List Byte} {x : Op α} {f : List Byte → α} (value : α → Value) {s : State}
    (h : isOpen s.handle = true) (hx : x s = (exchange tx >>= fun rx => pure (f rx)) s) :
    innerStep x value s = exchanged tx (fun rx => value (f rx)) s := by
  rw [op_bind, exchange_open tx h] at hx
  simp only [innerStep, asStep, exchanged]
  cases he : exchangeEnd tx (nextAnswer s tx) with
  | ok rx =>
    simp only [he, op_pure] at hx
    simp [hx, concluded, report, asked]
  | error r =>
    simp only [he] at hx
    simp [hx, concluded, report, enterError, asked, isTransport, h]

theorem innerStep_issueCommand (code : Commands → Byte) {s : State} (h : isOpen s.handle = true) :
    innerStep (issueCommand code) (fun _ => .unit) s =
      exchanged [encW s.cfg.reg.command, code s.cfg.cmd] (fun _ => .unit) s :=
  innerStep_exchange _ h (issueCommand_apply code s)

/-- Settles O30: each command row is the one exchange of `issueCommand`. -/
theorem chipCommands : Obligations.ChipCommands := by
  intro s h
  have row := fun code => congrArg (Host.Outcome.next (φ := Fault) (ρ := Refusal)) (innerStep_issueCommand code h)
  exact ⟨row Commands.idle, row Commands.calcCrc, row Commands.transceive, row Commands.mfAuthent, row Commands.softReset⟩

/-! ## The state at reset (rules R48, R290) -/

/-- Settles O10: `State.reset` is written out field by field. -/
theorem resetState : Obligations.ResetState := by
  unfold Obligations.ResetState
  exact ⟨rfl, rfl, rfl, rfl, rfl, rfl, rfl, rfl, rfl, rfl, rfl, rfl⟩

/-- Settles O11: the history is empty, and handle and phase are both closed. -/
theorem resetInv : Obligations.ResetInv :=
  ⟨rfl, ⟨fun _ => rfl, fun _ => rfl⟩, fun _ he => absurd he List.not_mem_nil⟩

/-! ## Masks and the interrupt registers (rule R46) -/

/-- Bits set by a mask are set. -/
theorem or_and_cancel (v m : Byte) : (v ||| m) &&& m = m := by
  ext k hk
  simpa using Or.inr

theorem irqWrite_clearing {old v : Byte} (h : v.getLsbD 7 = false) : irqWrite old v = old &&& ~~~v := by
  simp [irqWrite, h, -BitVec.getLsbD_eq_getElem]

/-- Settles O60: with bit 7 clear the written byte is a mask of the bits to clear. -/
theorem interruptClear : Obligations.InterruptClear := by
  refine ⟨fun old v hv k hk => ?_, fun old => ?_, fun old => irqWrite_clearing rfl⟩
  · simp [irqWrite_clearing hv, hk]
  · rw [irqWrite_clearing rfl, BitVec.and_assoc]
    exact BitVec.and_zero

end Sys2Proof.Machine
end

section
/-! SUPPORT. The reference chip serves the exchanges of `calcCrc` (rules R31, R39, R41, R46; obligation O59): what it
answers to a write, a burst and a read, and what each of these does to the registers and the FIFO under the default
configuration. -/

namespace Sys2Proof.Machine

/-! ## Served exchanges (rules R83 to R87) -/

/-- What the chip answers to a write: zeros. -/
abbrev ignored (n : Nat) : ExchangeAnswer := .reply (List.replicate n 0)

theorem chipServeAll_txBurst {c d : RefChip} {a : RegAddr} {bs : List Byte} (rest : List (List Byte))
    (h : bs.foldl (fun c v => chipWrite c a v) c = d) :
    chipServeAll c (txBurst a bs :: rest) = (chipServeAll d rest).map (ignored (1 + bs.length) :: ·) := by
  simp [chipServeAll, chipServe, txBurst, addrReserved_encW, addrIsRead_encW, addrReg_encW, h, ignored]

theorem chipServeAll_txWrite {c d : RefChip} {a : RegAddr} {v : Byte} (rest : List (List Byte))
    (h : chipWrite c a v = d) : chipServeAll c (txWrite a v :: rest) = (chipServeAll d rest).map (ignored 2 :: ·) :=
  chipServeAll_txBurst (bs := [v]) rest h

theorem chipServeAll_txRead {c d : RefChip} {a : RegAddr} {v : Byte} (rest : List (List Byte))
    (h : chipRead c a = (d, v)) : chipServeAll c (txRead a :: rest) = (chipServeAll d rest).map (.reply [0, v] :: ·) := by
  simp [chipServeAll, chipServe, txRead, addrReserved_encR, addrIsRead_encR, addrReg_encR, h]

/-! ## Reads (rules R28, R39, R41) -/

section
variable {c : RefChip} (hc : c.cfg = Cfg.default)
include hc

theorem addr_default (r : ChipReg) : c.addr r = chipRegAddr Cfg.default.reg r := by rw [RefChip.addr, hc]

/-- A read outside the FIFO changes no register; a bit whose access does not read is 0 or free. -/
theorem chipRead_outside {a : RegAddr} (hd : a ≠ 0x09) (hl : a ≠ 0x0A) :
    chipRead c a = ({ c with draws := c.draws + 1 },
      (chipReg c a &&& bitsAt Cfg.default.reg accessReads a) ||| (Config.freeChipByte c.draws &&&
        ~~~(bitsAt Cfg.default.reg accessReads a ||| bitsAt Cfg.default.reg accessReadsZero a))) := by
  have hd' : a ≠ c.addr .fifoData := addr_default hc .fifoData ▸ hd
  have hl' : a ≠ c.addr .fifoLevel := addr_default hc .fifoLevel ▸ hl
  simp only [chipRead, if_neg hd', if_neg hl', hc]

/-- A bit whose access reads is read as it is held. -/
theorem chipRead_bits {a : RegAddr} (hd : a ≠ 0x09) (hl : a ≠ 0x0A) (m : Byte)
    (hm : bitsAt Cfg.default.reg accessReads a &&& m = m) : (chipRead c a).2 &&& m = chipReg c a &&& m := by
  rw [chipRead_outside hc hd hl]
  ext k hk
  cases hmk : m[k] with
  | false => simp [hmk]
  | true =>
    have hread : (bitsAt Cfg.default.reg accessReads a)[k] = true := by
      have := congrArg (·[k]) hm
      simpa [hmk] using this
    simp [hmk, hread]

theorem chipRead_byte {a : RegAddr} (hd : a ≠ 0x09) (hl : a ≠ 0x0A) (hm : bitsAt Cfg.default.reg accessReads a = 0xFF) :
    chipRead c a = ({ c with draws := c.draws + 1 }, chipReg c a) := by
  have hall (x : Byte) : x &&& 0xFF = x := BitVec.and_allOnes
  have h := chipRead_bits hc hd hl 0xFF (by rw [hm]; rfl)
  rw [hall, hall] at h
  exact Prod.ext (by rw [chipRead_outside hc hd hl]) h

/-! ## Writes (rules R28, R35, R46, R70) -/

theorem chipWrite_fifoData (v : Byte) : chipWrite c 0x09 v = chipPush c v := by
  simp [chipWrite, RefChip.addr, hc, chipRegAddr, Cfg.default]

theorem chipWrite_flush : chipWrite c 0x0A 0x80 = chipFlush c := by
  simp [chipWrite, RefChip.addr, hc, chipRegAddr, Cfg.default]

theorem chipWrite_divIrq (v : Byte) : chipWrite c 0x05 v = setChipReg c 0x05 (irqWrite (chipReg c 0x05) v) := by
  simp [chipWrite, RefChip.addr, hc, chipRegAddr, Cfg.default]

theorem chipWrite_idle : chipWrite c 0x01 0x00 = holdBits c 0x01 0x00 := by
  simp [chipWrite, chipCommand, RefChip.addr, hc, chipRegAddr, Cfg.default, chipCommandOf]

theorem chipWrite_calcCrc : chipWrite c 0x01 0x03 = chipCalcCrc (holdBits c 0x01 0x03) := by
  simp [chipWrite, chipCommand, RefChip.addr, hc, chipRegAddr, Cfg.default, chipCommandOf]

/-- While no CRC runs, a burst to a FIFO with room for it is appended. -/
theorem foldl_chipWrite_fifoData (bs : List Byte) (hr : crcRunning c = false)
    (hl : c.fifo.length + bs.length ≤ Config.fifoCapacity) :
    bs.foldl (fun c v => chipWrite c 0x09 v) c = { c with fifo := c.fifo ++ bs } := by
  induction bs generalizing c with
  | nil => simp
  | cons b bs ih =>
    rw [List.length_cons] at hl
    have hroom : c.fifo.length < Config.fifoCapacity := by omega
    have hpush : chipWrite c 0x09 b = { c with fifo := c.fifo ++ [b] } := by
      rw [chipWrite_fifoData hc, chipPush, hr, if_pos hroom]
      rfl
    rw [List.foldl_cons, hpush, ih (c := { c with fifo := c.fifo ++ [b] }) hc hr (by simp; omega)]
    simp

/-! ## The CRC unit (rules R31, R39, R41) -/

theorem fifoOverflowed_eq : fifoOverflowed c = (chipReg c 0x06).getLsbD 4 := by
  rw [fifoOverflowed, addr_default hc]
  rfl

theorem crcRunning_idle (h : chipReg c 0x01 &&& 0x0F = 0x00) : crcRunning c = false := by
  have ha : c.addr .command = 0x01 := addr_default hc .command
  rw [crcRunning, ha, h, hc]
  decide

/-- The Idle command in the command field (rule R29). -/
theorem chipReg_holdBits_idle (hl : c.regs.length = 64) : chipReg (holdBits c 0x01 0x00) 0x01 &&& 0x0F = 0x00 := by
  have hb : bitsAt Cfg.default.reg accessStores 0x01 = 0x3F := by decide
  rw [holdBits, chipReg_setChipReg_same _ _ _ hl, hc, hb]
  simp [BitVec.and_assoc]

/-- A flush touches no register but `ErrorReg`. -/
theorem chipReg_chipFlush_ne {a : RegAddr} (h : 0x06 ≠ a) : chipReg (chipFlush c) a = chipReg c a := by
  rw [chipFlush, addr_default hc]
  exact chipReg_setChipReg_ne c 0x06 a _ h

theorem chipFlush_noOverflow (hl : c.regs.length = 64) : (chipReg (chipFlush c) 0x06).getLsbD 4 = false := by
  have h : chipReg (chipFlush c) 0x06 = chipReg c 0x06 &&& ~~~0x10 := by
    rw [chipFlush, addr_default hc]
    exact chipReg_setChipReg_same c 0x06 _ hl
  rw [h]
  simp

end

theorem chipReg_holdBits_ne (c : RefChip) {a b : RegAddr} (v : Byte) (h : a ≠ b) :
    chipReg (holdBits c a v) b = chipReg c b := chipReg_setChipReg_ne _ _ _ _ h

/-- The CRC unit has done with the value `crc`: the result registers, and `CRCIRq`. -/
structure CrcDone (c : RefChip) (crc : BitVec 16) : Prop where
  cfg : c.cfg = Cfg.default
  lo : chipReg c 0x22 = crc.extractLsb' 0 8
  hi : chipReg c 0x21 = crc.extractLsb' 8 8
  irq : chipReg c 0x05 &&& 0x04 = 0x04

theorem crcDone_putCrc {c : RefChip} (hc : c.cfg = Cfg.default) (hl : c.regs.length = 64) (crc : BitVec 16) :
    CrcDone (putCrc c crc) crc := by
  have hput : putCrc c crc =
      let d := setChipReg (setChipReg c 0x22 (crc.extractLsb' 0 8)) 0x21 (crc.extractLsb' 8 8)
      setChipReg d 0x05 (chipReg d 0x05 ||| 0x04) := by
    simp only [putCrc, RefChip.addr, setChipReg_cfg, hc]
    rfl
  rw [hput]
  refine ⟨hc, ?_, ?_, ?_⟩
  · rw [chipReg_setChipReg_ne _ _ _ _ (by decide), chipReg_setChipReg_ne _ _ _ _ (by decide),
      chipReg_setChipReg_same _ _ _ hl]
  · rw [chipReg_setChipReg_ne _ _ _ _ (by decide), chipReg_setChipReg_same _ _ _ (by simp [hl])]
  · rw [chipReg_setChipReg_same _ _ _ (by simp [hl])]
    exact or_and_cancel _ _

/-- The end of the command touches `CommandReg` and `ComIrqReg` only. -/
theorem CrcDone.endCommand {c : RefChip} {crc : BitVec 16} (h : CrcDone c crc) : CrcDone (endCommand c) crc := by
  obtain ⟨hc, hlo, hhi, hirq⟩ := h
  have hreg : ∀ a : RegAddr, 0x01 ≠ a → 0x04 ≠ a → chipReg (Machine.endCommand c) a = chipReg c a := by
    intro a h1 h4
    simp only [Machine.endCommand, RefChip.addr, setChipReg_cfg, hc]
    exact (chipReg_setChipReg_ne _ _ _ _ h4).trans (chipReg_setChipReg_ne _ _ _ _ h1)
  exact ⟨hc, (hreg _ (by decide) (by decide)).trans hlo, (hreg _ (by decide) (by decide)).trans hhi,
    by rw [hreg _ (by decide) (by decide)]; exact hirq⟩

/-- With the preset of CRC_A and `MSBFirst` clear (rule R39) the unit computes CRC_A of the FIFO. -/
theorem foldl_crcStep {mode : Byte} (h : mode &&& 0x83 = 0x01) (bs : List Byte) :
    bs.foldl (crcStep mode) (crcPreset mode) = crc16 0x6363 bs := by
  have hmsb : mode.getLsbD 7 = false := by
    have := congrArg (fun m : Byte => m.getLsbD 7) h
    simpa using this
  have hpre : mode &&& 0x03 = 0x01 := by
    have := congrArg (· &&& (0x03 : Byte)) h
    simpa [BitVec.and_assoc] using this
  have hstep : crcStep mode = crcByte := by
    funext crc b
    simp only [crcStep, hmsb]
    rfl
  rw [hstep, crcPreset, hpre]
  rfl

/-- The chip is ready for CalcCRC over the bytes `bs`: Idle, with the preset of CRC_A and `MSBFirst` clear (rule R39), and
`bs` in a FIFO that has not overflowed. -/
structure CrcReady (c : RefChip) (bs : List Byte) : Prop where
  cfg : c.cfg = Cfg.default
  length : c.regs.length = 64
  mode : chipReg c 0x11 &&& 0x83 = 0x01
  idle : chipReg c 0x01 &&& 0x0F = 0x00
  noOverflow : (chipReg c 0x06).getLsbD 4 = false
  fifo : c.fifo = bs

theorem crcDone_chipWrite {c : RefChip} {bs : List Byte} (h : CrcReady c bs) :
    CrcDone (chipWrite c 0x01 0x03) (crc16 0x6363 bs) := by
  obtain ⟨hc, hl, hm, -, ho, rfl⟩ := h
  rw [chipWrite_calcCrc hc]
  have hov : fifoOverflowed (holdBits c 0x01 0x03) = false := by
    rw [fifoOverflowed_eq (c := holdBits c 0x01 0x03) hc, chipReg_holdBits_ne _ _ (by decide), ho]
  have hmode : chipReg (holdBits c 0x01 0x03) ((holdBits c 0x01 0x03).addr .mode) = chipReg c 0x11 := by
    rw [addr_default (c := holdBits c 0x01 0x03) hc]
    exact chipReg_holdBits_ne _ _ (by decide)
  obtain ⟨hcfg, hlo, hhi, hirq⟩ :=
    crcDone_putCrc (c := holdBits c 0x01 0x03) hc ((holdBits_length ..).trans hl) (crc16 0x6363 c.fifo)
  have hfifo : (holdBits c 0x01 0x03).fifo = c.fifo := rfl
  simp only [chipCalcCrc, hov, hmode, hfifo, foldl_crcStep hm]
  split
  · exact ⟨hcfg, hlo, hhi, hirq⟩
  · exact CrcDone.endCommand ⟨hcfg, hlo, hhi, hirq⟩

/-! ## The exchanges of `calcCrc` (rule R136) -/

/-- The chip after the first three exchanges of `calcCrc`: Idle, `CRCIRq` cleared, the FIFO flushed. -/
def chipPrepared (c : RefChip) : RefChip :=
  chipFlush (setChipReg (holdBits c 0x01 0x00) 0x05 (irqWrite (chipReg (holdBits c 0x01 0x00) 0x05) 0x04))

theorem chipServeAll_prepare {c : RefChip} (hc : c.cfg = Cfg.default) (rest : List (List Byte)) :
    chipServeAll c (txWrite 0x01 0x00 :: txWrite 0x05 0x04 :: txWrite 0x0A 0x80 :: rest) =
      (chipServeAll (chipPrepared c) rest).map fun as => ignored 2 :: ignored 2 :: ignored 2 :: as := by
  rw [chipServeAll_txWrite _ (chipWrite_idle hc),
    chipServeAll_txWrite _ (chipWrite_divIrq (c := holdBits c 0x01 0x00) hc 0x04),
    chipServeAll_txWrite _ (chipWrite_flush (c := setChipReg (holdBits c 0x01 0x00) 0x05 _) hc), chipPrepared]
  simp only [Option.map_map]
  rfl

theorem crcReady_chipPrepared {c : RefChip} (hc : c.cfg = Cfg.default) (hl : c.regs.length = 64)
    (hm : chipReg c 0x11 &&& 0x83 = 0x01) : CrcReady (chipPrepared c) [] := by
  let d := setChipReg (holdBits c 0x01 0x00) 0x05 (irqWrite (chipReg (holdBits c 0x01 0x00) 0x05) 0x04)
  have hd : d.cfg = Cfg.default := hc
  refine ⟨hc, by simp [chipPrepared, chipFlush, hl], ?_, ?_, chipFlush_noOverflow hd (by simpa [d] using hl), rfl⟩
  · rw [chipPrepared, chipReg_chipFlush_ne hd (by decide), chipReg_setChipReg_ne _ _ _ _ (by decide),
      chipReg_holdBits_ne _ _ (by decide), hm]
  · rw [chipPrepared, chipReg_chipFlush_ne hd (by decide), chipReg_setChipReg_ne _ _ _ _ (by decide),
      chipReg_holdBits_idle hc hl]

theorem CrcReady.load {c : RefChip} {bs : List Byte} (h : CrcReady c []) (hb : bs.length ≤ 64) :
    ∃ d, bs.foldl (fun c v => chipWrite c 0x09 v) c = d ∧ CrcReady d bs := by
  obtain ⟨hc, hl, hm, hi, ho, hf⟩ := h
  refine ⟨_, foldl_chipWrite_fifoData hc bs (crcRunning_idle hc hi) ?_, hc, hl, hm, hi, ho, by simp [hf]⟩
  rw [hf]
  simpa [Config.fifoCapacity] using hb

/-- A poll sees `CRCIRq`, and the result registers are read as they are held. -/
theorem CrcDone.reads {c : RefChip} {crc : BitVec 16} (h : CrcDone c crc) :
    ∃ v : Byte, v &&& 0x04 ≠ 0 ∧ chipServeAll c [txRead 0x05, txRead 0x22, txRead 0x21] =
      some [.reply [0, v], .reply [0, crc.extractLsb' 0 8], .reply [0, crc.extractLsb' 8 8]] := by
  obtain ⟨hc, hlo, hhi, hirq⟩ := h
  refine ⟨(chipRead c 0x05).2, ?_, ?_⟩
  · rw [chipRead_bits hc (by decide) (by decide) _ (by decide), hirq]
    decide
  · have hpoll : chipRead c 0x05 = ({ c with draws := c.draws + 1 }, (chipRead c 0x05).2) := by
      rw [chipRead_outside hc (by decide) (by decide)]
    rw [chipServeAll_txRead _ hpoll,
      chipServeAll_txRead _ (chipRead_byte (c := { c with draws := c.draws + 1 }) hc (by decide) (by decide) (by decide)),
      chipServeAll_txRead _ (chipRead_byte (c := { c with draws := c.draws + 2 }) hc (by decide) (by decide) (by decide)),
      ← hlo, ← hhi]
    rfl

/-- Settles O59: the first three exchanges make the chip ready, the load fills its FIFO, the command computes CRC_A. -/
theorem referenceChipCrc : Obligations.ReferenceChipCrc := by
  refine ⟨fun chip buffer hc hl hm hb => ?_, by decide +kernel, by decide +kernel⟩
  obtain ⟨loaded, hload, hready⟩ := (crcReady_chipPrepared hc hl hm).load hb
  obtain ⟨v, hv, hreads⟩ := (crcDone_chipWrite hready).reads
  refine ⟨[ignored 2, ignored 2, ignored 2, ignored (1 + buffer.length), ignored 2], v, _, _, rfl, hv, rfl, ?_⟩
  change chipServeAll chip [txWrite 0x01 0x00, txWrite 0x05 0x04, txWrite 0x0A 0x80, txBurst 0x09 buffer,
    txWrite 0x01 0x03, txRead 0x05, txRead 0x22, txRead 0x21] = _
  rw [chipServeAll_prepare hc, chipServeAll_txBurst _ hload, chipServeAll_txWrite _ rfl, hreads]
  rfl

end Sys2Proof.Machine
end

section
/-! SUPPORT. What a program of the core may do (obligations O12, O19, O20 and O52), in one predicate with one lemma per
operation. `ActsAt P q c x`: run under the configuration `c`, the program `x`
- does the same whatever has been recorded before (`blind`; rules R8, R20), and
- adds only events satisfying `P`, keeps the handle and moves the phase at most to one that `q` allows (`moves`; rules R45,
  R48).
`open` and `close`, which change the handle, have their own lemmas at the end. -/

namespace Sys2Proof.Machine

variable {α β : Type}

/-! ## The record of a state -/

/-- The state with an empty record: nothing of what has been seen. -/
def forget (s : State) : State := { s with events := [], outcomes := [], refused := false }

/-- The state `t` with the record of `s` before its own. -/
def remember (s t : State) : State :=
  { t with events := s.events ++ t.events, outcomes := s.outcomes ++ t.outcomes, refused := s.refused || t.refused }

@[simp] theorem forget_cfg (s : State) : (forget s).cfg = s.cfg := rfl
@[simp] theorem forget_handle (s : State) : (forget s).handle = s.handle := rfl
@[simp] theorem forget_phase (s : State) : (forget s).phase = s.phase := rfl
@[simp] theorem forget_busy (s : State) : (forget s).busy = s.busy := rfl

@[simp] theorem remember_forget (s : State) : remember s (forget s) = s := by simp [remember, forget]

@[simp] theorem forget_remember (s t : State) : forget (remember s t) = forget t := rfl

theorem remember_remember (s t u : State) : remember (remember s t) u = remember s (remember t u) := by
  simp [remember, Bool.or_assoc]

theorem forget_eq_of_sameButRecord {s t : State} (h : SameButRecord s t) : forget t = forget s := by
  rw [h]; rfl

theorem sameButRecord_remember (s t u : State) : SameButRecord (remember s u) (remember t u) := rfl

/-- The end of a program with the record of `s` before its own. -/
def remembered (s : State) : EStateM.Result Stop State α → EStateM.Result Stop State α
  | .ok a t => .ok a (remember s t)
  | .error e t => .error e (remember s t)

theorem remembered_remember (s t : State) (r : EStateM.Result Stop State α) :
    remembered (remember s t) r = remembered s (remembered t r) := by
  cases r <;> simp [remembered, remember_remember]

/-! ## The frame -/

/-- From `s` to `t` only events satisfying `P` were added, the handle stayed, and the phase stayed or became one that
`q` allows under the handle. -/
structure Moves (P : Event → Prop) (q : Handle → Phase → Prop) (s t : State) : Prop where
  cfg : t.cfg = s.cfg
  handle : t.handle = s.handle
  phase : t.phase = s.phase ∨ q t.handle t.phase
  busy : t.busy = s.busy
  outcomes : t.outcomes = s.outcomes
  events : ∃ es, t.events = s.events ++ es ∧ ∀ e ∈ es, P e

variable {P Q : Event → Prop} {q : Handle → Phase → Prop} {c : Cfg}

theorem Moves.of_grown {s t : State} (h : Grown (fun _ => P) s t) : Moves P q s t :=
  ⟨h.cfg, h.handle, .inl h.phase, h.busy, h.outcomes, h.events⟩

theorem Moves.refl (s : State) : Moves P q s s := .of_grown (.refl s)

theorem Moves.trans {s t u : State} (h : Moves P q s t) (k : Moves P q t u) : Moves P q s u := by
  obtain ⟨es, he, hp⟩ := h.events
  obtain ⟨fs, hf, hq⟩ := k.events
  refine ⟨k.cfg.trans h.cfg, k.handle.trans h.handle, ?_, k.busy.trans h.busy, k.outcomes.trans h.outcomes, es ++ fs,
    by rw [hf, he, List.append_assoc], fun e hm => (List.mem_append.1 hm).elim (hp e) (hq e)⟩
  rcases k.phase with hk | hk
  · rw [hk, k.handle]; exact h.phase
  · exact .inr hk

theorem Moves.imp {q' : Handle → Phase → Prop} {s t : State} (h : Moves P q s t) (hP : ∀ e, P e → Q e)
    (hq : ∀ h p, q h p → q' h p) : Moves Q q' s t := by
  obtain ⟨es, he, hp⟩ := h.events
  exact ⟨h.cfg, h.handle, h.phase.imp_right (hq _ _), h.busy, h.outcomes, es, he, fun e hm => hP e (hp e hm)⟩

/-- What the program `x` may do under the configuration `c`. -/
structure ActsAt (P : Event → Prop) (q : Handle → Phase → Prop) (c : Cfg) (x : Op α) : Prop where
  blind : ∀ s, s.cfg = c → x s = remembered s (x (forget s))
  moves : ∀ s, s.cfg = c → Moves P q s (reached (x s))

theorem ActsAt.imp {q' : Handle → Phase → Prop} {x : Op α} (h : ActsAt P q c x) (hP : ∀ e, P e → Q e)
    (hq : ∀ h p, q h p → q' h p) : ActsAt Q q' c x := ⟨h.blind, fun s hs => (h.moves s hs).imp hP hq⟩

theorem ActsAt.imp_event {x : Op α} (h : ActsAt P q c x) (hP : ∀ e, P e → Q e) : ActsAt Q q c x :=
  h.imp hP fun _ _ => id

/-- A program with the frame `Stays` of Laws/Ops.lean. -/
theorem acts_of_stays {x : Op α} (h : StaysAt (fun _ => P) c x) (hx : ∀ s, x s = remembered s (x (forget s))) :
    ActsAt P q c x := ⟨fun s _ => hx s, fun s hs => .of_grown (h s hs)⟩

/-! ## Programs -/

theorem acts_pure (a : α) : ActsAt P q c (pure a : Op α) :=
  acts_of_stays (staysAt_pure a) fun s => by simp [remembered]

theorem acts_raise (e : Error) : ActsAt P q c (raise e : Op α) :=
  acts_of_stays (staysAt_raise e) fun s => by simp [remembered]

theorem acts_refuse (r : RefusalReason) : ActsAt P q c (refuse r : Op α) :=
  acts_of_stays ((stays_refuse r).at c) fun s => by simp [remembered]

/-- The second program starts where the first ended, under the same configuration, and knows no more of the record. -/
theorem acts_bind {x : Op α} {f : α → Op β} (hx : ActsAt P q c x) (hf : ∀ a, ActsAt P q c (f a)) :
    ActsAt P q c (x >>= f) := by
  constructor
  · intro s hs
    have hb := hx.blind s hs
    have hm := hx.moves (forget s) hs
    simp only [op_bind, hb]
    cases hr : x (forget s) with
    | error e u => rfl
    | ok a u =>
      rw [hr] at hm
      have hu : u.cfg = c := hm.cfg.trans hs
      simp only [remembered]
      rw [(hf a).blind (remember s u) hu, (hf a).blind u hu, forget_remember, remembered_remember]
      rfl
  · intro s hs
    have hm := hx.moves s hs
    rw [op_bind]
    cases hr : x s with
    | error e t => rw [hr] at hm; exact hm
    | ok a t =>
      rw [hr] at hm
      exact hm.trans ((hf a).moves t (hm.cfg.trans hs))

theorem acts_getCfg {f : Cfg → Op α} (h : ActsAt P q c (f c)) : ActsAt P q c (getCfg >>= f) := by
  constructor <;> rintro s rfl
  · exact h.blind s rfl
  · exact h.moves s rfl

theorem acts_require (b : Bool) (r : RefusalReason) : ActsAt P q c (require b r) := by
  cases b
  · exact acts_refuse r
  · exact acts_pure ()

/-- A precondition on handle and phase. -/
theorem acts_test (b : Handle → Phase → Bool) (r : RefusalReason) :
    ActsAt P q c (fun s => require (b s.handle s.phase) r s) where
  blind s hs := (acts_require (P := P) (q := q) _ r).blind s hs
  moves s hs := (acts_require _ r).moves s hs

theorem acts_requireOpen : ActsAt P q c requireOpen := acts_test (fun h _ => isOpen h) .notOpen

theorem acts_requireReady : ActsAt P q c requireReady := acts_test (fun _ p => decide (p = .ready)) .notInitialised

theorem acts_requireNotReady : ActsAt P q c requireNotReady :=
  acts_test (fun _ p => decide (p ≠ .ready)) .alreadyInitialised

theorem acts_registerOperand (a : Byte) : ActsAt P q c (registerOperand a) := by
  unfold registerOperand
  split
  · exact acts_pure _
  · exact acts_refuse _

theorem acts_blockOperand (blk : Nat) : ActsAt P q c (blockOperand blk) := by
  unfold blockOperand
  split
  · exact acts_pure _
  · exact acts_refuse _

theorem acts_record {e : Event} (h : P e) : ActsAt P q c (record e) :=
  acts_of_stays ((stays_record fun _ => h).at c) fun s => by simp [remembered, remember, forget]

theorem acts_drawExpiry : ActsAt P q c drawExpiry :=
  acts_of_stays (stays_drawExpiry.at c) fun s => by simp [drawExpiry_apply, remembered, remember, forget]

theorem acts_setPhase {p : Phase} (h : ∀ hd, q hd p) : ActsAt P q c (setPhase p) where
  blind s _ := by simp [remembered, remember, forget]
  moves s _ := { Moves.refl (P := P) (q := q) s with phase := .inr (h _) }

/-! ## The register interface -/

theorem blind_exchange (tx : List Byte) (s : State) : exchange tx s = remembered s (exchange tx (forget s)) := by
  cases ho : isOpen s.handle with
  | false => simp [exchange_closed tx ho, exchange_closed tx (s := forget s) ho, remembered]
  | true =>
    have hn : nextAnswer (forget s) tx = nextAnswer s tx := rfl
    have ha : remember s (asked (forget s) tx) = asked s tx := by
      simp only [remember, asked, hn]
      simp [forget]
    rw [exchange_open tx ho, exchange_open tx (s := forget s) ho, hn]
    cases exchangeEnd tx (nextAnswer s tx) <;> simp [remembered, ha]

theorem acts_exchange {tx : List Byte} (h : ∀ x, P (.exchange tx x)) : ActsAt P q c (exchange tx) :=
  acts_of_stays (staysAt_exchange h) (blind_exchange tx)

theorem acts_readRegister {a : RegAddr} (h : ∀ x, P (.exchange (txRead a) x)) : ActsAt P q c (readRegister a) :=
  acts_bind (acts_exchange h) fun _ => acts_pure _

theorem acts_writeRegister {a : RegAddr} {v : Byte} (h : ∀ x, P (.exchange (txWrite a v) x)) :
    ActsAt P q c (writeRegister a v) := acts_bind (acts_exchange h) fun _ => acts_pure _

theorem acts_writeRegisterBurst {a : RegAddr} {bs : List Byte} (h : ∀ x, P (.exchange (txBurst a bs) x)) :
    ActsAt P q c (writeRegisterBurst a bs) := acts_bind (acts_exchange h) fun _ => acts_pure _

theorem acts_setBits {a : RegAddr} {m : Byte} (hr : ∀ x, P (.exchange (txRead a) x))
    (hw : ∀ v x, P (.exchange (txWrite a (withBits v m)) x)) : ActsAt P q c (setBits a m) :=
  acts_bind (acts_readRegister hr) fun _ => acts_writeRegister (hw _)

theorem acts_clearBits {a : RegAddr} {m : Byte} (hr : ∀ x, P (.exchange (txRead a) x))
    (hw : ∀ v x, P (.exchange (txWrite a (withoutBits v m)) x)) : ActsAt P q c (clearBits a m) :=
  acts_bind (acts_readRegister hr) fun _ => acts_writeRegister (hw _)

theorem acts_pollLoop {a : RegAddr} {m : Byte} (hr : ∀ x, P (.exchange (txRead a) x)) (he : ∀ b, P (.expired b))
    (k : Nat) : ActsAt P q c (pollLoop a m k) := by
  induction k with
  | zero =>
    refine acts_bind (acts_readRegister hr) fun v => ?_
    split
    · exact acts_pure _
    · exact acts_bind (acts_record (he _)) fun _ => acts_pure _
  | succ k ih =>
    refine acts_bind (acts_readRegister hr) fun v => ?_
    split
    · exact acts_pure _
    · exact acts_bind (acts_record (he _)) fun _ => ih

theorem acts_pollUntil {a : RegAddr} {m : Byte} {ms : Nat} (hr : ∀ x, P (.exchange (txRead a) x))
    (he : ∀ b, P (.expired b)) (hd : P (.deadlineStart ms)) : ActsAt P q c (pollUntil a m ms) :=
  acts_bind (acts_record hd) fun _ => acts_bind acts_drawExpiry fun k => acts_pollLoop hr he k

/-! ## The events of the core (rules R45, R81, R87) -/

/-- An event of `init` or of the operations above the register interface: its bytes are well formed, and what it writes
is in rule R45's table. -/
def TableEvent (c : Cfg) (e : Event) : Prop := wireOk e = true ∧ listedWrite c e = true

/-- An event of the operations above the register interface, `init` aside. -/
def CoreTableEvent (c : Cfg) (e : Event) : Prop := CoreEvent c e ∧ listedWrite c e = true

theorem CoreTableEvent.table {e : Event} : CoreTableEvent c e → TableEvent c e
  | ⟨⟨hwire, _⟩, hlisted⟩ => ⟨hwire, hlisted⟩

theorem listedWrite_txRead (c : Cfg) (a : RegAddr) (x : ExchangeAnswer) :
    listedWrite c (.exchange (txRead a) x) = true := by
  simp [listedWrite, txRead, addrIsRead_encR]

theorem coreTable_read (a : RegAddr) (x : ExchangeAnswer) : CoreTableEvent c (.exchange (txRead a) x) :=
  ⟨coreEvent_read c a x, listedWrite_txRead c a x⟩

theorem coreTable_load (bs : List Byte) (x : ExchangeAnswer) :
    CoreTableEvent c (.exchange (txBurst c.reg.fifoData bs) x) :=
  ⟨coreEvent_burst (mem_fifoData c) bs x, by simp [listedWrite, txBurst]⟩

theorem coreTable_write {a : RegAddr} {v : Byte} (ha : a ∈ coreWrites c)
    (hl : ∀ x, listedWrite c (.exchange (txWrite a v) x) = true) (x : ExchangeAnswer) :
    CoreTableEvent c (.exchange (txWrite a v) x) := ⟨coreEvent_write ha v x, hl x⟩

theorem coreTable_framing (v : Byte) (x : ExchangeAnswer) :
    CoreTableEvent c (.exchange (txWrite c.reg.bitFraming v) x) :=
  coreTable_write (mem_bitFraming c) (fun _ => by simp [listedWrite, txWrite]) x

variable (c) in
/-- The commands the core issues (rule R88). -/
def issuedCommands : List Byte := [c.cmd.idle, c.cmd.calcCrc, c.cmd.transceive, c.cmd.mfAuthent, c.cmd.softReset]

theorem coreTable_command {v : Byte} (hv : v ∈ issuedCommands c) (x : ExchangeAnswer) :
    CoreTableEvent c (.exchange (txWrite c.reg.command v) x) := by
  refine coreTable_write (mem_command c) (fun _ => ?_) x
  have : (issuedCommands c).contains v = true := by simpa using hv
  simp only [issuedCommands] at this
  simp only [listedWrite, txWrite, this, beq_self_eq_true, Bool.true_and, Bool.true_or, Bool.or_true]

theorem anySet_withoutBits (v m : Byte) : anySet (withoutBits v m) m = false := by
  simp [anySet, withoutBits, BitVec.and_assoc]

theorem allSet_withBits (v m : Byte) : allSet (withBits v m) m = true := by
  simp only [allSet, withBits, or_and_cancel, beq_self_eq_true]

/-! ## FIFO and CRC -/

theorem acts_flushFifo : ActsAt (CoreTableEvent c) q c flushFifo :=
  acts_getCfg (acts_writeRegister (coreTable_write (mem_fifoLevel c) fun _ => by simp [listedWrite, txWrite]))

theorem acts_fifoLevel : ActsAt (CoreTableEvent c) q c fifoLevel :=
  acts_getCfg (acts_bind (acts_readRegister (coreTable_read _)) fun _ => acts_pure _)

theorem acts_readFifoBytes (n : Nat) : ActsAt (CoreTableEvent c) q c (readFifoBytes n) := by
  induction n with
  | zero => exact acts_pure _
  | succ n ih =>
    exact acts_getCfg (acts_bind (acts_readRegister (coreTable_read _)) fun _ => acts_bind ih fun _ => acts_pure _)

theorem acts_command {v : Byte} (hv : v ∈ issuedCommands c := by simp [issuedCommands]) :
    ActsAt (CoreTableEvent c) q c (writeRegister c.reg.command v) := acts_writeRegister (coreTable_command hv)

theorem acts_clearComIrq : ActsAt (CoreTableEvent c) q c (writeRegister c.reg.comIrq c.mask.comIrqClearAll) :=
  acts_writeRegister (coreTable_write (mem_comIrq c) fun _ => by simp [listedWrite, txWrite])

theorem acts_clearCrcIrq : ActsAt (CoreTableEvent c) q c (writeRegister c.reg.divIrq c.mask.crcIRq) :=
  acts_writeRegister (coreTable_write (mem_divIrq c) fun _ => by simp [listedWrite, txWrite])

theorem acts_load (bs : List Byte) : ActsAt (CoreTableEvent c) q c (writeRegisterBurst c.reg.fifoData bs) :=
  acts_writeRegisterBurst (coreTable_load bs)

theorem acts_poll (a : RegAddr) (m : Byte) (ms : Nat) : ActsAt (CoreTableEvent c) q c (pollUntil a m ms) :=
  acts_pollUntil (coreTable_read a) (fun b => ⟨coreEvent_expired c b, rfl⟩) ⟨coreEvent_deadline ms c, rfl⟩

theorem acts_calcCrc (buffer : List Byte) : ActsAt (CoreTableEvent c) q c (calcCrc buffer) := by
  refine acts_bind (acts_require _ _) fun _ => acts_getCfg (acts_bind acts_command fun _ => ?_)
  refine acts_bind acts_clearCrcIrq fun _ => acts_bind acts_flushFifo fun _ => acts_bind (acts_load _) fun _ => ?_
  refine acts_bind acts_command fun _ => acts_bind (acts_poll _ _ _) fun ⟨v, why⟩ => ?_
  cases why with
  | deadline => exact acts_raise _
  | bit =>
    exact acts_bind (acts_readRegister (coreTable_read _)) fun _ =>
      acts_bind (acts_readRegister (coreTable_read _)) fun _ => acts_pure _

theorem acts_appendCrc (f : List Byte) : ActsAt (CoreTableEvent c) q c (appendCrc f) :=
  acts_bind (acts_calcCrc f) fun _ => acts_pure _

/-! ## Transceive -/

theorem acts_transceivePreamble (frame : List Byte) (vb : Byte) :
    ActsAt (CoreTableEvent c) q c (transceivePreamble frame vb) := by
  refine acts_getCfg (acts_bind acts_command fun _ => acts_bind acts_clearComIrq fun _ => ?_)
  refine acts_bind acts_flushFifo fun _ => acts_bind (acts_load _) fun _ => ?_
  refine acts_bind (acts_writeRegister (coreTable_framing _)) fun _ => ?_
  exact acts_bind acts_command fun _ =>
    acts_setBits (coreTable_read _) fun _ => coreTable_framing _

theorem acts_transceiveCompletion (irq : Byte) : ActsAt (CoreTableEvent c) q c (transceiveCompletion irq) := by
  refine acts_getCfg (acts_bind (acts_clearBits (coreTable_read _) fun _ => coreTable_framing _) fun _ => ?_)
  refine acts_bind (acts_readRegister (coreTable_read _)) fun err => ?_
  split
  · exact acts_raise _
  · exact acts_bind acts_fifoLevel fun n => acts_bind (acts_readFifoBytes n) fun _ =>
      acts_bind (acts_readRegister (coreTable_read _)) fun _ => acts_pure _

theorem acts_transceive (frame : List Byte) (vb : Byte) (ms : Nat) :
    ActsAt (CoreTableEvent c) q c (transceive frame vb ms) := by
  refine acts_bind (acts_require _ _) fun _ => acts_bind (acts_require _ _) fun _ => acts_getCfg ?_
  refine acts_bind (acts_transceivePreamble frame vb) fun _ => acts_bind (acts_poll _ _ _) fun ⟨irq, _⟩ => ?_
  dsimp only
  split
  · exact acts_pure _
  · exact acts_pure _
  · exact acts_transceiveCompletion irq

/-! ## Card operations -/

theorem acts_requestA : ActsAt (CoreTableEvent c) q c requestA :=
  acts_getCfg (acts_bind (acts_transceive _ _ _) fun _ => acts_pure _)

theorem acts_anticollCL1 : ActsAt (CoreTableEvent c) q c anticollCL1 := by
  refine acts_getCfg (acts_bind (acts_clearBits (coreTable_read _) fun v => coreTable_write (mem_coll c) fun _ => ?_)
    fun _ => acts_bind (acts_transceive _ _ _) fun _ => acts_pure _)
  simp [listedWrite, txWrite, anySet_withoutBits]

theorem acts_selectCL1 (uid : List Byte) : ActsAt (CoreTableEvent c) q c (selectCL1 uid) :=
  acts_bind (acts_require _ _) fun _ => acts_getCfg (acts_bind (acts_appendCrc _) fun _ =>
    acts_bind (acts_transceive _ _ _) fun _ => acts_pure _)

theorem acts_authenticate (f : List Byte) : ActsAt (CoreTableEvent c) q c (authenticate f) := by
  refine acts_getCfg (acts_bind acts_command fun _ => acts_bind acts_clearComIrq fun _ => ?_)
  refine acts_bind acts_flushFifo fun _ => acts_bind (acts_load _) fun _ => ?_
  refine acts_bind acts_command fun _ => acts_bind (acts_poll _ _ _) fun _ => ?_
  refine acts_bind (acts_readRegister (coreTable_read _)) fun err => ?_
  split
  · exact acts_raise _
  · refine acts_bind (acts_readRegister (coreTable_read _)) fun s2 => ?_
    split
    · exact acts_pure _
    · exact acts_raise _

theorem acts_mifareAuthKeyA (blk : Nat) (key uid : List Byte) :
    ActsAt (CoreTableEvent c) q c (mifareAuthKeyA blk key uid) := by
  refine acts_bind (acts_blockOperand blk) fun b => acts_bind (acts_require _ _) fun _ => ?_
  split
  · exact acts_raise _
  · exact acts_getCfg (acts_authenticate _)

theorem acts_mifareReadBlock (blk : Nat) : ActsAt (CoreTableEvent c) q c (mifareReadBlock blk) := by
  refine acts_bind (acts_blockOperand blk) fun b => acts_getCfg (acts_bind (acts_appendCrc _) fun _ => ?_)
  refine acts_bind (acts_transceive _ _ _) fun r => ?_
  split
  · exact acts_raise _
  · exact acts_pure _

theorem acts_writePhase (phase : Nat) (body : List Byte) (ms : Nat) :
    ActsAt (CoreTableEvent c) q c (writePhase phase body ms) := by
  refine acts_getCfg (acts_bind (acts_appendCrc _) fun _ => acts_bind (acts_transceive _ _ _) fun r => ?_)
  split
  · exact acts_pure _
  · exact acts_raise _

theorem acts_mifareWriteBlock (blk : Nat) (payload : List Byte) :
    ActsAt (CoreTableEvent c) q c (mifareWriteBlock blk payload) :=
  acts_bind (acts_blockOperand blk) fun _ => acts_getCfg (acts_bind (acts_writePhase _ _ _) fun _ =>
    acts_writePhase _ _ _)

theorem acts_detectCard : ActsAt (CoreTableEvent c) q c detectCard := by
  refine acts_bind acts_requestA fun a => ?_
  cases a with
  | none => exact acts_pure _
  | some atqa =>
    refine acts_bind acts_anticollCL1 fun u => ?_
    cases u with
    | none => exact acts_pure _
    | some uid => exact acts_bind (acts_selectCL1 _) fun _ => acts_pure _

/-! ## The lifecycle (rules R220 to R225) -/

theorem acts_softReset (hq : ∀ h, q h .opened) : ActsAt (CoreTableEvent c) q c softReset :=
  acts_getCfg (acts_bind acts_command fun _ =>
    acts_bind (acts_record ⟨⟨rfl, fun _ h => nomatch h⟩, rfl⟩) fun _ => acts_setPhase hq)

theorem acts_initWrite {a : RegAddr} {v : Byte} (h : ∀ x, listedWrite c (.exchange (txWrite a v) x) = true) :
    ActsAt (TableEvent c) q c (writeRegister a v) := acts_writeRegister fun x => ⟨txOk_txWrite a v, h x⟩

theorem acts_antennaOn : ActsAt (TableEvent c) q c antennaOn := by
  refine acts_getCfg (acts_bind (acts_readRegister fun x => (coreTable_read _ x).table) fun v => ?_)
  split
  · exact acts_pure _
  · exact acts_initWrite fun _ => by simp [listedWrite, txWrite, allSet_withBits]

theorem acts_initChip (hq : ∀ h p, p ≠ .closed → q h p) : ActsAt (TableEvent c) q c initChip := by
  have write {a : RegAddr} {v : Byte} (h : ∀ x, listedWrite c (.exchange (txWrite a v) x) = true) {f : Op Unit}
      (hf : ActsAt (TableEvent c) q c f) : ActsAt (TableEvent c) q c (writeRegister a v >>= fun _ => f) :=
    acts_bind (acts_initWrite h) fun _ => hf
  refine acts_bind acts_requireNotReady fun _ => ?_
  refine acts_bind ((acts_softReset fun h => hq h _ nofun).imp_event fun _ => CoreTableEvent.table) fun _ => acts_getCfg ?_
  refine write ?_ (write ?_ (write ?_ (write ?_ (write ?_ (write ?_
    (acts_bind acts_antennaOn fun _ => acts_setPhase fun h => hq h _ nofun))))))
  all_goals intro x; simp [listedWrite, txWrite]

/-! ## The meaning of an instruction -/

/-- The events an instruction may add: raw writes aside, those of rule R45's table, and except for `init` and its step
`antennaOn` none that writes another register than those of `coreWrites` (rule R225). -/
def Emits (i : Instr) (c : Cfg) (e : Event) : Prop :=
  wireOk e = true ∧ (isRaw i = false → listedWrite c e = true ∧
    (i ≠ .init → i ≠ .antennaOn → ∀ a, writtenReg e = some a → a ∈ coreWrites c))

theorem CoreTableEvent.emits {i : Instr} {e : Event} : CoreTableEvent c e → Emits i c e
  | ⟨⟨hwire, hreg⟩, hlisted⟩ => ⟨hwire, fun _ => ⟨hlisted, fun _ _ => hreg⟩⟩

theorem ActsAt.emits {i : Instr} {x : Op α} (h : ActsAt (CoreTableEvent c) q c x) : ActsAt (Emits i c) q c x :=
  h.imp_event fun _ => CoreTableEvent.emits

theorem TableEvent.emits {i : Instr} {e : Event} (hi : i = .init ∨ i = .antennaOn) : TableEvent c e → Emits i c e
  | ⟨hwire, hlisted⟩ => ⟨hwire, fun _ => ⟨hlisted, fun hinit hon => absurd hi (not_or.2 ⟨hinit, hon⟩)⟩⟩

theorem emits_raw {i : Instr} {tx : List Byte} (hi : isRaw i = true) (h : txOk tx = true) (x : ExchangeAnswer) :
    Emits i c (.exchange tx x) := ⟨h, fun hr => by simp [hi] at hr⟩

/-- The phase an instruction other than `open` and `close` may bring, errors aside, and under which handle (rule R48). -/
def NewPhase (i : Instr) (h : Handle) (p : Phase) : Prop :=
  isOpen h = true ∧ (i = .softReset ∧ p = .opened ∨ i = .init ∧ p ≠ .closed)

theorem acts_onOpenHandle {x : Op α} (h : ActsAt P q c x) : ActsAt P q c (onOpenHandle x) :=
  acts_bind acts_requireOpen fun _ => h

theorem acts_whenReady {x : Op α} (h : ActsAt P q c x) : ActsAt P q c (whenReady x) :=
  acts_bind acts_requireOpen fun _ => acts_bind acts_requireReady fun _ => h

/-- On a closed handle an operation does nothing, so a phase it brings is one of an open handle. -/
theorem acts_phaseWhenOpen {x : Op α} {p : Phase → Prop} (h : ActsAt P (fun _ => p) c x) :
    ActsAt P (fun hd ph => isOpen hd = true ∧ p ph) c (onOpenHandle x) where
  blind := (acts_onOpenHandle h).blind
  moves s hs := by
    have hm := (acts_onOpenHandle h).moves s hs
    cases ho : isOpen s.handle with
    | true => exact { hm with phase := hm.phase.imp_right fun hp => ⟨hm.handle ▸ ho, hp⟩ }
    | false =>
      rw [onOpenHandle_closed x (isOpen_false.1 ho)]
      exact Moves.refl s

theorem acts_issueCommand {code : Commands → Byte} (h : code c.cmd ∈ issuedCommands c := by simp [issuedCommands]) :
    ActsAt (CoreTableEvent c) q c (issueCommand code) := acts_getCfg (acts_command h)

theorem acts_frame {frame : Cfg → List Byte} {vb : Byte} {ms : Nat} :
    ActsAt (CoreTableEvent c) q c (onOpenHandle (getCfg >>= fun c => transceive (frame c) vb ms)) :=
  acts_onOpenHandle (acts_getCfg (acts_transceive _ _ _))

theorem acts_registerCall {a : Byte} {f : RegAddr → Op α} (hf : ∀ a', ActsAt P q c (f a')) :
    ActsAt P q c (onOpenHandle (registerOperand a >>= f)) :=
  acts_onOpenHandle (acts_bind (acts_registerOperand a) hf)

theorem acts_initCall : ActsAt (Emits .init c) (NewPhase .init) c (onOpenHandle initChip) :=
  (acts_phaseWhenOpen (acts_initChip (q := fun _ p => p ≠ .closed) fun _ _ => id)).imp
    (fun _ => TableEvent.emits (.inl rfl)) fun _ _ ⟨ho, hp⟩ => ⟨ho, .inr ⟨rfl, hp⟩⟩

theorem acts_softResetCall : ActsAt (Emits .softReset c) (NewPhase .softReset) c (onOpenHandle softReset) :=
  (acts_phaseWhenOpen (acts_softReset (q := fun _ p => p = .opened) fun _ => rfl)).imp
    (fun _ => CoreTableEvent.emits) fun _ _ ⟨ho, hp⟩ => ⟨ho, .inl ⟨rfl, hp⟩⟩

/-- The instructions that change the handle. -/
abbrev MovesHandle (i : Instr) : Prop := i = .close ∨ ∃ bus dev hz, i = .openTransport bus dev hz

/-- What the program of instruction `i`, begun in `s`, may have brought about when it reaches `u`: the entry of an error
is not in it. -/
structure Ran (i : Instr) (s u : State) : Prop where
  outcomes : u.outcomes = s.outcomes
  events : ∃ es, u.events = s.events ++ es ∧ ∀ e ∈ es, Emits i s.cfg e
  handle : u.handle ≠ s.handle → MovesHandle i
  phase : u.phase ≠ s.phase → MovesHandle i ∨ i = .softReset ∨ i = .init
  ready : u.phase = .ready → s.phase = .ready ∨ i = .init
  lifecycle : LifecycleOk s → LifecycleOk u

theorem Ran.refl (i : Instr) (s : State) : Ran i s s :=
  ⟨rfl, ⟨[], by simp⟩, fun h => absurd rfl h, fun h => absurd rfl h, .inl, id⟩

theorem ran_of_moves {i : Instr} {s u : State} (h : Moves (Emits i s.cfg) (NewPhase i) s u) : Ran i s u := by
  have hkeep : ∀ j, u.handle ≠ s.handle → MovesHandle j := fun _ hn => absurd h.handle hn
  have hopen : isOpen u.handle = true → u.phase ≠ .closed → LifecycleOk u := fun ho hp =>
    ⟨fun hc => by simp [hc, isOpen] at ho, fun hc => absurd hc hp⟩
  rcases h.phase with hp | ⟨ho, ⟨rfl, hp⟩ | ⟨rfl, hp⟩⟩
  · exact ⟨h.outcomes, h.events, hkeep i, fun hn => absurd hp hn, fun hr => .inl (hp ▸ hr),
      fun hl => by rw [LifecycleOk, hp, h.handle]; exact hl⟩
  · exact ⟨h.outcomes, h.events, hkeep _, fun _ => .inr (.inl rfl), by simp [hp], fun _ => hopen ho (by simp [hp])⟩
  · exact ⟨h.outcomes, h.events, hkeep _, fun _ => .inr (.inr rfl), fun _ => .inr rfl, fun _ => hopen ho hp⟩

/-- Begun in `s`, the program `x` does what the program of instruction `i` may. -/
structure Does (i : Instr) (x : Op α) (s : State) : Prop where
  blind : x s = remembered s (x (forget s))
  busy : (reached (x s)).busy = s.busy
  ran : Ran i s (reached (x s))

theorem does_of_acts {i : Instr} {x : Op α} (h : ∀ c, ActsAt (Emits i c) (NewPhase i) c x) (s : State) : Does i x s :=
  have hm := (h s.cfg).moves s rfl
  ⟨(h s.cfg).blind s rfl, hm.busy, ran_of_moves hm⟩

/-! ### `open` and `close` (rules R117, R118) -/

theorem emits_transportOpen {i : Instr} (bus dev hz : Nat) (x : LinkAnswer) :
    Emits i c (.transportOpen bus dev hz x) := ⟨rfl, fun _ => ⟨rfl, fun _ _ _ h => nomatch h⟩⟩

theorem emits_transportClose {i : Instr} (x : LinkAnswer) : Emits i c (.transportClose x) :=
  ⟨rfl, fun _ => ⟨rfl, fun _ _ _ h => nomatch h⟩⟩

/-- Everything `open` does on a closed handle. -/
theorem openTransport_closed (bus dev hz : Nat) {s : State} (h : s.handle = .closed) :
    openTransport bus dev hz s =
      let answer := s.links.headD (Config.freeLink s.draws)
      let t := { s with
        events := s.events ++ [.transportOpen bus dev hz answer], links := s.links.tail, draws := s.draws + 1 }
      match answer with
      | .fail reason => .error (.raise (.transportError (.external reason))) t
      | .ok => .ok () { t with handle := .opened bus dev hz, phase := .opened } := by
  simp only [openTransport, h, op_bind, drawLink_apply, record_apply]
  cases s.links.headD (Config.freeLink s.draws) <;> rfl

theorem openTransport_opened (bus dev hz : Nat) {s : State} (h : isOpen s.handle = true) :
    openTransport bus dev hz s = .error (.refuse .alreadyOpen) s := by
  unfold openTransport
  split
  · rfl
  · next hc => simp [hc, isOpen] at h

theorem closeTransport_opened {s : State} (h : isOpen s.handle = true) :
    closeTransport s = .ok () { s with
      events := s.events ++ [.transportClose (s.links.headD (Config.freeLink s.draws))], links := s.links.tail
      draws := s.draws + 1, handle := .closed, phase := .closed } := by
  unfold closeTransport
  split
  · simp [drawLink_apply, dropHandle]
  · next hc => simp [hc, isOpen] at h

theorem closeTransport_closed {s : State} (h : s.handle = .closed) :
    closeTransport s = .ok () { s with handle := .closed, phase := .closed } := by
  simp [closeTransport, h, dropHandle]

theorem does_openTransport (bus dev hz : Nat) (s : State) :
    Does (.openTransport bus dev hz) (openTransport bus dev hz) s := by
  have hi : MovesHandle (.openTransport bus dev hz) := .inr ⟨bus, dev, hz, rfl⟩
  suffices openTransport bus dev hz s = remembered s (openTransport bus dev hz (forget s)) ∧
      (reached (openTransport bus dev hz s)).busy = s.busy ∧
      Ran (.openTransport bus dev hz) s (reached (openTransport bus dev hz s)) from
    have ⟨hblind, hbusy, hran⟩ := this; ⟨hblind, hbusy, hran⟩
  cases ho : isOpen s.handle with
  | true =>
    rw [openTransport_opened bus dev hz ho, openTransport_opened bus dev hz (s := forget s) ho]
    exact ⟨by simp [remembered], rfl, .refl _ s⟩
  | false =>
    have hc := isOpen_false.1 ho
    rw [openTransport_closed bus dev hz hc, openTransport_closed bus dev hz (s := forget s) hc]
    have hev : ∀ x, ∃ es, s.events ++ [.transportOpen bus dev hz x] = s.events ++ es ∧
        ∀ e ∈ es, Emits (.openTransport bus dev hz) s.cfg e := fun x => ⟨_, rfl, by simp [emits_transportOpen]⟩
    simp only [forget]
    cases s.links.headD (Config.freeLink s.draws) with
    | fail reason => exact ⟨by simp [remembered, remember], rfl, { Ran.refl _ s with events := hev _ }⟩
    | ok =>
      exact ⟨by simp [remembered, remember], rfl, rfl, hev _, fun _ => hi, fun _ => .inl hi, nofun,
        fun _ => by simp [LifecycleOk, reached]⟩

theorem does_closeTransport (s : State) : Does .close closeTransport s := by
  have hi : MovesHandle .close := .inl rfl
  suffices closeTransport s = remembered s (closeTransport (forget s)) ∧
      (reached (closeTransport s)).busy = s.busy ∧ Ran .close s (reached (closeTransport s)) from
    have ⟨hblind, hbusy, hran⟩ := this; ⟨hblind, hbusy, hran⟩
  cases ho : isOpen s.handle with
  | true =>
    rw [closeTransport_opened ho, closeTransport_opened (s := forget s) ho]
    exact ⟨by simp [remembered, remember, forget], rfl, rfl, ⟨_, rfl, by simp [emits_transportClose]⟩, fun _ => hi,
      fun _ => .inl hi, nofun, fun _ => by simp [LifecycleOk, reached]⟩
  | false =>
    have hc := isOpen_false.1 ho
    rw [closeTransport_closed hc, closeTransport_closed (s := forget s) hc]
    exact ⟨by simp [remembered, remember, forget], rfl, rfl, ⟨[], by simp [reached]⟩, fun _ => hi, fun _ => .inl hi,
      nofun, fun _ => by simp [LifecycleOk, reached]⟩

/-! ### Every instruction -/

/-- An instruction is a host call or an inner step of a program that does what the instruction may. -/
inductive Meant (i : Instr) : Prop
  | call {α : Type} {x : Op α} {value : α → Value} (hx : ∀ s, Does i x s)
      (h : ∀ s, exec i s = .next (hostCall x value s))
  | step {α : Type} {x : Op α} {value : α → Value} (hx : ∀ s, Does i x s)
      (h : ∀ s, exec i s = .next (innerStep x value s))

theorem meant_call {i : Instr} {x : Op α} {value : α → Value} (hx : ∀ c, ActsAt (Emits i c) (NewPhase i) c x)
    (h : ∀ s, exec i s = .next (hostCall x value s)) : Meant i := .call (does_of_acts hx) h

theorem meant_step {i : Instr} {x : Op α} {value : α → Value} (hx : ∀ c, ActsAt (Emits i c) (NewPhase i) c x)
    (h : ∀ s, exec i s = .next (innerStep x value s)) : Meant i := .step (does_of_acts hx) h

/-- A host call on an open handle whose program is one of the operations above the register interface. -/
theorem meant_openCall {i : Instr} {x : Op α} {value : α → Value}
    (hx : ∀ c, ActsAt (CoreTableEvent c) (NewPhase i) c x)
    (h : ∀ s, exec i s = .next (hostCall (onOpenHandle x) value s)) : Meant i :=
  meant_call (fun c => acts_onOpenHandle (hx c).emits) h

theorem meant_cardCall {i : Instr} {x : Op α} {value : α → Value}
    (hx : ∀ c, ActsAt (CoreTableEvent c) (NewPhase i) c x)
    (h : ∀ s, exec i s = .next (hostCall (whenReady x) value s)) : Meant i :=
  meant_call (fun c => acts_whenReady (hx c).emits) h

theorem exec_meant (i : Instr) : Meant i := by
  cases i with
  | openTransport bus dev hz => exact .call (does_openTransport bus dev hz) fun _ => rfl
  | close => exact .call does_closeTransport fun _ => rfl
  | writeRegister a v =>
    exact meant_call (fun _ => acts_registerCall fun _ => acts_writeRegister (emits_raw rfl (txOk_txWrite _ v)))
      fun _ => rfl
  | readRegister a =>
    exact meant_call (fun _ => (acts_registerCall fun _ => acts_readRegister (coreTable_read _)).emits) fun _ => rfl
  | writeRegisterBurst a bs =>
    exact meant_call (fun _ => acts_registerCall fun _ => acts_writeRegisterBurst (emits_raw rfl (txOk_txBurst _ bs)))
      fun _ => rfl
  | flushFifo => exact meant_openCall (fun _ => acts_flushFifo) fun _ => rfl
  | fifoLevel => exact meant_openCall (fun _ => acts_fifoLevel) fun _ => rfl
  | readFifoBytes n => exact meant_openCall (fun _ => acts_readFifoBytes n) fun _ => rfl
  | calcCrc buffer => exact meant_openCall (fun _ => acts_calcCrc buffer) fun _ => rfl
  | transceive frame vb ms => exact meant_openCall (fun _ => acts_transceive frame vb ms) fun _ => rfl
  | requestA => exact meant_cardCall (fun _ => acts_requestA) fun _ => rfl
  | anticollCL1 => exact meant_cardCall (fun _ => acts_anticollCL1) fun _ => rfl
  | selectCL1 uid => exact meant_cardCall (fun _ => acts_selectCL1 uid) fun _ => rfl
  | mifareAuthKeyA blk key uid => exact meant_cardCall (fun _ => acts_mifareAuthKeyA blk key uid) fun _ => rfl
  | mifareReadBlock blk => exact meant_cardCall (fun _ => acts_mifareReadBlock blk) fun _ => rfl
  | mifareWriteBlock blk payload => exact meant_cardCall (fun _ => acts_mifareWriteBlock blk payload) fun _ => rfl
  | softReset => exact meant_call (fun _ => acts_softResetCall) fun _ => rfl
  | init => exact meant_call (fun _ => acts_initCall) fun _ => rfl
  | isTrailerBlock b => exact meant_call (fun _ => acts_pure _) fun _ => rfl
  | ensure16Bytes xs => exact meant_call (fun _ => acts_pure _) fun _ => rfl
  | detectCard => exact meant_cardCall (fun _ => acts_detectCard) fun _ => rfl
  | setBits a m =>
    exact meant_step (fun _ => acts_onOpenHandle (acts_setBits (emits_raw rfl (txOk_txRead a)) fun _ =>
      emits_raw rfl (txOk_txWrite a _))) fun _ => rfl
  | clearBits a m =>
    exact meant_step (fun _ => acts_onOpenHandle (acts_clearBits (emits_raw rfl (txOk_txRead a)) fun _ =>
      emits_raw rfl (txOk_txWrite a _))) fun _ => rfl
  | pollUntil a m ms => exact meant_step (fun _ => (acts_onOpenHandle (acts_poll a m ms)).emits) fun _ => rfl
  | antennaOn =>
    exact meant_step (fun _ => acts_onOpenHandle (acts_antennaOn.imp_event fun _ => TableEvent.emits (.inr rfl))) fun _ => rfl
  | spiWriteByte a v => exact meant_step (fun _ => acts_exchange (emits_raw rfl (txOk_txWrite a v))) fun _ => rfl
  | spiReadByte a => exact meant_step (fun _ => (acts_exchange (coreTable_read a)).emits) fun _ => rfl
  | spiBurstWrite a bs => exact meant_step (fun _ => acts_exchange (emits_raw rfl (txOk_txBurst a bs))) fun _ => rfl
  | cmdIdle | cmdCalcCrc | cmdTransceive | cmdMfAuthent | cmdSoftReset =>
    exact meant_step (fun _ => (acts_issueCommand).emits) fun _ => rfl
  | piccReqa | piccAnticoll | piccSelect | mfRead | mfWrite => exact meant_step (fun _ => acts_frame.emits) fun _ => rfl
  | mfAuthKeyA blk key uid =>
    exact meant_step (fun _ => (acts_onOpenHandle (acts_getCfg (acts_bind (acts_require _ _) fun _ =>
      acts_authenticate _))).emits) fun _ => rfl
  | mfAck high fourBits =>
    exact meant_step (fun c => acts_getCfg (f := fun c => pure (isAck c (ackAnswer c high fourBits))) (acts_pure _))
      fun _ => rfl

/-! ## The record influences nothing (rule R20) -/

theorem report_remember (o : CallOutcome) (s t : State) : report o (remember s t) = remember s (report o t) := by
  simp [report, remember]

theorem markRefused_remember (s t : State) : markRefused (remember s t) = remember s (markRefused t) := by
  simp [markRefused, remember]

theorem concluded_remembered (value : α → Value) (s : State) (r : EStateM.Result Stop State α) :
    concluded value (remembered s r) = remember s (concluded value r) := by
  rcases r with ⟨a, t⟩ | ⟨e | r, t⟩ <;> exact report_remember _ s t

theorem asHostCall_remember {x : Op α} (hx : ∀ s, x s = remembered s (x (forget s))) (s : State) :
    asHostCall x s = remembered s (asHostCall x (forget s)) := by
  have hs : x { s with busy := true } = remembered s (x { forget s with busy := true }) := hx _
  unfold asHostCall
  rw [forget_busy, hs]
  cases s.busy with
  | true => simp [remembered, ← markRefused_remember]
  | false =>
    rcases x { forget s with busy := true } with ⟨a, t⟩ | ⟨e | r, t⟩
    · rfl
    · rfl
    · simp only [remembered, markRefused_remember]
      rfl

theorem asStep_remember {x : Op α} (hx : ∀ s, x s = remembered s (x (forget s))) (s : State) :
    asStep x s = remembered s (asStep x (forget s)) := by
  simp only [asStep]
  rw [hx s]
  rcases x (forget s) with ⟨a, t⟩ | ⟨e | r, t⟩
  · rfl
  · rfl
  · simp only [remembered, markRefused_remember]

/-- Every instruction does what it would do with an empty record, and keeps the record before its own. -/
theorem exec_remember (i : Instr) (s : State) :
    ∃ u, exec i (forget s) = .next u ∧ exec i s = .next (remember s u) := by
  rcases exec_meant i with ⟨hx, h⟩ | ⟨hx, h⟩
  · exact ⟨_, h _, by rw [h, hostCall, asHostCall_remember fun s => (hx s).blind, concluded_remembered]; rfl⟩
  · exact ⟨_, h _, by rw [h, innerStep, asStep_remember fun s => (hx s).blind, concluded_remembered]; rfl⟩

/-- Settles O20: states that differ in their record at most are the same once it is forgotten. -/
theorem noShadowState : Obligations.NoShadowState := by
  intro i s s' t t' hs ht ht'
  obtain ⟨u, hu, h⟩ := exec_remember i s
  obtain ⟨u', hu', h'⟩ := exec_remember i s'
  rw [forget_eq_of_sameButRecord hs, hu] at hu'
  cases hu'
  cases h.symm.trans ht
  cases h'.symm.trans ht'
  exact ⟨by simp [newEvents, remember], by simp [remember], sameButRecord_remember s s' u⟩

/-! ## What every instruction may do (rules R45, R48, R225) -/

/-- What instruction `i` may have brought about from `s` to its end `t`, the entry of a transport error included. -/
structure Effect (i : Instr) (s t : State) : Prop where
  events : ∃ es, t.events = s.events ++ es ∧ ∀ e ∈ es, Emits i s.cfg e
  busy : s.busy = false → t.busy = false
  handle : t.handle ≠ s.handle → MovesHandle i
  phase : t.phase ≠ s.phase → MovesHandle i ∨ i = .softReset ∨ i = .init ∨
    ∃ r, t.outcomes = s.outcomes ++ [.raised (.transportError r)]
  ready : t.phase = .ready → s.phase = .ready ∨ i = .init
  lifecycle : LifecycleOk s → LifecycleOk t

theorem effect_of_ran {i : Instr} {s u t : State} (h : Ran i s u) (hb : s.busy = false → t.busy = false)
    (he : t.events = u.events) (hh : t.handle = u.handle) (hp : t.phase = u.phase) : Effect i s t := by
  refine ⟨he ▸ h.events, hb, hh ▸ h.handle, fun hn => ?_, hp ▸ h.ready, fun hl => ?_⟩
  · exact (h.phase (hp ▸ hn)).imp_right fun h => h.imp_right .inl
  · rw [LifecycleOk, hh, hp]
    exact h.lifecycle hl

/-- The end of an operation that raised (rule R262): a transport error on an open handle leaves the phase `Opened`. -/
theorem effect_of_raised {i : Instr} {s u : State} (h : Ran i s u) (e : Error) :
    Effect i s (report (.raised e) (enterError e u)) := by
  cases ht : isTransport e && isOpen u.handle with
  | false => exact effect_of_ran h (fun _ => rfl) rfl rfl (by simp [ht])
  | true =>
    obtain ⟨hte, ho⟩ := Bool.and_eq_true_iff.1 ht
    have hp : (report (.raised e) (enterError e u)).phase = .opened := by simp [ht]
    refine ⟨h.events, fun _ => rfl, h.handle, fun _ => .inr (.inr (.inr ?_)),
      fun hr => absurd (hp.symm.trans hr) nofun, fun _ => ?_⟩
    · cases e with
      | transportError r => exact ⟨r, by simp [h.outcomes]⟩
      | _ => cases hte
    · rw [LifecycleOk, hp]
      exact ⟨fun hc : u.handle = .closed => by simp [hc, isOpen] at ho, nofun⟩

theorem effect_hostCall {i : Instr} {x : Op α} (hx : ∀ s, Does i x s) (value : α → Value) (s : State) :
    Effect i s (hostCall x value s) := by
  have h : Ran i s (reached (x { s with busy := true })) := { (hx { s with busy := true }).ran with }
  rcases hostCall_cases x value s with ⟨-, he⟩ | ⟨-, a, t, hr, he⟩ | ⟨-, e, t, hr, he⟩ | ⟨-, r, t, hr, he⟩
  · rw [he]
    exact effect_of_ran (.refl i s) id rfl rfl rfl
  all_goals
    rw [hr] at h
    rw [he]
  · exact effect_of_ran h (fun _ => rfl) rfl rfl rfl
  · exact effect_of_raised h e
  · exact effect_of_ran h (fun _ => rfl) rfl rfl rfl

theorem effect_innerStep {i : Instr} {x : Op α} {s : State} (hx : Does i x s) (value : α → Value) :
    Effect i s (innerStep x value s) := by
  obtain ⟨-, hb, h⟩ := hx
  rcases innerStep_cases x value s with ⟨a, t, hr, he⟩ | ⟨e, t, hr, he⟩ | ⟨r, t, hr, he⟩
  all_goals
    rw [hr] at h hb
    rw [he]
  · exact effect_of_ran h hb.trans rfl rfl rfl
  · exact effect_of_raised h e
  · exact effect_of_ran h hb.trans rfl rfl rfl

theorem exec_effect {i : Instr} {s t : State} (h : exec i s = .next t) : Effect i s t := by
  rcases exec_meant i with ⟨hx, hi⟩ | ⟨hx, hi⟩ <;> cases (hi s).symm.trans h
  · exact effect_hostCall hx _ s
  · exact effect_innerStep (hx s) _

/-- Settles O19: only the programs of `softReset` and `init` set the phase, only those of `open` and `close` the handle
as well, and the entry of an error brings no phase but `Opened`. -/
theorem lifecycleChanges : Obligations.LifecycleChanges := by
  intro i s t h
  have he := exec_effect h
  exact ⟨he.handle, he.phase, he.ready⟩

/-- Settles O52: every operation is built from reads, loads, and writes that rule R45's table lists. -/
theorem writesListed : Obligations.WritesListed := by
  intro i s t hraw h e he
  obtain ⟨es, hes, hall⟩ := (exec_effect h).events
  rw [newEvents, hes, List.drop_left] at he
  exact (hall e he).2 hraw

/-! ## The invariant (rules R21, R48, R81, R87, R290) -/

/-- Everything a step can be: none, the refusal of a word that spells nothing, or the instruction of the first call. -/
theorem step_cases {s t : State} (h : step s = .next t) :
    (s.calls = [] ∧ t = s) ∨ ∃ c rest, s.calls = c :: rest ∧
      ((∃ e, decodeCall s.cfg c = .error e ∧ t = endCall c s (unknownCall (beginCall c rest s))) ∨
        ∃ i u, decodeCall s.cfg c = .ok i ∧ exec i (beginCall c rest s) = .next u ∧ t = endCall c s u) := by
  unfold step at h
  cases hc : s.calls with
  | nil =>
    rw [hc] at h
    cases h
    exact .inl ⟨rfl, rfl⟩
  | cons c rest =>
    refine .inr ⟨c, rest, rfl, ?_⟩
    cases hd : decodeCall s.cfg c with
    | error e =>
      simp only [hc, hd] at h
      cases h
      exact .inl ⟨e, rfl, rfl⟩
    | ok i =>
      cases hx : exec i (beginCall c rest s) with
      | fault f => cases f
      | refused r => simp [hc, hd, hx] at h
      | next u =>
        simp only [hc, hd, hx] at h
        cases h
        exact .inr ⟨i, u, rfl, hx, rfl⟩

/-- A call keeps the invariant if it ends not busy where it began so, keeps the lifecycle, and all events are well
formed; an overlapping call leaves `busy` as it found it. -/
theorem stateInv_endCall {c : Call} {rest : List Call} {s u : State} (hs : StateInv s)
    (hbusy : (beginCall c rest s).busy = false → u.busy = false)
    (hlife : LifecycleOk (beginCall c rest s) → LifecycleOk u) (hwire : ∀ e ∈ u.events, wireOk e = true) :
    StateInv (endCall c s u) := by
  obtain ⟨hsbusy, hslife, -⟩ := hs
  refine ⟨?_, by simpa [LifecycleOk] using hlife hslife, by simpa using hwire⟩
  cases ho : c.overlaps with
  | true => simp [ho, hsbusy]
  | false => simpa [ho] using hbusy (by simp [ho, hsbusy])

/-- Settles O12: a step is at most one call, and no instruction does more than its `Effect`. -/
theorem stepKeepsInv : Obligations.StepKeepsInv := by
  intro s t hs h
  have ⟨_, _, hwire⟩ := hs
  rcases step_cases h with ⟨-, rfl⟩ | ⟨c, rest, -, ⟨e, -, rfl⟩ | ⟨i, u, -, hx, rfl⟩⟩
  · exact hs
  · rw [unknownCall_eq]
    exact stateInv_endCall (rest := rest) hs id id hwire
  · have he := exec_effect hx
    obtain ⟨es, hes, hall⟩ := he.events
    refine stateInv_endCall hs he.busy he.lifecycle fun e hm => ?_
    rw [hes] at hm
    exact (List.mem_append.1 hm).elim (hwire e) fun hm => (hall e hm).1

end Sys2Proof.Machine
end

section
/-! SUPPORT. The operand refusals and the register operations as calls of the host (obligations O22 and O26): what each
operand check answers outside its range, how a call ends whose operation refuses behind the preconditions, and what a
call that is one exchange does. -/

namespace Sys2Proof.Machine

variable {α : Type}

/-! ## Operands (rules R61, R66, R97, R183) -/

theorem registerOperand_setWidth (a : RegAddr) : registerOperand (a.setWidth 8) = pure a := by
  have h : toRegAddr (a.setWidth 8) = some a := toRegAddr_encReg a
  simp only [registerOperand, h]

theorem registerOperand_above {b : Byte} (h : 63 < b.toNat) : registerOperand b = refuse .badRegisterAddress := by
  have hb : ¬ b.toNat < 64 := by omega
  simp only [registerOperand, toRegAddr, if_neg hb]

theorem blockOperand_above {blk : Nat} (h : 255 < blk) : blockOperand blk = refuse .badBlockAddress :=
  if_neg (Nat.not_le.2 h)

theorem blockOperand_upTo {blk : Nat} (h : blk ≤ 255) : blockOperand blk = pure (blockByte blk) := if_pos h

theorem uidOperand_other {uid : List Byte} (h : uid.length ≠ 4) : uidOperand uid = refuse .badUidLength := by
  simp [uidOperand, require, Config.uidLen, h]

/-! ## Calls refused behind the preconditions (rules R255, R264) -/

theorem onOpenHandle_open (x : Op α) {s : State} (h : isOpen s.handle = true) : onOpenHandle x s = x s := by
  simp [onOpenHandle, requireOpen_open h]

/-- An operation on an open handle that refuses under the phase of the call. -/
theorem hostCall_openRefusing {x : Op α} {r : RefusalReason} {s : State} (value : α → Value) (hs : CanCall s)
    (hx : ∀ u, u.phase = s.phase → x u = .error (.refuse r) u) :
    hostCall (onOpenHandle x) value s = refusedWith r s :=
  have ⟨ho, hb⟩ := hs
  hostCall_refusing value hb fun u hh hp => (onOpenHandle_open x (hh ▸ ho)).trans (hx u hp)

/-- `whenReady` is `onOpenHandle` of an operation that tests the phase first. -/
theorem hostCall_cardRefusing {x : Op α} {r : RefusalReason} {s : State} (value : α → Value) (hs : CanCard s)
    (hx : ∀ u, x u = .error (.refuse r) u) : hostCall (whenReady x) value s = refusedWith r s :=
  have ⟨hc, hp⟩ := hs
  hostCall_openRefusing value hc fun u hu => by rw [op_bind, requireReady_ready (hu.trans hp)]; exact hx u

theorem require_of_not {c : Prop} [Decidable c] (h : ¬ c) (r : RefusalReason) : require (decide c) r = refuse r := by
  rw [decide_eq_false h]; rfl

theorem require_of {c : Prop} [Decidable c] (h : c) (r : RefusalReason) : require (decide c) r = pure () := by
  rw [decide_eq_true h]; rfl

theorem initChip_ready {s : State} (h : s.phase = .ready) : initChip s = .error (.refuse .alreadyInitialised) s := by
  simp [initChip, requireNotReady, h]

/-- The valid bits are tested first. -/
theorem transceive_badValidBits {vb : Byte} (h : 7 < vb.toNat) (frame : List Byte) (ms : Nat) (s : State) :
    transceive frame vb ms s = .error (.refuse .badValidBits) s := by
  rw [transceive, require_of_not (Nat.not_le.2 h)]; rfl

theorem transceive_badFrameLength {vb : Byte} (hv : vb.toNat ≤ 7) {frame : List Byte}
    (h : frame = [] ∨ 64 < frame.length) (ms : Nat) (s : State) :
    transceive frame vb ms s = .error (.refuse .badFrameLength) s := by
  have hf : ¬ (1 ≤ frame.length ∧ frame.length ≤ Config.fifoCapacity) := by
    rintro ⟨h1, h2⟩
    rcases h with rfl | h
    · cases h1
    · exact absurd h2 (Nat.not_le.2 h)
  rw [transceive, require_of hv, require_of_not hf]; rfl

theorem calcCrc_badFrameLength {buffer : List Byte} (h : 64 < buffer.length) (s : State) :
    calcCrc buffer s = .error (.refuse .badFrameLength) s := by
  have hf : ¬ buffer.length ≤ Config.fifoCapacity := Nat.not_le.2 h
  rw [calcCrc, require_of_not hf]; rfl

/-- The register operations of an address above 63. -/
theorem exec_badRegisterAddress {s : State} (hs : CanCall s) {b : Byte} (h : 63 < b.toNat) (v : Byte) (bs : List Byte) :
    exec (.readRegister b) s = .next (refusedWith .badRegisterAddress s) ∧
    exec (.writeRegister b v) s = .next (refusedWith .badRegisterAddress s) ∧
    exec (.writeRegisterBurst b bs) s = .next (refusedWith .badRegisterAddress s) := by
  have call : ∀ {β : Type} (f : RegAddr → Op β) (value : β → Value),
      hostCall (onOpenHandle (registerOperand b >>= f)) value s = refusedWith .badRegisterAddress s :=
    fun f value => hostCall_openRefusing value hs fun u _ => by rw [registerOperand_above h]; rfl
  exact ⟨congrArg _ (call _ _), congrArg _ (call _ _), congrArg _ (call _ _)⟩

/-- The operations that take a block first, on a block above 255. -/
theorem exec_badBlockAddress {s : State} (hs : CanCard s) {blk : Nat} (h : 255 < blk) (key uid payload : List Byte) :
    exec (.mifareAuthKeyA blk key uid) s = .next (refusedWith .badBlockAddress s) ∧
    exec (.mifareReadBlock blk) s = .next (refusedWith .badBlockAddress s) ∧
    exec (.mifareWriteBlock blk payload) s = .next (refusedWith .badBlockAddress s) := by
  have call : ∀ {β : Type} (f : Byte → Op β) (value : β → Value),
      hostCall (whenReady (blockOperand blk >>= f)) value s = refusedWith .badBlockAddress s :=
    fun f value => hostCall_cardRefusing value hs fun u => by rw [blockOperand_above h]; rfl
  exact ⟨congrArg _ (call _ _), congrArg _ (call _ _), congrArg _ (call _ _)⟩

/-- `mifareAuthKeyA` tests the UID behind the block. -/
theorem exec_badUidLength {s : State} (hs : CanCard s) {uid : List Byte} (h : uid.length ≠ 4) (blk : Nat)
    (key : List Byte) :
    exec (.selectCL1 uid) s = .next (refusedWith .badUidLength s) ∧
    (blk ≤ 255 → exec (.mifareAuthKeyA blk key uid) s = .next (refusedWith .badUidLength s)) := by
  refine ⟨congrArg _ (hostCall_cardRefusing _ hs fun u => ?_), fun hblk =>
    congrArg _ (hostCall_cardRefusing _ hs fun u => ?_)⟩
  · simp [selectCL1, uidOperand_other h]
  · simp [mifareAuthKeyA, blockOperand_upTo hblk, uidOperand_other h]

/-- Settles O22: each operation tests its operands before its first exchange. -/
theorem operandRefusals : Obligations.OperandRefusals := by
  intro s
  refine ⟨fun hs hp => ?_, fun hs a v bs ha => exec_badRegisterAddress hs ha v bs, fun hs frame vb ms => ?_,
    fun hs blk key uid payload => ?_⟩
  · exact congrArg _ (hostCall_openRefusing _ hs fun u hu => initChip_ready (hu.trans hp))
  · refine ⟨fun hv => ?_, fun hv hf => ?_, fun hf => ?_⟩
    · exact congrArg _ (hostCall_openRefusing _ hs fun u _ => transceive_badValidBits hv frame ms u)
    · exact congrArg _ (hostCall_openRefusing _ hs fun u _ => transceive_badFrameLength hv hf ms u)
    · exact congrArg _ (hostCall_openRefusing _ hs fun u _ => calcCrc_badFrameLength hf u)
  · exact ⟨fun hb => exec_badBlockAddress hs hb key uid payload, fun hu => exec_badUidLength hs hu blk key⟩

/-! ## Calls that are one exchange (rules R110 to R113, R262) -/

/-- A call of the host that finds the core idle is a step that ends the operation as well. -/
theorem hostCall_idle (x : Op α) (value : α → Value) {s : State} (hb : s.busy = false) :
    hostCall x value s = leaveOperation (innerStep x value { s with busy := true }) := by
  simp only [hostCall, asHostCall, innerStep, asStep, hb]
  cases x { s with busy := true } with
  | ok a t => rfl
  | error e t => cases e <;> rfl

theorem leaveOperation_exchanged (tx : List Byte) (value : List Byte → Value) {s : State} (hb : s.busy = false) :
    leaveOperation (exchanged tx value { s with busy := true }) = exchanged tx value s := by
  have ha : nextAnswer { s with busy := true } tx = nextAnswer s tx := rfl
  unfold exchanged
  rw [ha]
  cases exchangeEnd tx (nextAnswer s tx) with
  | ok rx => simp [leaveOperation, asked, ha, hb]
  | error r => rfl

/-- A call of the host that is one exchange and makes its value of the reply. -/
theorem hostCall_exchange {tx : List Byte} {x : Op α} {f : List Byte → α} (value : α → Value) {s : State}
    (hs : CanCall s)
    (hx : x { s with busy := true } = (exchange tx >>= fun rx => pure (f rx)) { s with busy := true }) :
    hostCall (onOpenHandle x) value s = exchanged tx (fun rx => value (f rx)) s := by
  obtain ⟨ho, hb⟩ := hs
  have hopen : onOpenHandle x { s with busy := true } = x { s with busy := true } := onOpenHandle_open x ho
  have step := innerStep_exchange (s := { s with busy := true }) value ho (hopen.trans hx)
  rw [hostCall_idle _ _ hb, step, leaveOperation_exchanged _ _ hb]

/-- Settles O26: behind its operand check each register operation is one exchange. -/
theorem registerOperations : Obligations.RegisterOperations := by
  intro s a v bs hs
  have behind : ∀ {β : Type} (f : RegAddr → Op β),
      (registerOperand (a.setWidth 8) >>= f) { s with busy := true } = f a { s with busy := true } :=
    fun f => by rw [registerOperand_setWidth]; rfl
  exact ⟨congrArg _ (hostCall_exchange _ hs (behind readRegister)),
    congrArg _ (hostCall_exchange _ hs (behind (writeRegister · v))),
    congrArg _ (hostCall_exchange _ hs (behind (writeRegisterBurst · bs))),
    fun _ hb => exec_badRegisterAddress hs hb v bs⟩

end Sys2Proof.Machine
end

section
/-! SUPPORT. The encoding family: the fixed words and bytes of the spec (obligations O3 to O7), the refusal of a word that
decodes to nothing (O9), the exchange rows (O29), the ACK (O49), and the card operations and card frames as their
dialogues (O37 to O41, O47, O48). -/

namespace Sys2Proof

open Machine

/-! ## The address byte (rules R80 to R82) -/

theorem addrByte_bits (read : Bool) (a : RegAddr) :
    (addrByte read a).getLsbD 7 = read ∧ (∀ k, k < 6 → (addrByte read a).getLsbD (k + 1) = a.getLsbD k) ∧
      (addrByte read a).getLsbD 0 = false := by
  revert read a; decide

/-- Settles O3: `encW` and `encR` are the two directions of one layout, `addrByte_bits`. -/
theorem addressByteLayout : Obligations.AddressByteLayout := by
  intro a
  obtain ⟨hwdir, hwreg, hwres⟩ := addrByte_bits false a
  obtain ⟨hrdir, hrreg, hrres⟩ := addrByte_bits true a
  exact ⟨hwdir, hrdir, fun k hk => ⟨hwreg k hk, hrreg k hk⟩, hwres, hrres⟩

/-- Settles O4: the table's bytes are closed terms of the default map. -/
theorem registerAddressBytes : Obligations.RegisterAddressBytes := by
  unfold Obligations.RegisterAddressBytes
  decide

/-! ## Words of the spec (rules R83 to R85, R88, R92, R95, R102, R104) -/

/-- Under the defaults a word decodes to the well-formed instruction it is the encoding of. -/
theorem decode_default {i : Instr} {bs : List Byte} (hwf : i.wf = true) (hbs : encode Cfg.default i = bs) :
    decode Cfg.default i.layer bs = .ok i :=
  hbs ▸ decodeOfEncode.2 Cfg.default i decodeOfEncode.1 hwf

/-- Settles O5: each word is the encoder's, and the decoder reads it back (`decodeOfEncode`). -/
theorem specWordsDecode : Obligations.SpecWordsDecode := by
  rintro _ rfl
  exact ⟨decode_default (i := .openTransport 0 0 1000000) rfl rfl, decode_default (i := .mifareReadBlock 8) rfl rfl,
    decode_default (i := .selectCL1 _) rfl rfl, decode_default (i := .antennaOn) rfl rfl,
    decode_default (i := .spiReadByte _) rfl rfl, decode_default (i := .spiWriteByte _ _) rfl rfl,
    decode_default (i := .spiBurstWrite _ _) rfl rfl, decode_default (i := .cmdTransceive) rfl rfl,
    decode_default (i := .piccSelect _ _ _) rfl rfl, decode_default (i := .mfAck _ _) rfl rfl⟩

theorem OpName.mem_all (op : OpName) : op ∈ OpName.all := by
  cases op <;> decide

theorem id_of_hostCallable {op : OpName} (h : op.internal = false) : 0x01 ≤ op.id ∧ op.id ≤ 0x15 := by
  cases op <;> cases h <;> decide

/-- The parser of calls (or of steps) reads a word by the identifier it starts with. -/
theorem id_of_takeOperation {internal : Bool} {b : Byte} {bs r : List Byte} {i : Instr}
    (h : takeOperation internal (b :: bs) = .ok (i, r)) : ∃ op : OpName, op.id = b ∧ op.internal = internal := by
  simp only [takeOperation] at h
  split at h
  · cases h
  next op hop =>
  split at h
  · next hint => exact ⟨op, id_of_opOfId hop, hint⟩
  · cases h

/-- Settles O6: a host call is parsed by the identifier of a host-callable operation. -/
theorem operationIdentifiers : Obligations.OperationIdentifiers := by
  refine ⟨by decide, fun op => ⟨op.mem_all, opOfId_id op⟩, fun c b rest i h => ?_⟩
  obtain ⟨op, rfl, hint⟩ := id_of_takeOperation (decode_eq_ok.1 h)
  exact id_of_hostCallable hint

theorem bcc_four (u0 u1 u2 u3 : Byte) : bcc [u0, u1, u2, u3] = u0 ^^^ u1 ^^^ u2 ^^^ u3 := by
  simp [bcc]

/-- Settles O7: `bcc` folds the exclusive-or over the UID, from 0. -/
theorem checkByteIsXor : Obligations.CheckByteIsXor := bcc_four

end Sys2Proof

namespace Sys2Proof.Machine

variable {α β : Type}

/-! ## Words that spell nothing (rules R102, R104, R255) -/

/-- A refused call that was begun and ended leaves the queue without it, and `busy` as it was. -/
theorem endCall_refusedWith (c : Call) (rest : List Call) (r : RefusalReason) (s : State) :
    endCall c s (refusedWith r (beginCall c rest s)) = { refusedWith r s with calls := rest } := by
  cases h : c.overlaps <;> simp [endCall, refusedWith, beginCall, h]

/-- Settles O9: the refusal of an unknown word is that of any call, `busy` first. -/
theorem unknownWordRefused : Obligations.UnknownWordRefused := by
  intro s c rest e hc hd
  have hstep : step s = .next (endCall c s (unknownCall (beginCall c rest s))) := by simp only [step, hc, decodeCall, hd]
  rw [hstep, unknownCall_eq]
  exact congrArg _ (endCall_refusedWith c rest _ s)

/-! ## The exchange rows (rules R83 to R86) -/

/-- A row that is one exchange. -/
theorem innerStep_exchangeRow (tx : List Byte) (value : List Byte → Value) {s : State} (h : isOpen s.handle = true) :
    innerStep (exchange tx) value s = exchanged tx value s :=
  innerStep_exchange (f := id) value h (congrFun (bind_pure (exchange tx)).symm s)

/-- Settles O29: each row is one exchange, of its bytes. -/
theorem exchangeForms : Obligations.ExchangeForms := by
  intro s a v bs h
  exact ⟨congrArg _ (innerStep_exchangeRow (txWrite a v) _ h), congrArg _ (innerStep_exchangeRow (txRead a) _ h),
    congrArg _ (innerStep_exchangeRow (txBurst a bs) _ h)⟩

/-! ## The ACK (rules R93, R194) -/

theorem isAck_iff (c : Cfg) (r : TransceiveResult) : isAck c r = true ↔
    (∃ b rest, r.data = b :: rest ∧ b &&& 0x0F = c.card.ack) ∧ (r.validBits = 4 ∨ r.validBits = 0) := by
  cases hd : r.data with
  | nil => simp [isAck, hd]
  | cons b rest => simp [isAck, hd]

/-- The low nibble of a byte made of two nibbles. -/
theorem append_and_lowNibble (high low : BitVec 4) : (high ++ low) &&& 0x0F = low.setWidth 8 := by
  revert high low; decide

theorem ackNibble_setWidth {c : Cfg} (h : c.card.ack.toNat < 16) : (ackNibble c).setWidth 8 = c.card.ack := by
  apply BitVec.eq_of_toNat_eq
  simp only [ackNibble, BitVec.toNat_setWidth, BitVec.extractLsb'_toNat]
  omega

theorem isAck_ackAnswer {c : Cfg} (h : c.card.ack.toNat < 16) (high : BitVec 4) (fourBits : Bool) :
    isAck c (ackAnswer c high fourBits) = true := by
  refine (isAck_iff c _).2 ⟨⟨_, [], rfl, ?_⟩, ?_⟩
  · rw [append_and_lowNibble, ackNibble_setWidth h]
  · cases fourBits
    · exact .inr rfl
    · exact .inl rfl

/-- Settles O49: the answer of the ACK row passes the test when its code fits the nibble. -/
theorem ackTest : Obligations.AckTest := by
  refine ⟨isAck_iff, fun s high fourBits h => ?_⟩
  simp [exec, execMfAck, innerStep, asStep, concluded, report, isAck_ackAnswer h]

/-! ## Results made of another's (rules R170, R175, R178)

The statements give a card operation's dialogue its returned `Value`; the program returns the typed result, of which the
call makes that value. -/

/-- A dialogue says and hears the same whatever its result becomes. -/
theorem given_result {d : Dialogue α} {f : α → β} {s : State} :
    Given (d.andThen fun a => .says [] (f a)) s ↔ Given d s := by
  cases hr : d.result <;> simp [Dialogue.andThen, Dialogue.says, hr]

theorem endState_result (value : β → Value) (f : α → β) (d : Dialogue α) (s : State) :
    (d.andThen fun a => .says [] (f a)).endState value s =
      (d.andThen fun a => .says [] (value (f a))).endState id s := by
  cases hr : d.result <;>
    simp [Dialogue.andThen, Dialogue.says, Dialogue.endState, Dialogue.heard, endOutcome, hr]

/-- A card operation that makes its result of the result of a dialogue, with the value of the call written out. -/
theorem cardCall_result {op : Op β} {d : Dialogue α} {f : α → β} {g : α → Value} {s : State} {value : β → Value}
    (h : Plays s.cfg op (d.andThen fun a => .says [] (f a))) (hv : ∀ a, value (f a) = g a) (hs : CanCard s)
    (ha : d.Answered) (hg : Given (d.andThen fun a => .says [] (g a)) s) :
    hostCall (whenReady op) value s = (d.andThen fun a => .says [] (g a)).endState id s := by
  obtain rfl : (fun a => value (f a)) = g := funext hv
  rw [← endState_result]
  exact cardCall_plays value h hs (given_result.2 (given_result.1 hg))
    (answered_andThen ha fun _ => answered_says _ _)

/-! ## Authentication (rules R92, R183, R184) -/

/-- A block operand up to 255 is its frame byte (rule R97). -/
theorem blockOperand_toNat (blk : Byte) : blockOperand blk.toNat = pure blk := by
  rw [blockOperand_upTo (Nat.le_of_lt_succ blk.isLt), blockByte, BitVec.ofNat_toNat, BitVec.setWidth_eq]

theorem plays_blockOperand {c : Cfg} {blk : Byte} {f : Byte → Op α} {d : Dialogue α} (h : Plays c (f blk) d) :
    Plays c (blockOperand blk.toNat >>= f) d := by
  rwa [blockOperand_toNat, pure_bind]

theorem plays_mifareAuthKeyA (c : Cfg) (blk : Byte) {key uid : List Byte} (x : AuthRun) (hk : key.length = 6)
    (hu : uid.length = 4) (hx : x.Ok c) :
    Plays c (mifareAuthKeyA blk.toNat key uid) (authTalk c ([c.card.authKeyA, blk] ++ key ++ uid) x) := by
  refine plays_blockOperand (plays_require (by simp [hu, Config.uidLen]) ?_)
  rw [if_neg (show ¬ key.length ≠ Config.keyLen from not_not.2 hk)]
  exact plays_getCfg (plays_authenticate c _ x hx)

/-- Settles O48: the input row runs the same exchanges, its twelve bytes within the FIFO. -/
theorem mfAuthInput : Obligations.MfAuthInput := by
  intro s blk key uid x ho hk hu hx d hg
  have hl : (authFrame s.cfg blk key uid).length ≤ Config.fifoCapacity := by
    simp [authFrame, hk, hu, Config.fifoCapacity]
  exact congrArg _ (innerStep_plays _ (plays_getCfg (plays_require (decide_eq_true hl) (plays_authenticate s.cfg _ x hx)))
    ho hg (answered_authTalk _ _ _))

/-! ## Block read and write (rules R187, R193) -/

theorem plays_mifareReadBlock (c : Cfg) (blk : Byte) (x : CrcRun) (r : Reception) (hx : x.Ok c) (hr : r.Ok c) :
    Plays c (mifareReadBlock blk.toNat) ((crcFrameTalk c [c.card.read, blk] 250 x r).andThen fun res =>
      if res.data.length < Config.blockLen then .fails [] (.shortRead res.data.length)
      else .says [] (res.data.take Config.blockLen)) := by
  refine plays_blockOperand (plays_getCfg (plays_crcTransceive c _ 250 x r (by simp [readBody]) hx hr _ _ fun res => ?_))
  by_cases h : res.data.length < Config.blockLen
  · rw [if_pos h, if_pos h]; exact plays_raise c _
  · rw [if_neg h, if_neg h]; exact plays_pure c _

theorem length_sixteenBytes (xs : List Byte) : (sixteenBytes xs).length = 16 := by
  simp [sixteenBytes, Config.blockLen]

theorem plays_mifareWriteBlock (c : Cfg) (blk : Byte) (payload : List Byte) (x1 x2 : CrcRun) (r1 r2 : Reception)
    (hx1 : x1.Ok c) (hx2 : x2.Ok c) (hr1 : r1.Ok c) (hr2 : r2.Ok c) :
    Plays c (mifareWriteBlock blk.toNat payload)
      ((phaseTalk c 1 [c.card.write, blk] 250 x1 r1).andThen fun _ =>
        phaseTalk c 2 (sixteenBytes payload) 400 x2 r2) :=
  plays_blockOperand (plays_getCfg (plays_bind
    (plays_writePhase c 1 [c.card.write, blk] 250 x1 r1 (by simp) hx1 hr1) fun _ _ =>
      plays_writePhase c 2 (sixteenBytes payload) 400 x2 r2 (by simp [length_sixteenBytes]) hx2 hr2))

/-! ## Card frames (rule R92) -/

/-- A row that sends a frame of the configuration, one of a length the engine takes. -/
theorem exec_frameRow {i : Instr} {s : State} {r : Reception} (frame : Cfg → List Byte) (vb : Byte) (ms : Nat)
    (hi : exec i s = .next (innerStep (onOpenHandle (getCfg >>= fun c => transceive (frame c) vb ms)) .transceived s))
    (ho : isOpen s.handle = true) (hr : r.Ok s.cfg) (hv : vb.toNat ≤ 7)
    (hl : 1 ≤ (frame s.cfg).length ∧ (frame s.cfg).length ≤ 64)
    (hg : Given (transceiveTalk s.cfg (frame s.cfg) vb ms r) s) :
    exec i s = .next ((transceiveTalk s.cfg (frame s.cfg) vb ms r).endState .transceived s) := by
  have h := plays_getCfg (f := fun c => transceive (frame c) vb ms) (plays_transceive s.cfg _ vb ms r hv hl hr)
  rw [hi, innerStep_plays _ h ho hg (answered_transceiveTalk _ _ _ _ _)]

theorem selectBody_four (c : Cfg) (u0 u1 u2 u3 : Byte) : selectBody c [u0, u1, u2, u3] =
    [c.card.selCl1, c.card.nvbSelect, u0, u1, u2, u3, u0 ^^^ u1 ^^^ u2 ^^^ u3] := by
  simp only [selectBody, bcc_four, List.cons_append, List.nil_append]

/-- Settles O47: each row runs the transceive engine on its frame. -/
theorem cardFrames : Obligations.CardFrames := by
  intro s u0 u1 u2 u3 blk lo hi r ho hr b row hrow hg
  have seven : (7 : Byte).toNat ≤ 7 := by decide
  have zero : (0 : Byte).toNat ≤ 7 := by decide
  simp only [List.mem_cons, List.not_mem_nil, or_false] at hrow
  rcases hrow with rfl | rfl | rfl | rfl | rfl
  · exact exec_frameRow reqaFrame 7 80 rfl ho hr seven (by simp [reqaFrame]) hg
  · exact exec_frameRow anticollFrame 0 80 rfl ho hr zero (by simp [anticollFrame]) hg
  · have select := exec_frameRow (i := .piccSelect _ lo hi) (fun c => selectBody c [u0, u1, u2, u3] ++ [lo, hi]) 0 80
      rfl ho hr zero
    simp only [selectBody_four] at select
    exact select (by simp) hg
  · exact exec_frameRow (fun c => readBody c blk ++ [lo, hi]) 0 250 rfl ho hr zero (by simp [readBody]) hg
  · exact exec_frameRow (fun c => writeBody c blk ++ [lo, hi]) 0 250 rfl ho hr zero (by simp [writeBody]) hg

end Sys2Proof.Machine

/-! ## The card operations (rules R175 to R196)

These theorems have the names of the operations they speak of, so they stand in a namespace of their own. -/

namespace Sys2Proof.CardOperations

open Machine

/-- Settles O37: `anticollCL1` goes as its dialogue; the statement writes out `uidOf`. -/
theorem anticollCL1 : Obligations.AnticollCL1 := by
  intro s e coll r hs hr d hg
  refine congrArg _ (cardCall_result (plays_anticollCL1 s.cfg e coll r hr) (fun res => ?_) hs
    (answered_anticollTalk _ _ _ _) hg)
  rcases res.data with _ | ⟨u0, _ | ⟨u1, _ | ⟨u2, _ | ⟨u3, _ | ⟨check, rest⟩⟩⟩⟩⟩
  case cons.cons.cons.cons.cons =>
    by_cases h : u0 ^^^ u1 ^^^ u2 ^^^ u3 = check <;> simp [uidOf, uidValue, h]
  all_goals rfl

/-- Settles O38: `selectCL1` goes as its dialogue, whose body has the check byte of R95. -/
theorem selectCL1 : Obligations.SelectCL1 := by
  intro s u0 u1 u2 u3 x r hs hx hr body d hg
  have h := plays_selectCL1 s.cfg [u0, u1, u2, u3] x r rfl hx hr
  rw [bcc_four] at h
  refine congrArg _ (cardCall_result h (fun res => ?_) hs (answered_crcFrameTalk _ _ _ _ _) hg)
  cases res.data <;> rfl

/-- Settles O39: behind its operands `mifareAuthKeyA` is the authentication on the twelve bytes. -/
theorem mifareAuthKeyA : Obligations.MifareAuthKeyA := by
  intro s blk key uid x hs hk hu hx d hg
  exact congrArg _ (cardCall_plays _ (plays_mifareAuthKeyA s.cfg blk x hk hu hx) hs hg (answered_authTalk _ _ _))

/-- Settles O40: fewer than sixteen bytes end in the error of a value, so the call ends as its dialogue either way. -/
theorem mifareReadBlock : Obligations.MifareReadBlock := by
  intro s blk x r hs hx hr d hg
  exact congrArg _ (cardCall_plays _ (plays_mifareReadBlock s.cfg blk x r hx hr) hs hg
    (answered_andThen (answered_crcFrameTalk _ _ _ _ _) fun _ => answered_ite (answered_fails _ rfl) (answered_says _ _)))

/-- Settles O41: the two phases one after the other; an error of the first ends both. -/
theorem mifareWriteBlock : Obligations.MifareWriteBlock := by
  intro s blk payload x1 x2 r1 r2 hs hx1 hx2 hr1 hr2 data d hg
  exact congrArg _ (cardCall_plays _ (plays_mifareWriteBlock s.cfg blk payload x1 x2 r1 r2 hx1 hx2 hr1 hr2) hs hg
    (answered_andThen (answered_phaseTalk _ _ _ _ _ _) fun _ => answered_phaseTalk _ _ _ _ _ _))

end Sys2Proof.CardOperations
end

section
/-! SUPPORT. The register interface family: a failed exchange or opening ends its operation (obligation O17), `open` and
`close` (O24, O25), and the internal steps `SetBits`, `ClearBits` and `pollUntil` as their dialogues (O31, O32).
`CoreProgram` says once which primitives the operations on an open handle are built from; a property of all of them is
one induction over it. -/

namespace Sys2Proof.Machine

variable {α β : Type}

/-! ## The programs of the core (rules R16, R110) -/

/-- The programs built from the primitives of the pseudocode. The transport errors they raise are those of `exchange`,
which they do not look into. `open` and `close`, which speak to the transport itself, are none of them. -/
inductive CoreProgram : {α : Type} → Op α → Prop
  | value {α : Type} (a : α) : CoreProgram (pure a : Op α)
  | error {α : Type} (e : Error) (h : isTransport e = false) : CoreProgram (raise e : Op α)
  | refusal {α : Type} (r : RefusalReason) : CoreProgram (refuse r : Op α)
  | test (b : Handle → Phase → Bool) (r : RefusalReason) : CoreProgram fun s => require (b s.handle s.phase) r s
  | config : CoreProgram getCfg
  | note (e : Event) (h : failureOf e = none) : CoreProgram (record e)
  | deadline : CoreProgram drawExpiry
  | phase (p : Phase) : CoreProgram (setPhase p)
  | exchange (tx : List Byte) : CoreProgram (exchange tx)
  | seq {α β : Type} {x : Op α} {f : α → Op β} (hx : CoreProgram x) (hf : ∀ a, CoreProgram (f a)) :
    CoreProgram (x >>= f)

theorem program_withCfg {f : Cfg → Op α} (hf : ∀ c, CoreProgram (f c)) : CoreProgram (getCfg >>= f) := .seq .config hf

theorem program_ite {p : Prop} [Decidable p] {x y : Op α} (hx : CoreProgram x) (hy : CoreProgram y) :
    CoreProgram (if p then x else y) := by split <;> assumption

theorem program_require (b : Bool) (r : RefusalReason) : CoreProgram (require b r) := .test (fun _ _ => b) r

theorem program_onOpenHandle {x : Op α} (h : CoreProgram x) : CoreProgram (onOpenHandle x) :=
  .seq (.test (fun h _ => isOpen h) .notOpen) fun _ => h

theorem program_whenReady {x : Op α} (h : CoreProgram x) : CoreProgram (whenReady x) :=
  program_onOpenHandle (.seq (.test (fun _ p => decide (p = .ready)) .notInitialised) fun _ => h)

theorem program_registerOperand (a : Byte) : CoreProgram (registerOperand a) := by
  unfold registerOperand
  split
  · exact .value _
  · exact .refusal _

theorem program_blockOperand (blk : Nat) : CoreProgram (blockOperand blk) := program_ite (.value _) (.refusal _)

/-! ### The register interface -/

theorem program_readRegister (a : RegAddr) : CoreProgram (readRegister a) := .seq (.exchange _) fun _ => .value _

theorem program_writeRegister (a : RegAddr) (v : Byte) : CoreProgram (writeRegister a v) :=
  .seq (.exchange _) fun _ => .value _

theorem program_writeRegisterBurst (a : RegAddr) (bs : List Byte) : CoreProgram (writeRegisterBurst a bs) :=
  .seq (.exchange _) fun _ => .value _

theorem program_setBits (a : RegAddr) (m : Byte) : CoreProgram (setBits a m) :=
  .seq (program_readRegister a) fun _ => program_writeRegister a _

theorem program_clearBits (a : RegAddr) (m : Byte) : CoreProgram (clearBits a m) :=
  .seq (program_readRegister a) fun _ => program_writeRegister a _

theorem program_pollLoop (a : RegAddr) (stopMask : Byte) (k : Nat) : CoreProgram (pollLoop a stopMask k) := by
  induction k with
  | zero =>
    exact .seq (program_readRegister a) fun _ => program_ite (.value _) (.seq (.note _ rfl) fun _ => .value _)
  | succ k ih => exact .seq (program_readRegister a) fun _ => program_ite (.value _) (.seq (.note _ rfl) fun _ => ih)

theorem program_pollUntil (a : RegAddr) (stopMask : Byte) (ms : Nat) : CoreProgram (pollUntil a stopMask ms) :=
  .seq (.note _ rfl) fun _ => .seq .deadline fun k => program_pollLoop a stopMask k

theorem program_issueCommand (code : Commands → Byte) : CoreProgram (issueCommand code) :=
  program_withCfg fun _ => program_writeRegister _ _

/-! ### FIFO and CRC -/

theorem program_flushFifo : CoreProgram flushFifo := program_withCfg fun _ => program_writeRegister _ _

theorem program_fifoLevel : CoreProgram fifoLevel :=
  program_withCfg fun _ => .seq (program_readRegister _) fun _ => .value _

theorem program_readFifoBytes (n : Nat) : CoreProgram (readFifoBytes n) := by
  induction n with
  | zero => exact .value _
  | succ n ih => exact program_withCfg fun _ => .seq (program_readRegister _) fun _ => .seq ih fun _ => .value _

theorem program_calcCrc (buffer : List Byte) : CoreProgram (calcCrc buffer) := by
  refine .seq (program_require _ _) fun _ => program_withCfg fun c => ?_
  refine .seq (program_writeRegister _ _) fun _ => .seq (program_writeRegister _ _) fun _ => ?_
  refine .seq program_flushFifo fun _ => .seq (program_writeRegisterBurst _ _) fun _ => ?_
  refine .seq (program_writeRegister _ _) fun _ => .seq (program_pollUntil _ _ _) fun ⟨v, why⟩ => ?_
  cases why with
  | deadline => exact .error _ rfl
  | bit => exact .seq (program_readRegister _) fun _ => .seq (program_readRegister _) fun _ => .value _

theorem program_appendCrc (f : List Byte) : CoreProgram (appendCrc f) := .seq (program_calcCrc f) fun _ => .value _

/-! ### Transceive -/

theorem program_transceivePreamble (frame : List Byte) (vb : Byte) : CoreProgram (transceivePreamble frame vb) := by
  refine program_withCfg fun c => .seq (program_writeRegister _ _) fun _ => ?_
  refine .seq (program_writeRegister _ _) fun _ => .seq program_flushFifo fun _ => ?_
  refine .seq (program_writeRegisterBurst _ _) fun _ => .seq (program_writeRegister _ _) fun _ => ?_
  exact .seq (program_writeRegister _ _) fun _ => program_setBits _ _

theorem program_transceiveCompletion (irq : Byte) : CoreProgram (transceiveCompletion irq) :=
  program_withCfg fun _ => .seq (program_clearBits _ _) fun _ => .seq (program_readRegister _) fun _ =>
    program_ite (.error _ rfl) (.seq program_fifoLevel fun n => .seq (program_readFifoBytes n) fun _ =>
      .seq (program_readRegister _) fun _ => .value _)

theorem program_transceive (frame : List Byte) (vb : Byte) (ms : Nat) : CoreProgram (transceive frame vb ms) := by
  refine .seq (program_require _ _) fun _ => .seq (program_require _ _) fun _ => program_withCfg fun c => ?_
  refine .seq (program_transceivePreamble frame vb) fun _ => .seq (program_pollUntil _ _ _) fun ⟨irq, _⟩ => ?_
  dsimp only
  split
  · exact .value _
  · exact .value _
  · exact program_transceiveCompletion irq

/-! ### Card operations -/

theorem program_requestA : CoreProgram requestA :=
  program_withCfg fun _ => .seq (program_transceive _ _ _) fun _ => .value _

theorem program_anticollCL1 : CoreProgram anticollCL1 :=
  program_withCfg fun _ => .seq (program_clearBits _ _) fun _ => .seq (program_transceive _ _ _) fun _ => .value _

theorem program_selectCL1 (uid : List Byte) : CoreProgram (selectCL1 uid) :=
  .seq (program_require _ _) fun _ => program_withCfg fun _ => .seq (program_appendCrc _) fun _ =>
    .seq (program_transceive _ _ _) fun _ => .value _

theorem program_authenticate (f : List Byte) : CoreProgram (authenticate f) := by
  refine program_withCfg fun c => .seq (program_writeRegister _ _) fun _ => .seq (program_writeRegister _ _) fun _ => ?_
  refine .seq program_flushFifo fun _ => .seq (program_writeRegisterBurst _ _) fun _ => ?_
  refine .seq (program_writeRegister _ _) fun _ => .seq (program_pollUntil _ _ _) fun _ => ?_
  exact .seq (program_readRegister _) fun _ => program_ite (.error _ rfl)
    (.seq (program_readRegister _) fun _ => program_ite (.value _) (.error _ rfl))

theorem program_mifareAuthKeyA (blk : Nat) (key uid : List Byte) : CoreProgram (mifareAuthKeyA blk key uid) :=
  .seq (program_blockOperand blk) fun _ => .seq (program_require _ _) fun _ =>
    program_ite (.error _ rfl) (program_withCfg fun _ => program_authenticate _)

theorem program_mifareReadBlock (blk : Nat) : CoreProgram (mifareReadBlock blk) :=
  .seq (program_blockOperand blk) fun _ => program_withCfg fun _ => .seq (program_appendCrc _) fun _ =>
    .seq (program_transceive _ _ _) fun _ => program_ite (.error _ rfl) (.value _)

theorem program_writePhase (phase : Nat) (body : List Byte) (ms : Nat) : CoreProgram (writePhase phase body ms) :=
  program_withCfg fun _ => .seq (program_appendCrc _) fun _ => .seq (program_transceive _ _ _) fun _ =>
    program_ite (.value _) (.error _ rfl)

theorem program_mifareWriteBlock (blk : Nat) (payload : List Byte) : CoreProgram (mifareWriteBlock blk payload) :=
  .seq (program_blockOperand blk) fun _ => program_withCfg fun _ => .seq (program_writePhase _ _ _) fun _ =>
    program_writePhase _ _ _

theorem program_detectCard : CoreProgram detectCard := by
  refine .seq program_requestA fun a => ?_
  cases a with
  | none => exact .value _
  | some atqa =>
    refine .seq program_anticollCL1 fun u => ?_
    cases u with
    | none => exact .value _
    | some uid => exact .seq (program_selectCL1 _) fun _ => .value _

/-! ### The lifecycle -/

theorem program_softReset : CoreProgram softReset :=
  program_withCfg fun _ => .seq (program_writeRegister _ _) fun _ => .seq (.note _ rfl) fun _ => .phase _

theorem program_antennaOn : CoreProgram antennaOn :=
  program_withCfg fun _ => .seq (program_readRegister _) fun _ => program_ite (.value _) (program_writeRegister _ _)

theorem program_initChip : CoreProgram initChip := by
  refine .seq (.test (fun _ p => decide (p ≠ .ready)) .alreadyInitialised) fun _ => .seq program_softReset fun _ => ?_
  refine program_withCfg fun c => .seq (program_writeRegister _ _) fun _ => .seq (program_writeRegister _ _) fun _ => ?_
  refine .seq (program_writeRegister _ _) fun _ => .seq (program_writeRegister _ _) fun _ => ?_
  refine .seq (program_writeRegister _ _) fun _ => .seq (program_writeRegister _ _) fun _ => ?_
  exact .seq program_antennaOn fun _ => .phase _

/-! ### The calls of several instructions -/

theorem program_registerCall (a : Byte) {f : RegAddr → Op α} (hf : ∀ a', CoreProgram (f a')) :
    CoreProgram (onOpenHandle (registerOperand a >>= f)) :=
  program_onOpenHandle (.seq (program_registerOperand a) hf)

theorem program_frameStep {frame : Cfg → List Byte} {vb : Byte} {ms : Nat} :
    CoreProgram (onOpenHandle (getCfg >>= fun c => transceive (frame c) vb ms)) :=
  program_onOpenHandle (program_withCfg fun _ => program_transceive _ _ _)

/-! ## The failure at the end of a list of events (rules R110, R117, R262 a and b) -/

/-- In `es` no event failed, or the last one alone did, with the reason `o`. -/
inductive Trail : Option TransportReason → List Event → Prop
  | nil : Trail none []
  | answered {o : Option TransportReason} {e : Event} {es : List Event} (he : failureOf e = none) (h : Trail o es) :
    Trail o (e :: es)
  | failed {r : TransportReason} {e : Event} (he : failureOf e = some r) : Trail (some r) [e]

theorem trail_single (e : Event) : Trail (failureOf e) [e] := by
  cases he : failureOf e with
  | none => exact .answered he .nil
  | some r => exact .failed he

/-- Behind events of which none failed the trail goes on. -/
theorem Trail.append {o : Option TransportReason} {es fs : List Event} (h : Trail none es) (k : Trail o fs) :
    Trail o (es ++ fs) := by
  induction es with
  | nil => exact k
  | cons e es ih => cases h with | answered he h => exact .answered he (ih h)

theorem Trail.last_of_failure {o : Option TransportReason} {r : TransportReason} {ev : Event} {es fs : List Event}
    (h : Trail o (es ++ ev :: fs)) (hr : failureOf ev = some r) : fs = [] ∧ o = some r := by
  induction es with
  | nil =>
    cases h with
    | answered he _ => simp [hr] at he
    | failed he => exact ⟨rfl, he.symm.trans hr⟩
  | cons e es ih =>
    rw [List.cons_append] at h
    generalize htail : es ++ ev :: fs = tail at h
    cases h with
    | answered _ h => exact ih (htail ▸ h)
    | failed _ => simp at htail

theorem Trail.exists_failed_last {r : TransportReason} {es : List Event} (h : Trail (some r) es) :
    ∃ fs ev, es = fs ++ [ev] ∧ failureOf ev = some r := by
  induction es with
  | nil => cases h
  | cons e es ih =>
    cases h with
    | answered _ h =>
      obtain ⟨fs, ev, rfl, hr⟩ := ih h
      exact ⟨e :: fs, ev, rfl, hr⟩
    | failed he => exact ⟨[], e, rfl, he⟩

/-! ## Programs leave a trail -/

/-- The transport reason of an error. -/
def Error.transportReason : Error → Option TransportReason
  | .transportError r => some r
  | _ => none

theorem Error.transportReason_eq_none {e : Error} (h : isTransport e = false) : e.transportReason = none := by
  cases e with
  | transportError r => cases h
  | _ => rfl

theorem Error.eq_of_transportReason {e : Error} {r : TransportReason} (h : e.transportReason = some r) :
    e = .transportError r := by
  cases e <;> cases h
  rfl

/-- The transport reason a program ended with. -/
def transportEnd : EStateM.Result Stop State α → Option TransportReason
  | .error (.raise e) _ => e.transportReason
  | _ => none

/-- From `s` to `t` no outcome was recorded, and the events added are a trail with the reason `o`. -/
structure Trailed (o : Option TransportReason) (s t : State) : Prop where
  outcomes : t.outcomes = s.outcomes
  events : ∃ es, t.events = s.events ++ es ∧ Trail o es

theorem Trailed.refl (s : State) : Trailed none s s := ⟨rfl, [], (List.append_nil _).symm, .nil⟩

theorem Trailed.trans {o : Option TransportReason} {s t u : State} (h : Trailed none s t) (k : Trailed o t u) :
    Trailed o s u := by
  obtain ⟨es, he, htrail⟩ := h.events
  obtain ⟨fs, hf, ktrail⟩ := k.events
  exact ⟨k.outcomes.trans h.outcomes, es ++ fs, by rw [hf, he, List.append_assoc], htrail.append ktrail⟩

/-- One more event. -/
theorem Trailed.single {o : Option TransportReason} {s t : State} {e : Event} (ho : t.outcomes = s.outcomes)
    (he : t.events = s.events ++ [e]) (hf : failureOf e = o) : Trailed o s t := ⟨ho, [e], he, hf ▸ trail_single e⟩

/-- Whatever the program `x` does, an event that failed is its last and it ends with that reason. -/
def LeavesTrail (x : Op α) : Prop := ∀ s, Trailed (transportEnd (x s)) s (reached (x s))

/-- The transport reason of an exchange is that of its event. -/
theorem trail_exchange (tx : List Byte) : LeavesTrail (exchange tx) := by
  intro s
  cases ho : isOpen s.handle with
  | false => rw [exchange_closed tx ho]; exact .refl s
  | true =>
    rw [exchange_open tx ho]
    cases he : exchangeEnd tx (nextAnswer s tx) with
    | ok rx => exact .single rfl rfl (by simp only [failureOf, he, transportEnd])
    | error r => exact .single rfl rfl (by simp only [failureOf, he, transportEnd, Error.transportReason])

theorem trail_require (b : Bool) (r : RefusalReason) : LeavesTrail (require b r) := by
  cases b <;> exact Trailed.refl

theorem trail_bind {x : Op α} {f : α → Op β} (hx : LeavesTrail x) (hf : ∀ a, LeavesTrail (f a)) :
    LeavesTrail (x >>= f) := by
  intro s
  have h := hx s
  rw [op_bind]
  cases hr : x s with
  | ok a t => rw [hr] at h; exact h.trans (hf a t)
  | error e t => rw [hr] at h; cases e <;> exact h

/-- A program ends with the first event that failed: `exchange` raises at once, and nothing goes on behind an error. -/
theorem CoreProgram.leavesTrail {x : Op α} (h : CoreProgram x) : LeavesTrail x := by
  induction h with
  | value a => exact Trailed.refl
  | error e he => exact fun s => by simpa [transportEnd, reached, Error.transportReason_eq_none he] using Trailed.refl s
  | refusal r => exact Trailed.refl
  | test b r => exact fun s => trail_require _ r s
  | config => exact Trailed.refl
  | note e he => exact fun s => .single rfl rfl he
  | deadline => intro s; rw [drawExpiry_apply]; exact { Trailed.refl s with }
  | phase p => exact fun s => { Trailed.refl s with }
  | exchange tx => exact trail_exchange tx
  | seq _ _ hx hf => exact trail_bind hx hf

/-- A failed opening is the one event of `open`. -/
theorem trail_openTransport (bus dev hz : Nat) : LeavesTrail (openTransport bus dev hz) := by
  intro s
  cases ho : isOpen s.handle with
  | true => rw [openTransport_opened bus dev hz ho]; exact .refl s
  | false =>
    rw [openTransport_closed bus dev hz (isOpen_false.1 ho)]
    cases s.links.headD (Config.freeLink s.draws) with
    | ok => exact .single rfl rfl rfl
    | fail code => exact .single rfl rfl rfl

/-- A failed closing is no failure (rule R118). -/
theorem trail_closeTransport : LeavesTrail closeTransport := by
  intro s
  cases ho : isOpen s.handle with
  | true => rw [closeTransport_opened ho]; exact .single rfl rfl rfl
  | false => rw [closeTransport_closed (isOpen_false.1 ho)]; exact { Trailed.refl s with }

/-! ## Calls leave a trail -/

/-- The transport reason of an outcome. -/
def CallOutcome.transportReason : CallOutcome → Option TransportReason
  | .raised e => e.transportReason
  | _ => none

/-- A call from `s` to `t` added one outcome, and events that are a trail with its reason. -/
def EndsTrail (s t : State) : Prop :=
  ∃ o es, t.outcomes = s.outcomes ++ [o] ∧ t.events = s.events ++ es ∧ Trail o.transportReason es

theorem endsTrail_report {o : CallOutcome} {s t : State} (h : Trailed o.transportReason s t) :
    EndsTrail s (report o t) := by
  obtain ⟨houtcomes, es, hevents, htrail⟩ := h
  exact ⟨o, es, by rw [report_outcomes, houtcomes], hevents, htrail⟩

theorem endsTrail_hostCall {x : Op α} (hx : LeavesTrail x) (value : α → Value) (s : State) :
    EndsTrail s (hostCall x value s) := by
  have h : Trailed (transportEnd (x { s with busy := true })) s (reached (x { s with busy := true })) :=
    { hx { s with busy := true } with }
  rcases hostCall_cases x value s with ⟨-, he⟩ | ⟨-, a, t, hr, he⟩ | ⟨-, e, t, hr, he⟩ | ⟨-, r, t, hr, he⟩
  · rw [he]
    exact endsTrail_report { Trailed.refl s with }
  all_goals
    rw [hr] at h
    rw [he]
    exact endsTrail_report { h with }

theorem endsTrail_innerStep {x : Op α} (hx : LeavesTrail x) (value : α → Value) (s : State) :
    EndsTrail s (innerStep x value s) := by
  have h := hx s
  rcases innerStep_cases x value s with ⟨a, t, hr, he⟩ | ⟨e, t, hr, he⟩ | ⟨r, t, hr, he⟩
  all_goals
    rw [hr] at h
    rw [he]
    exact endsTrail_report { h with }

/-- A call of the host, `open` and `close` aside, or a step of an inner layer runs a program of the core. -/
inductive RunsProgram (i : Instr) : Prop
  | call {α : Type} {x : Op α} {value : α → Value} (hx : CoreProgram x)
      (h : ∀ s, exec i s = .next (hostCall x value s))
  | step {α : Type} {x : Op α} {value : α → Value} (hx : CoreProgram x)
      (h : ∀ s, exec i s = .next (innerStep x value s))

theorem exec_runsProgram {i : Instr} (hi : ¬ MovesHandle i) : RunsProgram i := by
  cases i with
  | openTransport bus dev hz => exact absurd (.inr ⟨bus, dev, hz, rfl⟩) hi
  | close => exact absurd (.inl rfl) hi
  | writeRegister a v => exact .call (program_registerCall a fun _ => program_writeRegister _ v) fun _ => rfl
  | readRegister a => exact .call (program_registerCall a program_readRegister) fun _ => rfl
  | writeRegisterBurst a bs =>
    exact .call (program_registerCall a fun _ => program_writeRegisterBurst _ bs) fun _ => rfl
  | flushFifo => exact .call (program_onOpenHandle program_flushFifo) fun _ => rfl
  | fifoLevel => exact .call (program_onOpenHandle program_fifoLevel) fun _ => rfl
  | readFifoBytes n => exact .call (program_onOpenHandle (program_readFifoBytes n)) fun _ => rfl
  | calcCrc buffer => exact .call (program_onOpenHandle (program_calcCrc buffer)) fun _ => rfl
  | transceive frame vb ms => exact .call (program_onOpenHandle (program_transceive frame vb ms)) fun _ => rfl
  | requestA => exact .call (program_whenReady program_requestA) fun _ => rfl
  | anticollCL1 => exact .call (program_whenReady program_anticollCL1) fun _ => rfl
  | selectCL1 uid => exact .call (program_whenReady (program_selectCL1 uid)) fun _ => rfl
  | mifareAuthKeyA blk key uid => exact .call (program_whenReady (program_mifareAuthKeyA blk key uid)) fun _ => rfl
  | mifareReadBlock blk => exact .call (program_whenReady (program_mifareReadBlock blk)) fun _ => rfl
  | mifareWriteBlock blk payload =>
    exact .call (program_whenReady (program_mifareWriteBlock blk payload)) fun _ => rfl
  | softReset => exact .call (program_onOpenHandle program_softReset) fun _ => rfl
  | init => exact .call (program_onOpenHandle program_initChip) fun _ => rfl
  | isTrailerBlock b => exact .call (.value _) fun _ => rfl
  | ensure16Bytes xs => exact .call (.value _) fun _ => rfl
  | detectCard => exact .call (program_whenReady program_detectCard) fun _ => rfl
  | setBits a m => exact .step (program_onOpenHandle (program_setBits a m)) fun _ => rfl
  | clearBits a m => exact .step (program_onOpenHandle (program_clearBits a m)) fun _ => rfl
  | pollUntil a m ms => exact .step (program_onOpenHandle (program_pollUntil a m ms)) fun _ => rfl
  | antennaOn => exact .step (program_onOpenHandle program_antennaOn) fun _ => rfl
  | spiWriteByte | spiReadByte | spiBurstWrite => exact .step (.exchange _) fun _ => rfl
  | cmdIdle | cmdCalcCrc | cmdTransceive | cmdMfAuthent | cmdSoftReset =>
    exact .step (program_issueCommand _) fun _ => rfl
  | piccReqa | piccAnticoll | piccSelect | mfRead | mfWrite => exact .step program_frameStep fun _ => rfl
  | mfAuthKeyA blk key uid =>
    exact .step (program_onOpenHandle (program_withCfg fun _ => .seq (program_require _ _) fun _ =>
      program_authenticate _)) fun _ => rfl
  | mfAck high fourBits =>
    exact .step (program_withCfg (f := fun c => pure (isAck c (ackAnswer c high fourBits))) fun _ => .value _)
      fun _ => rfl

theorem exec_endsTrail {i : Instr} {s t : State} (h : exec i s = .next t) : EndsTrail s t := by
  by_cases hi : MovesHandle i
  · rcases hi with rfl | ⟨bus, dev, hz, rfl⟩ <;> cases h
    · exact endsTrail_hostCall trail_closeTransport _ s
    · exact endsTrail_hostCall (trail_openTransport bus dev hz) _ s
  · rcases exec_runsProgram hi with ⟨hx, hi⟩ | ⟨hx, hi⟩ <;> cases (hi s).symm.trans h
    · exact endsTrail_hostCall hx.leavesTrail _ s
    · exact endsTrail_innerStep hx.leavesTrail _ s

/-- Settles O17: the events of a call are a trail with the transport reason of its outcome. -/
theorem failedExchangeIsLast : Obligations.FailedExchangeIsLast := by
  intro i s t r h
  obtain ⟨o, new, houtcomes, hevents, htrail⟩ := exec_endsTrail h
  constructor
  · intro es ev fs he hr
    obtain rfl : new = es ++ ev :: fs := by simpa [hevents] using he
    obtain ⟨hlast, ho⟩ := htrail.last_of_failure hr
    refine ⟨hlast, ?_⟩
    cases o with
    | raised e => rw [houtcomes, Error.eq_of_transportReason ho]
    | _ => cases ho
  · intro he
    obtain rfl : o = .raised (.transportError r) := by simpa [houtcomes] using he
    obtain ⟨es, ev, rfl, hr⟩ := htrail.exists_failed_last
    exact ⟨es, ev, by rw [hevents, List.append_assoc], hr⟩

/-! ## The end of a call whose program is known (rules R250, R262, R265) -/

theorem hostCall_of_ok {x : Op α} {s t : State} {a : α} (value : α → Value) (hb : s.busy = false)
    (hx : x { s with busy := true } = .ok a t) :
    hostCall x value s = report (.returned (value a)) (leaveOperation t) := by
  simp only [hostCall, asHostCall, hb, hx, concluded, Bool.false_eq_true, if_false]

theorem hostCall_of_raise {x : Op α} {s t : State} {e : Error} (value : α → Value) (hb : s.busy = false)
    (hx : x { s with busy := true } = .error (.raise e) t) :
    hostCall x value s = report (.raised e) (enterError e t) := by
  simp only [hostCall, asHostCall, hb, hx, concluded, Bool.false_eq_true, if_false]

theorem isOpen_of_ne_closed {h : Handle} (hne : h ≠ .closed) : isOpen h = true :=
  Bool.eq_true_of_not_eq_false fun hf => hne (isOpen_false.1 hf)

end Sys2Proof.Machine

/-! ## The register interface (rules R114 to R118)

These theorems have the names of the operations they speak of, so they stand in a namespace of their own. -/

namespace Sys2Proof.RegisterInterface

open Machine

/-- Settles O24: `open` tests the handle; on a closed one the answer to its one question decides how it ends. -/
theorem openTransport : Obligations.OpenTransport := by
  intro s bus dev hz hb answer told
  refine ⟨fun hc => congrArg Host.Outcome.next ?_, fun ho => congrArg Host.Outcome.next ?_⟩
  · have hx := openTransport_closed bus dev hz (s := { s with busy := true }) hc
    cases ha : answer with
    | ok =>
      simp only [show s.links.headD (Config.freeLink s.draws) = _ from ha] at hx
      rw [hostCall_of_ok _ hb hx]
      simp [report, leaveOperation, told, ha, hb]
    | fail code =>
      simp only [show s.links.headD (Config.freeLink s.draws) = _ from ha] at hx
      rw [hostCall_of_raise _ hb hx]
      simp [report, enterError, told, ha, hb, hc, isOpen]
  · exact hostCall_refusing _ hb fun _ hu _ => openTransport_opened bus dev hz (hu ▸ isOpen_of_ne_closed ho)

/-- Settles O25: the handle decides whether the transport is told; its answer decides nothing. -/
theorem closeTransport : Obligations.CloseTransport := by
  intro s hb
  refine ⟨fun ho => congrArg Host.Outcome.next ?_, fun hc => congrArg Host.Outcome.next ?_⟩
  · rw [hostCall_of_ok _ hb (closeTransport_opened (s := { s with busy := true }) (isOpen_of_ne_closed ho))]
    simp [report, leaveOperation, hb]
  · rw [hostCall_of_ok _ hb (closeTransport_closed (s := { s with busy := true }) hc)]
    simp [report, leaveOperation, hb, hc]

/-- Settles O31: both steps go as their dialogue, a read and the write of the changed value. -/
theorem readModifyWrite : Obligations.ReadModifyWrite := by
  intro s a m e v ho
  exact ⟨fun hg => congrArg _ (innerStep_plays _ (plays_setBits s.cfg a m e v) ho hg (answered_says _ _)),
    fun hg => congrArg _ (innerStep_plays _ (plays_clearBits s.cfg a m e v) ho hg (answered_says _ _))⟩

/-- Settles O32: the poll goes as its dialogue (`plays_pollLoop` is the induction on the deadline), which has no error. -/
theorem pollUntil : Obligations.PollUntil := by
  intro s a stop ms p ho hp hg
  exact congrArg _ (innerStep_plays _ (plays_pollUntil s.cfg a stop ms p hp) ho hg (answered_pollTalk a stop ms p))

end Sys2Proof.RegisterInterface
end

section
/-! SUPPORT. The FIFO and CRC family: the FIFO operations and `calcCrc` as their dialogues (obligations O27, O28, O34),
the flush before every load (O50) and the CRC timeout (O54). `FifoProgram` says once which programs load the FIFO behind a
flush only, end with `CrcTimeout`, or issue Transceive; what their events look like is one induction over it. -/

namespace Sys2Proof.Machine

variable {α β : Type}

/-! ## Values written in a history (rules R45, R156) -/

theorem encW_injective : Function.Injective encW := fun a b h => by rw [← addrReg_encW a, h, addrReg_encW]

theorem encR_ne_encW (a b : RegAddr) : encR a ≠ encW b := fun h => by
  have hr := addrIsRead_encR a
  rw [h, addrIsRead_encW] at hr
  cases hr

theorem eq_of_writtenValue_txWrite {a b : RegAddr} {v w : Byte} {x : ExchangeAnswer}
    (h : writtenValue b (.exchange (txWrite a v) x) = some w) : a = b ∧ v = w := by
  cases x with
  | fail r => cases h
  | reply rx =>
    simp only [txWrite, writtenValue, Option.ite_none_right_eq_some, Option.some.injEq] at h
    obtain ⟨⟨ha, -⟩, hv⟩ := h
    exact ⟨encW_injective ha, hv⟩

theorem writtenValue_txRead (a b : RegAddr) (x : ExchangeAnswer) : writtenValue b (.exchange (txRead a) x) = none := by
  cases x with
  | fail r => rfl
  | reply rx => exact if_neg fun h => encR_ne_encW a b h.1

theorem writtenValue_txBurst {a b : RegAddr} (h : a ≠ b) (bs : List Byte) (x : ExchangeAnswer) :
    writtenValue b (.exchange (txBurst a bs) x) = none := by
  have hne : encW a ≠ encW b := fun he => h (encW_injective he)
  rcases bs with _ | ⟨v, _ | ⟨w, rest⟩⟩ <;> cases x <;> simp [txBurst, writtenValue, hne]

/-- An answered write has written its value. -/
theorem writtenValue_answered {a : RegAddr} {v : Byte} {x : ExchangeAnswer} {rx : List Byte}
    (h : exchangeEnd (txWrite a v) x = .ok rx) : writtenValue a (.exchange (txWrite a v) x) = some v := by
  cases x with
  | fail r => cases h
  | reply rx' =>
    by_cases hl : rx'.length = 2
    · exact if_pos ⟨rfl, hl⟩
    · simp [exchangeEnd, txWrite, hl] at h

theorem lastWritten_concat (a : RegAddr) (es : List Event) (e : Event) :
    lastWritten a (es ++ [e]) = (writtenValue a e).or (lastWritten a es) := by
  simp [lastWritten]

theorem lastWritten_append (a : RegAddr) (es fs : List Event) :
    lastWritten a (es ++ fs) = (lastWritten a fs).or (lastWritten a es) := by
  induction fs using List.reverseRecOn with
  | nil => simp [lastWritten]
  | append_singleton fs e ih =>
    rw [← List.append_assoc, lastWritten_concat, lastWritten_concat, ih, Option.or_assoc]

theorem lastWritten_of_none {a : RegAddr} {es : List Event} (h : ∀ e ∈ es, writtenValue a e = none) :
    lastWritten a es = none := by
  induction es using List.reverseRecOn with
  | nil => rfl
  | append_singleton es e ih =>
    rw [lastWritten_concat, h e (by simp), ih fun f hf => h f (by simp [hf])]
    rfl

theorem timesWritten_append (a : RegAddr) (v : Byte) (es fs : List Event) :
    timesWritten a v (es ++ fs) = timesWritten a v es + timesWritten a v fs := List.countP_append

theorem timesWritten_of_ne {a : RegAddr} {v : Byte} {es : List Event} (h : ∀ e ∈ es, writtenValue a e ≠ some v) :
    timesWritten a v es = 0 := by
  simpa [timesWritten, List.countP_eq_zero] using h

theorem timesWritten_single {a : RegAddr} {v : Byte} {e : Event} (h : writtenValue a e = some v) :
    timesWritten a v [e] = 1 := by
  simp [timesWritten, h]

/-! ## Loads behind flushes (rules R134, R301) -/

/-- What suffices without a flush before it suffices with one. -/
theorem loadsFlushed_of_false {c : Cfg} {es : List Event} (h : loadsFlushed c false es = true) (b : Bool) :
    loadsFlushed c b es = true := by
  cases es with
  | nil => rfl
  | cons e es =>
    simp only [loadsFlushed, Bool.or_false, Bool.and_eq_true] at h ⊢
    exact ⟨by simp [h.1], h.2⟩

theorem loadsFlushed_append {c : Cfg} {b : Bool} {es fs : List Event} (h : loadsFlushed c b es = true)
    (k : loadsFlushed c false fs = true) : loadsFlushed c b (es ++ fs) = true := by
  induction es generalizing b with
  | nil => exact loadsFlushed_of_false k b
  | cons e es ih =>
    simp only [List.cons_append, loadsFlushed, Bool.and_eq_true] at h ⊢
    exact ⟨h.1, ih h.2⟩

theorem loadsFlushed_single {c : Cfg} {e : Event} (h : isLoad c e = false) : loadsFlushed c false [e] = true := by
  simp [loadsFlushed, h]

theorem isLoad_txRead (c : Cfg) (a : RegAddr) (x : ExchangeAnswer) : isLoad c (.exchange (txRead a) x) = false := by
  simp [isLoad, txRead, encR_ne_encW]

theorem isLoad_txWrite {c : Cfg} {a : RegAddr} (h : a ≠ c.reg.fifoData) (v : Byte) (x : ExchangeAnswer) :
    isLoad c (.exchange (txWrite a v) x) = false := by
  have hne : encW a ≠ encW c.reg.fifoData := fun he => h (encW_injective he)
  simp [isLoad, txWrite, hne]

/-! ## The programs of the core, as the FIFO sees them -/

/-- The recorded value of a `CrcTimeout` (rule R251). -/
def Stop.crcValue : Stop → Option Byte
  | .raise (.crcTimeout v) => some v
  | _ => none

/-- The programs built from the primitives of the pseudocode under the default configuration. `raw`: it may load the
FIFO without a flush, as a write to a register the caller names may. `crc`: it may end with `CrcTimeout`. `frames`: it may
issue Transceive. -/
inductive FifoProgram (raw crc frames : Bool) : {α : Type} → Op α → Prop
  | value {α : Type} (a : α) : FifoProgram raw crc frames (pure a : Op α)
  | error {α : Type} (e : Error) (h : crc = true ∨ (Stop.raise e).crcValue = none) :
    FifoProgram raw crc frames (raise e : Op α)
  | refusal {α : Type} (r : RefusalReason) : FifoProgram raw crc frames (refuse r : Op α)
  | test (b : Handle → Phase → Bool) (r : RefusalReason) :
    FifoProgram raw crc frames fun s => require (b s.handle s.phase) r s
  | config {α : Type} {f : Cfg → Op α} (hf : FifoProgram raw crc frames (f Cfg.default)) :
    FifoProgram raw crc frames (getCfg >>= f)
  | note (e : Event) (h : ∀ tx x, e ≠ .exchange tx x) : FifoProgram raw crc frames (record e)
  | deadline : FifoProgram raw crc frames drawExpiry
  | phase (p : Phase) : FifoProgram raw crc frames (setPhase p)
  | opening (bus dev hz : Nat) : FifoProgram raw crc frames (openTransport bus dev hz)
  | closing : FifoProgram raw crc frames closeTransport
  | exchange (tx : List Byte) (hload : raw = true ∨ ∀ x, isLoad Cfg.default (.exchange tx x) = false)
    (hframe : frames = true ∨ ∀ x, writtenValue 0x01 (.exchange tx x) ≠ some 0x0C) :
    FifoProgram raw crc frames (exchange tx)
  | load (bs : List Byte) :
    FifoProgram raw crc frames (flushFifo >>= fun _ => writeRegisterBurst Cfg.default.reg.fifoData bs)
  | seq {α β : Type} {x : Op α} {f : α → Op β} (hx : FifoProgram raw crc frames x)
    (hf : ∀ a, FifoProgram raw crc frames (f a)) : FifoProgram raw crc frames (x >>= f)

variable {raw crc frames : Bool}

theorem fifo_ite {p : Prop} [Decidable p] {x y : Op α} (hx : FifoProgram raw crc frames x)
    (hy : FifoProgram raw crc frames y) : FifoProgram raw crc frames (if p then x else y) := by split <;> assumption

theorem fifo_require (b : Bool) (r : RefusalReason) : FifoProgram raw crc frames (require b r) := .test (fun _ _ => b) r

theorem fifo_requireOpen : FifoProgram raw crc frames requireOpen := .test (fun h _ => isOpen h) .notOpen

theorem fifo_requireReady : FifoProgram raw crc frames requireReady :=
  .test (fun _ p => decide (p = .ready)) .notInitialised

theorem fifo_onOpenHandle {x : Op α} (h : FifoProgram raw crc frames x) : FifoProgram raw crc frames (onOpenHandle x) :=
  .seq fifo_requireOpen fun _ => h

theorem fifo_whenReady {x : Op α} (h : FifoProgram raw crc frames x) : FifoProgram raw crc frames (whenReady x) :=
  fifo_onOpenHandle (.seq fifo_requireReady fun _ => h)

theorem fifo_registerOperand (a : Byte) : FifoProgram raw crc frames (registerOperand a) := by
  unfold registerOperand
  split
  · exact .value _
  · exact .refusal _

theorem fifo_blockOperand (blk : Nat) : FifoProgram raw crc frames (blockOperand blk) :=
  fifo_ite (.value _) (.refusal _)

/-! ### The register interface -/

theorem fifo_read (a : RegAddr) : FifoProgram raw crc frames (exchange (txRead a)) :=
  .exchange _ (.inr (isLoad_txRead _ a)) (.inr fun x => by simp [writtenValue_txRead])

theorem fifo_readRegister (a : RegAddr) : FifoProgram raw crc frames (readRegister a) :=
  .seq (fifo_read a) fun _ => .value _

/-- A single write to another register than the FIFO that is no Transceive. -/
theorem fifo_writeRegister {a : RegAddr} {v : Byte} (ha : a ≠ 0x09) (hv : a ≠ 0x01 ∨ v ≠ 0x0C) :
    FifoProgram raw crc frames (writeRegister a v) :=
  .seq (.exchange _ (.inr (isLoad_txWrite ha v)) (.inr fun _ h =>
    have ⟨hreg, hval⟩ := eq_of_writtenValue_txWrite h
    hv.elim (absurd hreg) (absurd hval))) fun _ => .value _

/-- A command issue. -/
theorem fifo_command (v : Byte) : FifoProgram raw crc true (writeRegister Cfg.default.reg.command v) :=
  .seq (.exchange _ (.inr (isLoad_txWrite (by decide) v)) (.inl rfl)) fun _ => .value _

/-- A write to a register the caller names. -/
theorem fifo_rawWrite (a : RegAddr) (v : Byte) : FifoProgram true crc true (writeRegister a v) :=
  .seq (.exchange _ (.inl rfl) (.inl rfl)) fun _ => .value _

/-- A burst to a register the caller names, or a load on its own. -/
theorem fifo_rawBurst {a : RegAddr} (bs : List Byte) (h : frames = true ∨ a ≠ 0x01) :
    FifoProgram true crc frames (writeRegisterBurst a bs) :=
  .seq (.exchange _ (.inl rfl) (h.imp_right fun ha x => (writtenValue_txBurst ha bs x).trans_ne nofun))
    fun _ => .value _

/-- A flush and a load, with what follows them. -/
theorem fifo_load (bs : List Byte) {f : Unit → Op α} (hf : ∀ u, FifoProgram raw crc frames (f u)) :
    FifoProgram raw crc frames (flushFifo >>= fun _ => writeRegisterBurst Cfg.default.reg.fifoData bs >>= f) := by
  rw [← bind_assoc]
  exact .seq (.load bs) hf

theorem fifo_setBits {a : RegAddr} (m : Byte) (h9 : a ≠ 0x09) (h1 : a ≠ 0x01) :
    FifoProgram raw crc frames (setBits a m) :=
  .seq (fifo_readRegister a) fun _ => fifo_writeRegister h9 (.inl h1)

theorem fifo_clearBits {a : RegAddr} (m : Byte) (h9 : a ≠ 0x09) (h1 : a ≠ 0x01) :
    FifoProgram raw crc frames (clearBits a m) :=
  .seq (fifo_readRegister a) fun _ => fifo_writeRegister h9 (.inl h1)

theorem fifo_pollLoop (a : RegAddr) (m : Byte) (k : Nat) : FifoProgram raw crc frames (pollLoop a m k) := by
  induction k with
  | zero => exact .seq (fifo_readRegister a) fun _ => fifo_ite (.value _) (.seq (.note _ nofun) fun _ => .value _)
  | succ k ih => exact .seq (fifo_readRegister a) fun _ => fifo_ite (.value _) (.seq (.note _ nofun) fun _ => ih)

theorem fifo_pollUntil (a : RegAddr) (m : Byte) (ms : Nat) : FifoProgram raw crc frames (pollUntil a m ms) :=
  .seq (.note _ nofun) fun _ => .seq .deadline fun k => fifo_pollLoop a m k

theorem fifo_issueCommand (code : Commands → Byte) : FifoProgram raw crc true (issueCommand code) :=
  .config (fifo_command _)

/-! ### FIFO and CRC -/

theorem fifo_flushFifo : FifoProgram raw crc frames flushFifo :=
  .config (fifo_writeRegister (by decide) (.inl (by decide)))

theorem fifo_fifoLevel : FifoProgram raw crc frames fifoLevel :=
  .config (.seq (fifo_readRegister _) fun _ => .value _)

theorem fifo_readFifoBytes (n : Nat) : FifoProgram raw crc frames (readFifoBytes n) := by
  induction n with
  | zero => exact .value _
  | succ n ih => exact .config (.seq (fifo_readRegister _) fun _ => .seq ih fun _ => .value _)

theorem fifo_calcCrc (buffer : List Byte) : FifoProgram raw true frames (calcCrc buffer) := by
  refine .seq (fifo_require _ _) fun _ => .config ?_
  refine .seq (fifo_writeRegister (by decide) (.inr (by decide))) fun _ => ?_
  refine .seq (fifo_writeRegister (by decide) (.inl (by decide))) fun _ => fifo_load buffer fun _ => ?_
  refine .seq (fifo_writeRegister (by decide) (.inr (by decide))) fun _ => ?_
  refine .seq (fifo_pollUntil _ _ _) fun ⟨v, why⟩ => ?_
  cases why with
  | deadline => exact .error _ (.inl rfl)
  | bit => exact .seq (fifo_readRegister _) fun _ => .seq (fifo_readRegister _) fun _ => .value _

theorem fifo_appendCrc (f : List Byte) : FifoProgram raw true frames (appendCrc f) :=
  .seq (fifo_calcCrc f) fun _ => .value _

/-! ### Transceive -/

theorem fifo_transceivePreamble (frame : List Byte) (vb : Byte) :
    FifoProgram raw crc true (transceivePreamble frame vb) := by
  refine .config (.seq (fifo_command _) fun _ => ?_)
  refine .seq (fifo_writeRegister (by decide) (.inl (by decide))) fun _ => fifo_load frame fun _ => ?_
  refine .seq (fifo_writeRegister (by decide) (.inl (by decide))) fun _ => .seq (fifo_command _) fun _ => ?_
  exact fifo_setBits _ (by decide) (by decide)

theorem fifo_transceiveCompletion (irq : Byte) : FifoProgram raw crc frames (transceiveCompletion irq) :=
  .config (.seq (fifo_clearBits _ (by decide) (by decide)) fun _ => .seq (fifo_readRegister _) fun _ =>
    fifo_ite (.error _ (.inr rfl)) (.seq fifo_fifoLevel fun n => .seq (fifo_readFifoBytes n) fun _ =>
      .seq (fifo_readRegister _) fun _ => .value _))

/-- `transceive` is its operand tests, its preamble, and a program that loads and sends nothing more. -/
theorem transceive_parts (frame : List Byte) (vb : Byte) (ms : Nat) :
    ∃ rest : Cfg → Unit → Op TransceiveResult, (∀ c u, FifoProgram raw crc frames (rest c u)) ∧
      transceive frame vb ms = (do
        require (decide (vb.toNat ≤ 7)) .badValidBits
        require (decide (1 ≤ frame.length ∧ frame.length ≤ Config.fifoCapacity)) .badFrameLength
        let c ← getCfg
        transceivePreamble frame vb >>= rest c) := by
  refine ⟨_, fun c _ => ?_, rfl⟩
  refine .seq (fifo_pollUntil _ _ _) fun ⟨irq, _⟩ => ?_
  dsimp only
  split
  · exact .value _
  · exact .value _
  · exact fifo_transceiveCompletion irq

theorem fifo_transceive (frame : List Byte) (vb : Byte) (ms : Nat) :
    FifoProgram raw crc true (transceive frame vb ms) := by
  obtain ⟨rest, hrest, h⟩ := transceive_parts frame vb ms
  rw [h]
  exact .seq (fifo_require _ _) fun _ => .seq (fifo_require _ _) fun _ => .config
    (.seq (fifo_transceivePreamble frame vb) (hrest _))

/-! ### Card operations -/

theorem fifo_requestA : FifoProgram raw crc true requestA :=
  .config (.seq (fifo_transceive _ _ _) fun _ => .value _)

theorem fifo_anticollCL1 : FifoProgram raw crc true anticollCL1 :=
  .config (.seq (fifo_clearBits _ (by decide) (by decide)) fun _ => .seq (fifo_transceive _ _ _) fun _ => .value _)

theorem fifo_selectCL1 (uid : List Byte) : FifoProgram raw true true (selectCL1 uid) :=
  .seq (fifo_require _ _) fun _ => .config (.seq (fifo_appendCrc _) fun _ =>
    .seq (fifo_transceive _ _ _) fun _ => .value _)

theorem fifo_authenticate (f : List Byte) : FifoProgram raw crc true (authenticate f) := by
  refine .config (.seq (fifo_command _) fun _ => ?_)
  refine .seq (fifo_writeRegister (by decide) (.inl (by decide))) fun _ => fifo_load f fun _ => ?_
  refine .seq (fifo_command _) fun _ => .seq (fifo_pollUntil _ _ _) fun _ => ?_
  exact .seq (fifo_readRegister _) fun _ => fifo_ite (.error _ (.inr rfl))
    (.seq (fifo_readRegister _) fun _ => fifo_ite (.value _) (.error _ (.inr rfl)))

theorem fifo_mifareAuthKeyA (blk : Nat) (key uid : List Byte) : FifoProgram raw crc true (mifareAuthKeyA blk key uid) :=
  .seq (fifo_blockOperand blk) fun _ => .seq (fifo_require _ _) fun _ =>
    fifo_ite (.error _ (.inr rfl)) (.config (fifo_authenticate _))

theorem fifo_mifareReadBlock (blk : Nat) : FifoProgram raw true true (mifareReadBlock blk) :=
  .seq (fifo_blockOperand blk) fun _ => .config (.seq (fifo_appendCrc _) fun _ =>
    .seq (fifo_transceive _ _ _) fun _ => fifo_ite (.error _ (.inr rfl)) (.value _))

theorem fifo_writePhase (phase : Nat) (body : List Byte) (ms : Nat) :
    FifoProgram raw true true (writePhase phase body ms) :=
  .config (.seq (fifo_appendCrc _) fun _ => .seq (fifo_transceive _ _ _) fun _ =>
    fifo_ite (.value _) (.error _ (.inr rfl)))

theorem fifo_mifareWriteBlock (blk : Nat) (payload : List Byte) :
    FifoProgram raw true true (mifareWriteBlock blk payload) :=
  .seq (fifo_blockOperand blk) fun _ => .config (.seq (fifo_writePhase _ _ _) fun _ => fifo_writePhase _ _ _)

theorem fifo_detectCard : FifoProgram raw true true detectCard := by
  refine .seq fifo_requestA fun a => ?_
  cases a with
  | none => exact .value _
  | some atqa =>
    refine .seq fifo_anticollCL1 fun u => ?_
    cases u with
    | none => exact .value _
    | some uid => exact .seq (fifo_selectCL1 _) fun _ => .value _

/-! ### The lifecycle -/

theorem fifo_softReset : FifoProgram raw crc true softReset :=
  .config (.seq (fifo_command _) fun _ => .seq (.note _ nofun) fun _ => .phase _)

theorem fifo_antennaOn : FifoProgram raw crc frames antennaOn :=
  .config (.seq (fifo_readRegister _) fun _ => fifo_ite (.value _) (fifo_writeRegister (by decide) (.inl (by decide))))

theorem fifo_initChip : FifoProgram raw crc true initChip := by
  have write {a : RegAddr} {v : Byte} {x : Op Unit} (h9 : a ≠ 0x09) (h1 : a ≠ 0x01) (hx : FifoProgram raw crc true x) :
      FifoProgram raw crc true (writeRegister a v >>= fun _ => x) :=
    .seq (fifo_writeRegister h9 (.inl h1)) fun _ => hx
  refine .seq (.test (fun _ p => decide (p ≠ .ready)) .alreadyInitialised) fun _ => .seq fifo_softReset fun _ => ?_
  refine .config (write ?_ ?_ (write ?_ ?_ (write ?_ ?_ (write ?_ ?_ (write ?_ ?_ (write ?_ ?_
    (.seq fifo_antennaOn fun _ => .phase _)))))))
  all_goals decide

/-! ## What these programs leave in the history -/

/-- The events of a program: loads behind flushes unless it writes raw, no Transceive unless it sends frames. -/
structure FifoEvents (raw frames : Bool) (es : List Event) : Prop where
  loads : raw = true ∨ loadsFlushed Cfg.default false es = true
  frames : frames = true ∨ timesWritten 0x01 0x0C es = 0

theorem FifoEvents.nil : FifoEvents raw frames [] := ⟨.inr rfl, .inr rfl⟩

theorem FifoEvents.append {es fs : List Event} (h : FifoEvents raw frames es) (k : FifoEvents raw frames fs) :
    FifoEvents raw frames (es ++ fs) where
  loads := h.loads.elim .inl fun h => k.loads.imp_right (loadsFlushed_append h)
  frames := h.frames.elim .inl fun h => k.frames.imp_right fun k => by rw [timesWritten_append, h, k]

theorem FifoEvents.single {e : Event} (hload : raw = true ∨ isLoad Cfg.default e = false)
    (hframe : frames = true ∨ writtenValue 0x01 e ≠ some 0x0C) : FifoEvents raw frames [e] :=
  ⟨hload.imp_right loadsFlushed_single, hframe.imp_right fun h => timesWritten_of_ne (by simpa using h)⟩

/-- A flush and the load behind it. -/
theorem FifoEvents.load {flush load : Event} (hflush : isFlush Cfg.default flush = true)
    (hl : isLoad Cfg.default flush = false) (hf : writtenValue 0x01 flush ≠ some 0x0C)
    (hw : writtenValue 0x01 load ≠ some 0x0C) : FifoEvents raw frames [flush, load] where
  loads := .inr (by simp [loadsFlushed, hflush, hl])
  frames := .inr (timesWritten_of_ne (by simpa using ⟨hf, hw⟩))

/-- The recorded value of the `CrcTimeout` a program ended with. -/
def timeoutEnd : EStateM.Result Stop State α → Option Byte
  | .ok _ _ => none
  | .error e _ => e.crcValue

/-- What a program does from a state to its end: its events are added, and it ends with `CrcTimeout` only if it may. -/
structure FifoRun (raw crc frames : Bool) (s : State) (r : EStateM.Result Stop State α) : Prop where
  cfg : (reached r).cfg = s.cfg
  events : ∃ es, (reached r).events = s.events ++ es ∧ FifoEvents raw frames es
  timeout : crc = true ∨ timeoutEnd r = none

theorem FifoRun.silent {s : State} {r : EStateM.Result Stop State α} (hc : (reached r).cfg = s.cfg)
    (he : (reached r).events = s.events) (hr : crc = true ∨ timeoutEnd r = none) :
    FifoRun raw crc frames s r := ⟨hc, ⟨[], by simp [he], .nil⟩, hr⟩

theorem FifoRun.single {s : State} {r : EStateM.Result Stop State α} {e : Event} (hc : (reached r).cfg = s.cfg)
    (he : (reached r).events = s.events ++ [e]) (h : FifoEvents raw frames [e])
    (hr : crc = true ∨ timeoutEnd r = none) : FifoRun raw crc frames s r :=
  ⟨hc, ⟨[e], he, h⟩, hr⟩

/-- An error ends what follows as well. -/
theorem FifoRun.stopped {s t : State} {e : Stop}
    (h : FifoRun raw crc frames s (.error e t : EStateM.Result Stop State α)) :
    FifoRun raw crc frames s (.error e t : EStateM.Result Stop State β) where
  cfg := h.cfg
  events := h.events
  timeout := h.timeout

theorem fifoRun_bind {x : Op α} {f : α → Op β} {s : State} (hx : FifoRun raw crc frames s (x s))
    (hf : ∀ a t, x s = .ok a t → FifoRun raw crc frames t (f a t)) : FifoRun raw crc frames s ((x >>= f) s) := by
  rw [op_bind]
  cases hr : x s with
  | error e t => rw [hr] at hx; exact hx.stopped
  | ok a t =>
    rw [hr] at hx
    obtain ⟨hc, ⟨es, he, hes⟩, -⟩ := hx
    obtain ⟨kc, ⟨fs, kf, kfs⟩, kerr⟩ := hf a t hr
    have he : t.events = s.events ++ es := he
    exact ⟨kc.trans hc, ⟨es ++ fs, by rw [kf, he, List.append_assoc], hes.append kfs⟩, kerr⟩

/-- An exchange adds its event or is refused, and ends in no error but the transport's. -/
theorem fifoRun_exchange {tx : List Byte} {s : State} (h : ∀ x, FifoEvents raw frames [.exchange tx x]) :
    FifoRun raw crc frames s (exchange tx s) := by
  cases ho : isOpen s.handle with
  | false => rw [exchange_closed tx ho]; exact .silent rfl rfl (.inr rfl)
  | true =>
    rw [exchange_open tx ho]
    cases exchangeEnd tx (nextAnswer s tx) with
    | ok rx => exact .single rfl rfl (h _) (.inr rfl)
    | error r => exact .single rfl rfl (h _) (.inr rfl)

/-- A burst is its event, or refused. -/
theorem writeRegisterBurst_events (a : RegAddr) (bs : List Byte) (s : State) :
    (reached (writeRegisterBurst a bs s)).events = s.events ∨
      ∃ x, (reached (writeRegisterBurst a bs s)).events = s.events ++ [.exchange (txBurst a bs) x] := by
  have h : reached (writeRegisterBurst a bs s) = reached (exchange (txBurst a bs) s) := by
    rw [writeRegisterBurst, op_bind]
    cases exchange (txBurst a bs) s <;> rfl
  rw [h]
  cases ho : isOpen s.handle with
  | false => rw [exchange_closed _ ho]; exact .inl rfl
  | true =>
    rw [exchange_open _ ho]
    refine .inr ⟨nextAnswer s (txBurst a bs), ?_⟩
    cases exchangeEnd (txBurst a bs) (nextAnswer s (txBurst a bs)) <;> rfl

/-- A write that returns was answered. -/
theorem writeRegister_returned {a : RegAddr} {v : Byte} {s t : State} (h : writeRegister a v s = .ok () t) :
    t.cfg = s.cfg ∧ ∃ x, t.events = s.events ++ [.exchange (txWrite a v) x] ∧
      writtenValue a (.exchange (txWrite a v) x) = some v := by
  rw [writeRegister, op_bind] at h
  cases ho : isOpen s.handle with
  | false => simp [exchange_closed _ ho] at h
  | true =>
    rw [exchange_open _ ho] at h
    cases he : exchangeEnd (txWrite a v) (nextAnswer s (txWrite a v)) with
    | error r => simp [he] at h
    | ok rx =>
      simp only [he, op_pure, EStateM.Result.ok.injEq, true_and] at h
      subst h
      exact ⟨rfl, _, rfl, writtenValue_answered he⟩

/-- A load is behind the flush before it, which was answered if the load comes at all. -/
theorem fifoRun_load (bs : List Byte) {s : State} (hs : s.cfg = Cfg.default) :
    FifoRun raw crc frames s ((flushFifo >>= fun _ => writeRegisterBurst Cfg.default.reg.fifoData bs) s) := by
  have hflush : flushFifo s = writeRegister 0x0A 0x80 s := by simp [flushFifo, hs, Cfg.default]
  have hl x : isLoad Cfg.default (.exchange (txWrite 0x0A 0x80) x) = false := isLoad_txWrite (by decide) _ x
  have hf x : writtenValue 0x01 (.exchange (txWrite 0x0A 0x80) x) ≠ some 0x0C := fun h =>
    absurd (eq_of_writtenValue_txWrite h).1 (by decide)
  have hw x : writtenValue 0x01 (.exchange (txBurst 0x09 bs) x) ≠ some 0x0C :=
    (writtenValue_txBurst (by decide) bs x).trans_ne nofun
  rw [op_bind, hflush]
  cases hr : writeRegister 0x0A 0x80 s with
  | error e t =>
    have h : FifoRun raw crc frames s (writeRegister 0x0A 0x80 s) :=
      fifoRun_bind (fifoRun_exchange fun x => .single (.inr (hl x)) (.inr (hf x))) fun _ _ _ =>
        .silent rfl rfl (.inr rfl)
    rw [hr] at h
    exact h.stopped
  | ok a t =>
    obtain ⟨hc, x, he, hval⟩ := writeRegister_returned hr
    have hload : FifoRun true crc true t (writeRegisterBurst 0x09 bs t) :=
      fifoRun_bind (fifoRun_exchange fun x => ⟨.inl rfl, .inl rfl⟩) fun _ _ _ => .silent rfl rfl (.inr rfl)
    refine ⟨hload.cfg.trans hc, ?_, hload.timeout⟩
    rcases writeRegisterBurst_events 0x09 bs t with hb | ⟨y, hb⟩
    · exact ⟨_, hb.trans he, .single (.inr (hl x)) (.inr (hf x))⟩
    · refine ⟨[.exchange (txWrite 0x0A 0x80) x, .exchange (txBurst 0x09 bs) y], ?_, .load ?_ (hl x) (hf x) (hw y)⟩
      · exact hb.trans (by rw [he, List.append_assoc]; rfl)
      · rw [isFlush, show writtenValue Cfg.default.reg.fifoLevel _ = some 0x80 from hval]; rfl

theorem fifoRun_require (b : Bool) (r : RefusalReason) (s : State) : FifoRun raw crc frames s (require b r s) := by
  cases b <;> exact .silent rfl rfl (.inr rfl)

/-- `open` and `close` speak to the transport alone. -/
theorem fifoEvents_link {e : Event} (h : ∀ tx x, e ≠ .exchange tx x) : FifoEvents raw frames [e] := by
  cases e with
  | exchange tx x => exact absurd rfl (h tx x)
  | _ => exact .single (.inr rfl) (.inr nofun)

theorem fifoRun_openTransport (bus dev hz : Nat) (s : State) :
    FifoRun raw crc frames s (openTransport bus dev hz s) := by
  cases ho : isOpen s.handle with
  | true => rw [openTransport_opened bus dev hz ho]; exact .silent rfl rfl (.inr rfl)
  | false =>
    rw [openTransport_closed bus dev hz (isOpen_false.1 ho)]
    cases s.links.headD (Config.freeLink s.draws) with
    | ok => exact .single rfl rfl (fifoEvents_link nofun) (.inr rfl)
    | fail code => exact .single rfl rfl (fifoEvents_link nofun) (.inr rfl)

theorem fifoRun_closeTransport (s : State) : FifoRun raw crc frames s (closeTransport s) := by
  cases ho : isOpen s.handle with
  | true => rw [closeTransport_opened ho]; exact .single rfl rfl (fifoEvents_link nofun) (.inr rfl)
  | false => rw [closeTransport_closed (isOpen_false.1 ho)]; exact .silent rfl rfl (.inr rfl)

/-- A primitive adds no event or one, a load comes with its flush, and a sequence adds the events of both. -/
theorem FifoProgram.run {x : Op α} (h : FifoProgram raw crc frames x) (s : State) (hs : s.cfg = Cfg.default) :
    FifoRun raw crc frames s (x s) := by
  induction h generalizing s with
  | value a => exact .silent rfl rfl (.inr rfl)
  | error e he => exact .silent rfl rfl he
  | refusal r => exact .silent rfl rfl (.inr rfl)
  | test b r => exact fifoRun_require _ r s
  | config hf ih =>
    rw [op_bind, getCfg_apply, hs]
    exact ih s hs
  | note e he => exact .single rfl rfl (fifoEvents_link he) (.inr rfl)
  | deadline => rw [drawExpiry_apply]; exact .silent rfl rfl (.inr rfl)
  | phase p => exact .silent rfl rfl (.inr rfl)
  | opening bus dev hz => exact fifoRun_openTransport bus dev hz s
  | closing => exact fifoRun_closeTransport s
  | exchange tx hload hframe =>
    exact fifoRun_exchange fun x => .single (hload.imp_right fun h => h x) (hframe.imp_right fun h => h x)
  | load bs => exact fifoRun_load bs hs
  | seq hx hf ihx ihf =>
    have hx := ihx s hs
    exact fifoRun_bind hx fun a t hr => ihf a t ((hr ▸ hx).cfg.trans hs)

/-! ## What every instruction leaves in the history -/

/-- The operations that run `calcCrc`. -/
def runsCrc : Instr → Bool
  | .calcCrc _ | .selectCL1 _ | .mifareReadBlock _ | .mifareWriteBlock _ _ | .detectCard => true
  | _ => false

/-- An instruction is a host call or an inner step of a program that writes raw only if the instruction does, and may
end with `CrcTimeout` only if the instruction runs `calcCrc`. -/
inductive FifoMeant (i : Instr) : Prop
  | call {α : Type} {x : Op α} {value : α → Value} (hx : FifoProgram (isRaw i) (runsCrc i) true x)
      (h : ∀ s, exec i s = .next (hostCall x value s))
  | step {α : Type} {x : Op α} {value : α → Value} (hx : FifoProgram (isRaw i) (runsCrc i) true x)
      (h : ∀ s, exec i s = .next (innerStep x value s))

theorem fifo_registerCall (a : Byte) {f : RegAddr → Op α} (hf : ∀ a', FifoProgram raw crc frames (f a')) :
    FifoProgram raw crc frames (onOpenHandle (registerOperand a >>= f)) :=
  fifo_onOpenHandle (.seq (fifo_registerOperand a) hf)

theorem fifo_frameStep {frame : Cfg → List Byte} {vb : Byte} {ms : Nat} :
    FifoProgram raw crc true (onOpenHandle (getCfg >>= fun c => transceive (frame c) vb ms)) :=
  fifo_onOpenHandle (.config (fifo_transceive _ _ _))

theorem exec_fifoMeant (i : Instr) : FifoMeant i := by
  cases i with
  | openTransport bus dev hz => exact .call (.opening bus dev hz) fun _ => rfl
  | close => exact .call .closing fun _ => rfl
  | writeRegister a v => exact .call (fifo_registerCall a fun _ => fifo_rawWrite _ v) fun _ => rfl
  | readRegister a => exact .call (fifo_registerCall a fifo_readRegister) fun _ => rfl
  | writeRegisterBurst a bs => exact .call (fifo_registerCall a fun _ => fifo_rawBurst bs (.inl rfl)) fun _ => rfl
  | flushFifo => exact .call (fifo_onOpenHandle fifo_flushFifo) fun _ => rfl
  | fifoLevel => exact .call (fifo_onOpenHandle fifo_fifoLevel) fun _ => rfl
  | readFifoBytes n => exact .call (fifo_onOpenHandle (fifo_readFifoBytes n)) fun _ => rfl
  | calcCrc buffer => exact .call (fifo_onOpenHandle (fifo_calcCrc buffer)) fun _ => rfl
  | transceive frame vb ms => exact .call (fifo_onOpenHandle (fifo_transceive frame vb ms)) fun _ => rfl
  | requestA => exact .call (fifo_whenReady fifo_requestA) fun _ => rfl
  | anticollCL1 => exact .call (fifo_whenReady fifo_anticollCL1) fun _ => rfl
  | selectCL1 uid => exact .call (fifo_whenReady (fifo_selectCL1 uid)) fun _ => rfl
  | mifareAuthKeyA blk key uid => exact .call (fifo_whenReady (fifo_mifareAuthKeyA blk key uid)) fun _ => rfl
  | mifareReadBlock blk => exact .call (fifo_whenReady (fifo_mifareReadBlock blk)) fun _ => rfl
  | mifareWriteBlock blk payload => exact .call (fifo_whenReady (fifo_mifareWriteBlock blk payload)) fun _ => rfl
  | softReset => exact .call (fifo_onOpenHandle fifo_softReset) fun _ => rfl
  | init => exact .call (fifo_onOpenHandle fifo_initChip) fun _ => rfl
  | isTrailerBlock b => exact .call (.value _) fun _ => rfl
  | ensure16Bytes xs => exact .call (.value _) fun _ => rfl
  | detectCard => exact .call (fifo_whenReady fifo_detectCard) fun _ => rfl
  | setBits a m =>
    exact .step (fifo_onOpenHandle (.seq (fifo_readRegister a) fun _ => fifo_rawWrite a _)) fun _ => rfl
  | clearBits a m =>
    exact .step (fifo_onOpenHandle (.seq (fifo_readRegister a) fun _ => fifo_rawWrite a _)) fun _ => rfl
  | pollUntil a m ms => exact .step (fifo_onOpenHandle (fifo_pollUntil a m ms)) fun _ => rfl
  | antennaOn => exact .step (fifo_onOpenHandle fifo_antennaOn) fun _ => rfl
  | spiReadByte a => exact .step (fifo_read a) fun _ => rfl
  | spiWriteByte | spiBurstWrite => exact .step (.exchange _ (.inl rfl) (.inl rfl)) fun _ => rfl
  | cmdIdle | cmdCalcCrc | cmdTransceive | cmdMfAuthent | cmdSoftReset =>
    exact .step (fifo_issueCommand _) fun _ => rfl
  | piccReqa | piccAnticoll | piccSelect | mfRead | mfWrite => exact .step fifo_frameStep fun _ => rfl
  | mfAuthKeyA blk key uid =>
    exact .step (fifo_onOpenHandle (.config (.seq (fifo_require _ _) fun _ => fifo_authenticate _))) fun _ => rfl
  | mfAck high fourBits =>
    exact .step (.config (f := fun c => pure (isAck c (ackAnswer c high fourBits))) (.value _)) fun _ => rfl

/-- The entry and the end of a call add no event. -/
theorem hostCall_fifoEvents {x : Op α} (hx : FifoProgram raw crc frames x) (value : α → Value) {s : State}
    (hs : s.cfg = Cfg.default) : ∃ es, (hostCall x value s).events = s.events ++ es ∧ FifoEvents raw frames es := by
  have h := (hx.run { s with busy := true } hs).events
  rcases hostCall_cases x value s with ⟨-, he⟩ | ⟨-, a, t, hr, he⟩ | ⟨-, e, t, hr, he⟩ | ⟨-, r, t, hr, he⟩
  · rw [he]
    exact ⟨[], by simp, .nil⟩
  all_goals
    rw [hr] at h
    rw [he]
    exact h

theorem innerStep_fifoEvents {x : Op α} (hx : FifoProgram raw crc frames x) (value : α → Value) {s : State}
    (hs : s.cfg = Cfg.default) : ∃ es, (innerStep x value s).events = s.events ++ es ∧ FifoEvents raw frames es := by
  have h := (hx.run s hs).events
  rcases innerStep_cases x value s with ⟨a, t, hr, he⟩ | ⟨e, t, hr, he⟩ | ⟨r, t, hr, he⟩
  all_goals
    rw [hr] at h
    rw [he]
    exact h

theorem exec_fifoEvents {i : Instr} {s t : State} (hs : s.cfg = Cfg.default) (h : exec i s = .next t) :
    FifoEvents (isRaw i) true (newEvents s t) := by
  have hes : ∃ es, t.events = s.events ++ es ∧ FifoEvents (isRaw i) true es := by
    rcases exec_fifoMeant i with ⟨hx, hi⟩ | ⟨hx, hi⟩ <;> cases (hi s).symm.trans h
    · exact hostCall_fifoEvents hx _ hs
    · exact innerStep_fifoEvents hx _ hs
  obtain ⟨es, he, hf⟩ := hes
  rwa [newEvents, he, List.drop_left]

/-! ## The FIFO level (rule R131) -/

theorem fifoLevel_apply (s : State) : fifoLevel s = (exchange (txRead s.cfg.reg.fifoLevel) >>= fun rx =>
    pure (rx.getD 1 0 &&& s.cfg.mask.fifoLevel).toNat) s := by
  show ((exchange _ >>= _) >>= _) s = _
  rw [bind_assoc]
  rfl

/-! ## The CRC timeout (rules R136, R137, R253) -/

/-- Under the default configuration, a program that returns has issued Transceive `n` times. -/
def Sends (n : Nat) (x : Op α) : Prop :=
  ∀ s t a, s.cfg = Cfg.default → x s = .ok a t →
    t.cfg = Cfg.default ∧ ∃ es, t.events = s.events ++ es ∧ timesWritten 0x01 0x0C es = n

/-- The events before a `CrcTimeout` of the value `v`: `CRCIRq` is clear in it, the command last written is CalcCRC, and
`K` holds of how often Transceive was issued. -/
def CrcTimedOut (K : Nat → Prop) (v : Byte) (es : List Event) : Prop :=
  v &&& 0x04 = 0 ∧ lastWritten 0x01 es = some 0x03 ∧ K (timesWritten 0x01 0x0C es)

/-- Under the default configuration, a program that ends with `CrcTimeout` leaves such events. -/
def TimesOut (K : Nat → Prop) (x : Op α) : Prop :=
  ∀ s t v, s.cfg = Cfg.default → x s = .error (.raise (.crcTimeout v)) t →
    ∃ es, t.events = s.events ++ es ∧ CrcTimedOut K v es

variable {K : Nat → Prop} {n m : Nat}

theorem FifoProgram.sends {x : Op α} (h : FifoProgram raw crc false x) : Sends 0 x := by
  intro s t a hs hr
  have hrun := hr ▸ h.run s hs
  obtain ⟨es, he, hes⟩ := hrun.events
  exact ⟨hrun.cfg.trans hs, es, he, hes.frames.resolve_left nofun⟩

theorem FifoProgram.ne_timeout {x : Op α} (h : FifoProgram raw false frames x) {s t : State} {v : Byte}
    (hs : s.cfg = Cfg.default) : x s ≠ .error (.raise (.crcTimeout v)) t := by
  intro hr
  have hrun := hr ▸ h.run s hs
  rcases hrun.timeout with h | h <;> cases h

theorem FifoProgram.timesOut {x : Op α} (h : FifoProgram raw false frames x) : TimesOut K x :=
  fun _ _ _ hs hr => absurd hr (h.ne_timeout hs)

theorem timesOut_pure (a : α) : TimesOut K (pure a : Op α) :=
  (FifoProgram.value (raw := true) (frames := true) a).timesOut

theorem TimesOut.imp {K' : Nat → Prop} {x : Op α} (h : TimesOut K x) (hk : ∀ k, K k → K' k) : TimesOut K' x := by
  intro s t v hs hr
  obtain ⟨es, he, hv, hlast, h⟩ := h s t v hs hr
  exact ⟨es, he, hv, hlast, hk _ h⟩

theorem sends_bind {x : Op α} {f : α → Op β} (hx : Sends n x) (hf : ∀ a, Sends m (f a)) : Sends (n + m) (x >>= f) := by
  intro s t b hs hr
  rw [op_bind] at hr
  cases hxr : x s with
  | error e u => simp [hxr] at hr
  | ok a u =>
    rw [hxr] at hr
    obtain ⟨hu, es, he, hn⟩ := hx s u a hs hxr
    obtain ⟨ht, fs, hf, hm⟩ := hf a u t b hu hr
    exact ⟨ht, es ++ fs, by rw [hf, he, List.append_assoc], by rw [timesWritten_append, hn, hm]⟩

/-- A program ends with the timeout of its first part, or with that of its second behind what the first has sent. -/
theorem timesOut_bind {x : Op α} {f : α → Op β} (hx : TimesOut K x) (hn : Sends n x)
    (hf : ∀ a, TimesOut (fun k => K (n + k)) (f a)) : TimesOut K (x >>= f) := by
  intro s t v hs hr
  rw [op_bind] at hr
  cases hxr : x s with
  | error e u =>
    rw [hxr] at hr
    cases hr
    exact hx s t v hs hxr
  | ok a u =>
    rw [hxr] at hr
    obtain ⟨hu, es, he, hn⟩ := hn s u a hs hxr
    obtain ⟨fs, hf, hv, hlast, hk⟩ := hf a u t v hu hr
    exact ⟨es ++ fs, by rw [hf, he, List.append_assoc], hv, by rw [lastWritten_append, hlast]; rfl,
      by rwa [timesWritten_append, hn]⟩

theorem sends_config {f : Cfg → Op α} (h : Sends n (f Cfg.default)) : Sends n (getCfg >>= f) := by
  intro s t a hs hr
  rw [op_bind, getCfg_apply, hs] at hr
  exact h s t a hs hr

theorem timesOut_config {f : Cfg → Op α} (h : TimesOut K (f Cfg.default)) : TimesOut K (getCfg >>= f) := by
  intro s t v hs hr
  rw [op_bind, getCfg_apply, hs] at hr
  exact h s t v hs hr

theorem sends_behind {x : Op α} {f : α → Op β} (hx : FifoProgram true true false x) (hf : ∀ a, Sends n (f a)) :
    Sends n (x >>= f) := Nat.zero_add n ▸ sends_bind hx.sends hf

theorem sends_before {x : Op α} {f : α → Op β} (hx : Sends n x) (hf : ∀ a, FifoProgram true true false (f a)) :
    Sends n (x >>= f) := sends_bind (m := 0) hx fun a => (hf a).sends

theorem timesOut_behind {x : Op α} {f : α → Op β} (hx : FifoProgram true false false x) (hf : ∀ a, TimesOut K (f a)) :
    TimesOut K (x >>= f) := timesOut_bind hx.timesOut hx.sends (by simpa using hf)

/-! ### The poll of `calcCrc` -/

/-- A poll ends by its deadline behind a read without a stop bit (rule R116). -/
theorem pollLoop_deadline {a : RegAddr} {stop v : Byte} {k : Nat} {s t : State}
    (h : pollLoop a stop k s = .ok (v, .deadline) t) : v &&& stop = 0 := by
  induction k generalizing s with
  | zero =>
    rw [pollLoop, op_bind] at h
    cases hr : readRegister a s with
    | error e u => simp [hr] at h
    | ok w u =>
      cases hs : anySet w stop <;> simp [hr, hs] at h
      exact h.1 ▸ anySet_false.1 hs
  | succ k ih =>
    rw [pollLoop, op_bind] at h
    cases hr : readRegister a s with
    | error e u => simp [hr] at h
    | ok w u =>
      cases hs : anySet w stop <;> simp [hr, hs] at h
      exact ih h

theorem pollUntil_deadline {a : RegAddr} {stop v : Byte} {ms : Nat} {s t : State}
    (h : pollUntil a stop ms s = .ok (v, .deadline) t) : v &&& stop = 0 := by
  simp only [pollUntil, op_bind, record_apply, drawExpiry_apply] at h
  exact pollLoop_deadline h

/-- An event that is no answered single write. -/
def WritesNothing (_ : Cfg) (e : Event) : Prop := ∀ b, writtenValue b e = none

theorem grown_pollUntil (a : RegAddr) (stop : Byte) (ms : Nat) (s : State) :
    Grown WritesNothing s (reached (pollUntil a stop ms s)) :=
  staysAt_pollUntil (c := s.cfg) (fun x b => writtenValue_txRead a b x) (fun _ _ _ => rfl) (fun _ _ => rfl) s rfl

/-- Where only the deadline raises `CrcTimeout`, it records a value without a stop bit, and nothing was written. -/
theorem pollUntil_crcTimeout {a : RegAddr} {stop v : Byte} {ms : Nat} {f : Byte × PollEnd → Op α} {s t : State}
    (hd : ∀ v, f (v, .deadline) = raise (.crcTimeout v)) (hb : ∀ v, FifoProgram raw false frames (f (v, .bit)))
    (hs : s.cfg = Cfg.default) (hr : (pollUntil a stop ms >>= f) s = .error (.raise (.crcTimeout v)) t) :
    v &&& stop = 0 ∧ ∃ es, t.events = s.events ++ es ∧ ∀ e ∈ es, WritesNothing s.cfg e := by
  have hgrown := grown_pollUntil a stop ms s
  rw [op_bind] at hr
  cases hp : pollUntil a stop ms s with
  | error e u =>
    rw [hp] at hr
    cases hr
    exact absurd hp ((fifo_pollUntil (raw := true) (frames := true) a stop ms).ne_timeout hs)
  | ok p u =>
    rw [hp] at hr hgrown
    obtain ⟨w, why⟩ := p
    cases why with
    | bit => exact absurd hr ((hb w).ne_timeout (hgrown.cfg.trans hs))
    | deadline =>
      simp only [hd, raise_apply] at hr
      cases hr
      exact ⟨pollUntil_deadline hp, hgrown.events⟩

/-- The command CalcCRC and the wait for it. -/
theorem timesOut_crcWait {a : RegAddr} {ms : Nat} {f : Byte × PollEnd → Op α}
    (hd : ∀ v, f (v, .deadline) = raise (.crcTimeout v)) (hb : ∀ v, FifoProgram true false true (f (v, .bit))) :
    TimesOut (· = 0) (writeRegister 0x01 0x03 >>= fun _ => pollUntil a 0x04 ms >>= f) := by
  intro s t v hs hr
  rw [op_bind] at hr
  cases hw : writeRegister 0x01 0x03 s with
  | error e u =>
    rw [hw] at hr
    cases hr
    exact absurd hw ((fifo_writeRegister (raw := true) (frames := true) (by decide) (.inr (by decide))).ne_timeout hs)
  | ok _ u =>
    rw [hw] at hr
    obtain ⟨hu, x, he, hval⟩ := writeRegister_returned hw
    obtain ⟨hv, fs, hf, hnone⟩ := pollUntil_crcTimeout hd hb (hu.trans hs) hr
    refine ⟨.exchange (txWrite 0x01 0x03) x :: fs, by rw [hf, he, List.append_assoc]; rfl, hv, ?_, ?_⟩
    · rw [← List.singleton_append, lastWritten_append, lastWritten_of_none fun e h => hnone e h 0x01]
      simpa [lastWritten] using hval
    · refine timesWritten_of_ne (List.forall_mem_cons.2 ⟨?_, fun e h => (hnone e h 0x01).trans_ne nofun⟩)
      rw [hval]
      decide

/-! ### The operations that run `calcCrc` -/

theorem timesOut_calcCrc (buffer : List Byte) : TimesOut (· = 0) (calcCrc buffer) := by
  refine timesOut_behind (fifo_require _ _) fun _ => timesOut_config ?_
  refine timesOut_behind (fifo_writeRegister (by decide) (.inr (by decide))) fun _ => ?_
  refine timesOut_behind (fifo_writeRegister (by decide) (.inl (by decide))) fun _ => ?_
  refine timesOut_behind fifo_flushFifo fun _ => timesOut_behind (fifo_rawBurst _ (.inr (by decide))) fun _ => ?_
  exact timesOut_crcWait (fun _ => rfl) fun _ =>
    .seq (fifo_readRegister _) fun _ => .seq (fifo_readRegister _) fun _ => .value _

/-- A CRC and what is made of it: only the CRC times out, before anything is sent. -/
theorem timesOut_appendCrc (body : List Byte) {f : List Byte → Op α}
    (hf : ∀ frame, FifoProgram true false true (f frame)) :
    TimesOut (· = 0) (appendCrc body >>= f) := by
  have h : TimesOut (· = 0) (appendCrc body) :=
    timesOut_bind (timesOut_calcCrc body) (fifo_calcCrc (raw := true) body).sends fun _ =>
      timesOut_pure _
  exact timesOut_bind h (fifo_appendCrc (raw := true) body).sends fun frame => (hf frame).timesOut

/-- The command Transceive. -/
theorem sends_command : Sends 1 (writeRegister 0x01 0x0C) := by
  intro s t _ hs hr
  obtain ⟨ht, x, he, hval⟩ := writeRegister_returned hr
  exact ⟨ht.trans hs, _, he, timesWritten_single hval⟩

theorem sends_transceivePreamble (frame : List Byte) (vb : Byte) : Sends 1 (transceivePreamble frame vb) := by
  refine sends_config (sends_behind (fifo_writeRegister (by decide) (.inr (by decide))) fun _ => ?_)
  refine sends_behind (fifo_writeRegister (by decide) (.inl (by decide))) fun _ => ?_
  refine sends_behind fifo_flushFifo fun _ => ?_
  refine sends_behind (fifo_rawBurst _ (.inr (by decide))) fun _ => ?_
  refine sends_behind (fifo_writeRegister (by decide) (.inl (by decide))) fun _ => ?_
  exact sends_before sends_command fun _ => fifo_setBits _ (by decide) (by decide)

theorem sends_transceive (frame : List Byte) (vb : Byte) (ms : Nat) : Sends 1 (transceive frame vb ms) := by
  obtain ⟨rest, hrest, h⟩ := transceive_parts frame vb ms
  rw [h]
  exact sends_behind (fifo_require _ _) fun _ => sends_behind (fifo_require _ _) fun _ =>
    sends_config (sends_before (sends_transceivePreamble frame vb) (hrest _))

theorem sends_requestA : Sends 1 requestA :=
  sends_config (sends_before (sends_transceive _ _ _) fun _ => .value _)

theorem sends_anticollCL1 : Sends 1 anticollCL1 :=
  sends_config (sends_behind (fifo_clearBits _ (by decide) (by decide)) fun _ =>
    sends_before (sends_transceive _ _ _) fun _ => .value _)

theorem sends_selectCL1 (uid : List Byte) : Sends 1 (selectCL1 uid) :=
  sends_behind (fifo_require _ _) fun _ => sends_config (sends_behind (fifo_appendCrc _) fun _ =>
    sends_before (sends_transceive _ _ _) fun _ => .value _)

theorem sends_writePhase (phase : Nat) (body : List Byte) (ms : Nat) : Sends 1 (writePhase phase body ms) :=
  sends_config (sends_behind (fifo_appendCrc _) fun _ => sends_before (sends_transceive _ _ _) fun _ =>
    fifo_ite (.value _) (.error _ (.inr rfl)))

theorem timesOut_selectCL1 (uid : List Byte) : TimesOut (· = 0) (selectCL1 uid) :=
  timesOut_behind (fifo_require _ _) fun _ => timesOut_config (timesOut_appendCrc _ fun _ =>
    .seq (fifo_transceive _ _ _) fun _ => .value _)

theorem timesOut_mifareReadBlock (blk : Nat) : TimesOut (· = 0) (mifareReadBlock blk) :=
  timesOut_behind (fifo_blockOperand blk) fun _ => timesOut_config (timesOut_appendCrc _ fun _ =>
    .seq (fifo_transceive _ _ _) fun _ => fifo_ite (.error _ (.inr rfl)) (.value _))

theorem timesOut_writePhase (phase : Nat) (body : List Byte) (ms : Nat) : TimesOut (· = 0) (writePhase phase body ms) :=
  timesOut_config (timesOut_appendCrc _ fun _ => .seq (fifo_transceive _ _ _) fun _ =>
    fifo_ite (.value _) (.error _ (.inr rfl)))

/-- The CRC of the second phase comes behind the frame of the first. -/
theorem timesOut_mifareWriteBlock (blk : Nat) (payload : List Byte) : TimesOut (· ≤ 1) (mifareWriteBlock blk payload) :=
  timesOut_behind (fifo_blockOperand blk) fun _ => timesOut_config
    (timesOut_bind ((timesOut_writePhase _ _ _).imp fun _ => by omega) (sends_writePhase _ _ _) fun _ =>
      (timesOut_writePhase _ _ _).imp fun _ => by omega)

/-- The CRC is that of the select, behind the frames of the two stages before it. -/
theorem timesOut_detectCard : TimesOut (· = 2) detectCard := by
  refine timesOut_bind (fifo_requestA (raw := true)).timesOut sends_requestA fun a => ?_
  cases a with
  | none => exact timesOut_pure _
  | some atqa =>
    refine timesOut_bind (fifo_anticollCL1 (raw := true)).timesOut sends_anticollCL1 fun u => ?_
    cases u with
    | none => exact timesOut_pure _
    | some uid =>
      exact timesOut_bind ((timesOut_selectCL1 _).imp fun _ => by omega) (sends_selectCL1 _) fun _ =>
        timesOut_pure _

/-! ### The instructions that run `calcCrc` -/

/-- The outcome of a call that raised is that of its program. -/
theorem hostCall_raised {x : Op α} {value : α → Value} {s : State} {e : Error}
    (h : (hostCall x value s).outcomes = s.outcomes ++ [.raised e]) :
    ∃ u, x { s with busy := true } = .error (.raise e) u ∧ (hostCall x value s).events = u.events := by
  rcases hostCall_cases x value s with ⟨-, he⟩ | ⟨-, a, t, hr, he⟩ | ⟨-, e', t, hr, he⟩ | ⟨-, r, t, hr, he⟩
  all_goals
    rw [he, report_outcomes] at h
    have hlast := List.append_inj_right' h rfl
    cases hlast
  exact ⟨t, hr, by rw [he]; rfl⟩

theorem innerStep_raised {x : Op α} {value : α → Value} {s : State} {e : Error}
    (h : (innerStep x value s).outcomes = s.outcomes ++ [.raised e]) :
    ∃ u, x s = .error (.raise e) u ∧ (innerStep x value s).events = u.events := by
  rcases innerStep_cases x value s with ⟨a, t, hr, he⟩ | ⟨e', t, hr, he⟩ | ⟨r, t, hr, he⟩
  all_goals
    rw [he, report_outcomes] at h
    have hlast := List.append_inj_right' h rfl
    cases hlast
  exact ⟨t, hr, by rw [he]; rfl⟩

/-- How often an instruction that times out may have issued Transceive (rules R137, R253). -/
def SentBeforeCrc : Instr → Nat → Prop
  | .mifareWriteBlock _ _, k => k ≤ 1
  | .detectCard, k => k = 2
  | _, k => k = 0

theorem hostCall_crcTimedOut {x : Op α} {value : α → Value} {s t : State} {v : Byte} (hx : TimesOut K x)
    (hs : s.cfg = Cfg.default) (ht : Host.Outcome.next (φ := Fault) (ρ := Refusal) (hostCall x value s) = .next t)
    (h : t.outcomes = s.outcomes ++ [.raised (.crcTimeout v)]) : CrcTimedOut K v (newEvents s t) := by
  cases ht
  obtain ⟨u, hr, he⟩ := hostCall_raised h
  obtain ⟨es, hes, hend⟩ := hx { s with busy := true } u v hs hr
  have hnew : newEvents s (hostCall x value s) = es := by rw [newEvents, he, hes]; exact List.drop_left
  rwa [hnew]

/-- Only the operations that run `calcCrc` end with its timeout. -/
theorem runsCrc_of_crcTimeout {i : Instr} {s t : State} {v : Byte} (hs : s.cfg = Cfg.default) (hi : exec i s = .next t)
    (h : t.outcomes = s.outcomes ++ [.raised (.crcTimeout v)]) : runsCrc i = true := by
  by_contra hcrc
  rw [Bool.not_eq_true] at hcrc
  rcases exec_fifoMeant i with ⟨hx, hmeant⟩ | ⟨hx, hmeant⟩ <;> cases (hmeant s).symm.trans hi
  all_goals rw [hcrc] at hx
  · obtain ⟨u, hr, -⟩ := hostCall_raised h
    exact hx.ne_timeout (s := { s with busy := true }) hs hr
  · obtain ⟨u, hr, -⟩ := innerStep_raised h
    exact hx.ne_timeout hs hr

theorem timesOut_onOpenHandle {x : Op α} (h : TimesOut K x) : TimesOut K (onOpenHandle x) :=
  timesOut_behind fifo_requireOpen fun _ => h

theorem timesOut_whenReady {x : Op α} (h : TimesOut K x) : TimesOut K (whenReady x) :=
  timesOut_onOpenHandle (timesOut_behind fifo_requireReady fun _ => h)

theorem exec_crcTimedOut {i : Instr} {s t : State} {v : Byte} (hs : s.cfg = Cfg.default) (hi : exec i s = .next t)
    (h : t.outcomes = s.outcomes ++ [.raised (.crcTimeout v)]) : CrcTimedOut (SentBeforeCrc i) v (newEvents s t) := by
  have hcrc := runsCrc_of_crcTimeout hs hi h
  cases i with
  | calcCrc buffer => exact hostCall_crcTimedOut (timesOut_onOpenHandle (timesOut_calcCrc buffer)) hs hi h
  | selectCL1 uid => exact hostCall_crcTimedOut (timesOut_whenReady (timesOut_selectCL1 uid)) hs hi h
  | mifareReadBlock blk => exact hostCall_crcTimedOut (timesOut_whenReady (timesOut_mifareReadBlock blk)) hs hi h
  | mifareWriteBlock blk payload =>
    exact hostCall_crcTimedOut (timesOut_whenReady (timesOut_mifareWriteBlock blk payload)) hs hi h
  | detectCard => exact hostCall_crcTimedOut (timesOut_whenReady timesOut_detectCard) hs hi h
  | _ => cases hcrc

end Sys2Proof.Machine

namespace Sys2Proof.FifoCrc

open Machine

/-- Settles O27: behind the open handle each is one exchange. -/
theorem flushAndLevel : Obligations.FlushAndLevel := by
  intro s hs
  exact ⟨congrArg _ (hostCall_exchange (x := flushFifo) _ hs rfl),
    congrArg _ (hostCall_exchange _ hs (fifoLevel_apply _))⟩

/-- Settles O28: the reads go as their dialogue (`plays_readFifoBytes` is the induction on them). -/
theorem readFifoBytes : Obligations.ReadFifoBytes := by
  intro s reads hs hg
  exact congrArg _ (hostCall_plays _ (plays_readFifoBytes s.cfg reads) hs hg (answered_says _ _))

/-- Settles O34: `calcCrc` goes as its dialogue, which has no error of the transport. -/
theorem calcCrc : Obligations.CalcCrc := by
  intro s buffer x hs hl hx hg
  exact congrArg _ (hostCall_plays _ (plays_calcCrc s.cfg buffer x hl hx) hs hg (answered_crcTalk _ _ _))

/-- Settles O50: raw writes aside, a program loads the FIFO only together with the flush before it
(`FifoProgram.load`). -/
theorem loadsFlushed : Obligations.LoadsFlushed := by
  intro i s t hs hraw h
  exact (exec_fifoEvents hs h).loads.resolve_left (by simp [hraw])

/-- Settles O54: the poll of `calcCrc` is the only place that raises `CrcTimeout`, right behind its command write; what
was sent before is counted along the five operations that run it. -/
theorem crcTimeoutSendsNoFrame : Obligations.CrcTimeoutSendsNoFrame := by
  intro i s t v hs hi h
  obtain ⟨hv, hlast, hsent⟩ := exec_crcTimedOut hs hi h
  refine ⟨hv, hlast, ?_, ?_, ?_⟩
  · rintro (⟨buffer, rfl⟩ | ⟨uid, rfl⟩ | ⟨blk, rfl⟩) <;> exact hsent
  · rintro ⟨blk, payload, rfl⟩
    exact hsent
  · rintro rfl
    exact hsent

end Sys2Proof.FifoCrc
end

section
/-! SUPPORT. `Leads`: a triple over the events an operation has added so far, with one rule per primitive of the core
and per loop, and what a call of the host makes of it. An obligation about the events of an operation is one pass over its
program with assertions of its own. -/

namespace Sys2Proof.Machine

variable {α β : Type}

/-! ## Assertions about the events added so far (rules R9, R110) -/

/-- Under the default configuration, with the handle open: from `s` to `t` no outcome was recorded, and the events added
satisfy `A`. -/
structure Since (s : State) (A : List Event → Prop) (t : State) : Prop where
  cfg : t.cfg = Cfg.default
  opened : isOpen t.handle = true
  outcomes : t.outcomes = s.outcomes
  events : ∃ h, t.events = s.events ++ h ∧ A h

/-- The end of a program: the events since `s` satisfy `Q` of its value, or `E` of what stopped it. -/
def EndsIn (s : State) (Q : α → List Event → Prop) (E : Stop → List Event → Prop) :
    EStateM.Result Stop State α → Prop
  | .ok a t => Since s (Q a) t
  | .error e t => Since s (E e) t

/-- From events that satisfy `P`, counted from any state, the program ends in events that satisfy `Q` of its value or `E`
of what stopped it. -/
def Leads (P : List Event → Prop) (x : Op α) (Q : α → List Event → Prop) (E : Stop → List Event → Prop) : Prop :=
  ∀ s t, Since s P t → EndsIn s Q E (x t)

variable {P : List Event → Prop} {Q : α → List Event → Prop} {E : Stop → List Event → Prop}

theorem Since.imp {A B : List Event → Prop} {s t : State} (h : Since s A t) (hab : ∀ h, A h → B h) : Since s B t :=
  have ⟨es, he, ha⟩ := h.events
  { h with events := ⟨es, he, hab es ha⟩ }

/-- One more event. -/
theorem Since.concat {A B : List Event → Prop} {s t u : State} {e : Event} (h : Since s A t) (hc : u.cfg = t.cfg)
    (hh : u.handle = t.handle) (ho : u.outcomes = t.outcomes) (he : u.events = t.events ++ [e])
    (hab : ∀ h, A h → B (h ++ [e])) : Since s B u := by
  obtain ⟨es, hes, ha⟩ := h.events
  exact ⟨hc.trans h.cfg, hh ▸ h.opened, ho.trans h.outcomes, es ++ [e], by rw [he, hes, List.append_assoc], hab es ha⟩

theorem Leads.imp {x : Op α} {Q' : α → List Event → Prop} {E' : Stop → List Event → Prop} (hx : Leads P x Q E)
    (hq : ∀ a h, Q a h → Q' a h) (he : ∀ e h, E e h → E' e h) : Leads P x Q' E' := by
  intro s t hs
  have h := hx s t hs
  cases hr : x t with
  | ok a u => rw [hr] at h; exact Since.imp h (hq a)
  | error e u => rw [hr] at h; exact Since.imp h (he e)

theorem Leads.of {P' : List Event → Prop} {x : Op α} (hx : Leads P x Q E) (hp : ∀ h, P' h → P h) : Leads P' x Q E :=
  fun s t hs => hx s t (hs.imp hp)

theorem Leads.imp_stop {x : Op α} {E' : Stop → List Event → Prop} (hx : Leads P x Q E) (he : ∀ e h, E e h → E' e h) :
    Leads P x Q E' := hx.imp (fun _ _ hq => hq) he

theorem leads_exists {ι : Type} {P : ι → List Event → Prop} {x : Op α} (hx : ∀ i, Leads (P i) x Q E) :
    Leads (fun h => ∃ i, P i h) x Q E := by
  intro s t hs
  obtain ⟨h, he, i, hp⟩ := hs.events
  exact hx i s t { hs with events := ⟨h, he, hp⟩ }

theorem leads_pure {a : α} (h : ∀ h, P h → Q a h) : Leads P (pure a) Q E := fun _ _ hs => hs.imp h

theorem leads_raise {e : Error} (h : ∀ h, P h → E (.raise e) h) : Leads P (raise e : Op α) Q E := fun _ _ hs => hs.imp h

theorem leads_refuse {r : RefusalReason} (h : ∀ h, P h → E (.refuse r) h) : Leads P (refuse r : Op α) Q E :=
  fun _ _ hs => hs.imp h

theorem leads_getCfg {f : Cfg → Op α} (h : Leads P (f Cfg.default) Q E) : Leads P (getCfg >>= f) Q E := by
  intro s t hs
  rw [op_bind, getCfg_apply, hs.cfg]
  exact h s t hs

theorem leads_bind {x : Op α} {f : α → Op β} {R : β → List Event → Prop} (hx : Leads P x Q E)
    (hf : ∀ a, Leads (Q a) (f a) R E) : Leads P (x >>= f) R E := by
  intro s t hs
  have h := hx s t hs
  rw [op_bind]
  cases hr : x t with
  | ok a u => rw [hr] at h; exact hf a s u h
  | error e u => rw [hr] at h; exact h

theorem leads_require {b : Bool} {r : RefusalReason} {f : Unit → Op α}
    (hr : b = false → ∀ h, P h → E (.refuse r) h) (hf : b = true → Leads P (f ()) Q E) :
    Leads P (require b r >>= f) Q E := by
  cases b with
  | true => exact hf rfl
  | false => exact fun _ _ hs => hs.imp (hr rfl)

theorem leads_record {e : Event} {Q : Unit → List Event → Prop} (h : ∀ h, P h → Q () (h ++ [e])) :
    Leads P (record e) Q E := fun _ _ hs => hs.concat rfl rfl rfl rfl h

theorem leads_drawExpiry {Q : Nat → List Event → Prop} (h : ∀ k h, P h → Q k h) : Leads P drawExpiry Q E := by
  intro s t hs
  rw [drawExpiry_apply]
  exact { hs.imp (h _) with }

theorem leads_requireReady {f : Unit → Op α} (hr : ∀ h, P h → E (.refuse .notInitialised) h)
    (hf : Leads P (f ()) Q E) : Leads P (requireReady >>= f) Q E := by
  intro s t hs
  rw [op_bind]
  by_cases hp : t.phase = .ready
  · rw [requireReady_ready hp]; exact hf s t hs
  · rw [requireReady_other hp]; exact hs.imp hr

/-! ### The register interface -/

/-- An exchange adds its event, with a reply of its length or with the failure that stops the program. -/
theorem leads_exchange {tx : List Byte} {Q : List Byte → List Event → Prop}
    (hq : ∀ h rx, P h → rx.length = tx.length → Q rx (h ++ [.exchange tx (.reply rx)]))
    (he : ∀ h x r, P h → exchangeEnd tx x = .error r → E (.raise (.transportError r)) (h ++ [.exchange tx x])) :
    Leads P (exchange tx) Q E := by
  intro s t hs
  rw [exchange_open tx hs.opened]
  cases hx : nextAnswer t tx with
  | fail code => exact hs.concat rfl rfl rfl (by rw [asked, hx]) fun h hp => he h _ _ hp rfl
  | reply rx =>
    by_cases hl : rx.length = tx.length
    · simp only [exchangeEnd, hl, if_true]
      exact hs.concat rfl rfl rfl (by rw [asked, hx]) fun h hp => hq h rx hp hl
    · simp only [exchangeEnd, hl, if_false]
      exact hs.concat rfl rfl rfl (by rw [asked, hx]) fun h hp => he h _ _ hp (by simp [exchangeEnd, hl])

theorem leads_readRegister {a : RegAddr} {Q : Byte → List Event → Prop}
    (hq : ∀ h e v, P h → Q v (h ++ [gave a e v]))
    (he : ∀ h x r, P h → exchangeEnd (txRead a) x = .error r →
      E (.raise (.transportError r)) (h ++ [.exchange (txRead a) x])) :
    Leads P (readRegister a) Q E := by
  refine leads_bind (Q := fun rx h => Q (rx.getD 1 0) h) (leads_exchange (fun h rx hp hl => ?_) he)
    fun _ => leads_pure fun _ hq => hq
  obtain ⟨e, v, rfl⟩ := List.length_eq_two.1 hl
  exact hq h e v hp

theorem leads_writeRegister {a : RegAddr} {v : Byte} {Q : Unit → List Event → Prop}
    (hq : ∀ h x, P h → writtenValue a (.exchange (txWrite a v) x) = some v → Q () (h ++ [.exchange (txWrite a v) x]))
    (he : ∀ h x r, P h → exchangeEnd (txWrite a v) x = .error r →
      E (.raise (.transportError r)) (h ++ [.exchange (txWrite a v) x])) :
    Leads P (writeRegister a v) Q E :=
  leads_bind (Q := fun _ => Q ()) (leads_exchange (fun h _ hp hl => hq h _ hp (if_pos ⟨rfl, hl⟩)) he)
    fun _ => leads_pure fun _ hq => hq

theorem leads_writeRegisterBurst {a : RegAddr} {bs : List Byte} {Q : Unit → List Event → Prop}
    (hq : ∀ h x, P h → Q () (h ++ [.exchange (txBurst a bs) x]))
    (he : ∀ h x r, P h → exchangeEnd (txBurst a bs) x = .error r →
      E (.raise (.transportError r)) (h ++ [.exchange (txBurst a bs) x])) :
    Leads P (writeRegisterBurst a bs) Q E :=
  leads_bind (Q := fun _ => Q ()) (leads_exchange (fun h _ hp _ => hq h _ hp) he) fun _ => leads_pure fun _ hq => hq

/-- A poll goes round between `P`, before a read, and `R`, behind a read of its argument (rule R116). -/
theorem leads_pollLoop {a : RegAddr} {stop : Byte} {R : Byte → List Event → Prop} (hread : Leads P (readRegister a) R E)
    (hexp : ∀ v b h, R v h → R v (h ++ [.expired b])) (hback : ∀ v h, R v h → P h) (k : Nat) :
    Leads P (pollLoop a stop k) (fun p => R p.1) E := by
  induction k with
  | zero =>
    refine leads_bind hread fun v => ?_
    split
    · exact leads_pure fun _ h => h
    · exact leads_bind (leads_record (Q := fun _ => R v) (hexp v _)) fun _ => leads_pure fun _ h => h
  | succ k ih =>
    refine leads_bind hread fun v => ?_
    split
    · exact leads_pure fun _ h => h
    · exact leads_bind (leads_record (Q := fun _ => R v) (hexp v _)) fun _ => ih.of (hback v)

theorem leads_pollUntil {a : RegAddr} {stop : Byte} {ms : Nat} {P' : List Event → Prop} {R : Byte → List Event → Prop}
    (hstart : ∀ h, P' h → P (h ++ [.deadlineStart ms])) (hread : Leads P (readRegister a) R E)
    (hexp : ∀ v b h, R v h → R v (h ++ [.expired b])) (hback : ∀ v h, R v h → P h) :
    Leads P' (pollUntil a stop ms) (fun p => R p.1) E :=
  leads_bind (leads_record (Q := fun _ => P) hstart) fun _ =>
    leads_bind (leads_drawExpiry (Q := fun _ => P) fun _ _ h => h) fun k => leads_pollLoop hread hexp hback k

/-- The drain adds one read a byte; `R` speaks of the bytes drained so far (rules R132, R133). -/
theorem leads_readFifoBytes {R : List Byte → List Event → Prop}
    (hread : ∀ bs, Leads (R bs) (readRegister 0x09) (fun v => R (bs ++ [v])) E) (n : Nat) (bs : List Byte) :
    Leads (R bs) (readFifoBytes n) (fun data => R (bs ++ data)) E := by
  induction n generalizing bs with
  | zero => exact leads_pure fun h hp => by rwa [List.append_nil]
  | succ n ih =>
    refine leads_getCfg (leads_bind (hread bs) fun v => leads_bind (ih (bs ++ [v])) fun data => ?_)
    refine leads_pure fun h hp => ?_
    rwa [List.append_assoc] at hp

/-! ### Calls of the host -/

/-- The ends of a call whose program leads to `Q` or `E`; the last is a call that finds the core busy or the handle
closed. -/
inductive CallEnds (value : α → Value) (Q : α → List Event → Prop) (E : Stop → List Event → Prop) (s t : State) : Prop
  | returned (a : α) (ho : t.outcomes = s.outcomes ++ [.returned (value a)]) (h : Q a (newEvents s t))
  | raised (e : Error) (ho : t.outcomes = s.outcomes ++ [.raised e]) (h : E (.raise e) (newEvents s t))
  | refused (r : RefusalReason) (ho : t.outcomes = s.outcomes ++ [.refused r]) (h : E (.refuse r) (newEvents s t))
  | notBegun (r : RefusalReason) (ho : t.outcomes = s.outcomes ++ [.refused r]) (hc : ¬ CanCall s)
      (h : newEvents s t = [])

/-- The outcome of a call that was stopped (rules R250, R251, R255). -/
def stopOutcome : Stop → CallOutcome
  | .raise e => .raised e
  | .refuse r => .refused r

theorem CallEnds.returned_or_stopped {value : α → Value} {s t : State} (h : CallEnds value Q E s t)
    (hE : ∀ r, E (.refuse r) []) :
    (∃ a, t.outcomes = s.outcomes ++ [.returned (value a)] ∧ Q a (newEvents s t)) ∨
    ∃ e, t.outcomes = s.outcomes ++ [stopOutcome e] ∧ E e (newEvents s t) := by
  cases h with
  | returned a ho h => exact .inl ⟨a, ho, h⟩
  | raised e ho h => exact .inr ⟨.raise e, ho, h⟩
  | refused r ho h => exact .inr ⟨.refuse r, ho, h⟩
  | notBegun r ho _ h => exact .inr ⟨.refuse r, ho, h ▸ hE r⟩

theorem callEnds_refusedWith {value : α → Value} (r : RefusalReason) {s : State} (hc : ¬ CanCall s) :
    CallEnds value Q E s (refusedWith r s) :=
  .notBegun r rfl hc (by rw [newEvents]; exact List.drop_length)

theorem Since.report {A : List Event → Prop} {s t : State} {o : CallOutcome} (h : Since s A t) :
    (report o t).outcomes = s.outcomes ++ [o] ∧ A (newEvents s (report o t)) := by
  obtain ⟨es, he, ha⟩ := h.events
  have hnew : newEvents s (Machine.report o t) = es := by
    rw [newEvents, report_events, he]; exact List.drop_left
  exact ⟨by rw [report_outcomes, h.outcomes], hnew ▸ ha⟩

theorem hostCall_ends {x : Op α} (hx : Leads P x Q E) (hp : P []) (value : α → Value) {s : State}
    (hs : s.cfg = Cfg.default) : CallEnds value Q E s (hostCall (onOpenHandle x) value s) := by
  cases hb : s.busy with
  | true =>
    rw [hostCall_busy _ _ hb]
    exact callEnds_refusedWith _ fun hc => by simp [hc.2] at hb
  | false =>
    cases ho : isOpen s.handle with
    | false =>
      rw [hostCall_closed _ _ hb (isOpen_false.1 ho)]
      exact callEnds_refusedWith _ fun hc => by simp [hc.1] at ho
    | true =>
      have h : EndsIn s Q E (onOpenHandle x { s with busy := true }) := by
        rw [onOpenHandle_open x (s := { s with busy := true }) ho]
        exact hx s _ ⟨hs, ho, rfl, [], (List.append_nil _).symm, hp⟩
      rcases hostCall_cases (onOpenHandle x) value s with
        ⟨hb', -⟩ | ⟨-, a, t, hr, he⟩ | ⟨-, e, t, hr, he⟩ | ⟨-, r, t, hr, he⟩
      · simp [hb] at hb'
      all_goals
        rw [hr] at h
        rw [he]
      · have hend := Since.report (t := leaveOperation t) (o := .returned (value a)) { h with }
        exact .returned a hend.1 hend.2
      · have hend := Since.report (t := enterError e t) (o := .raised e) { h with }
        exact .raised e hend.1 hend.2
      · have hend := Since.report (t := leaveOperation (markRefused t)) (o := .refused r) { h with }
        exact .refused r hend.1 hend.2

end Sys2Proof.Machine
end

section
/-! SUPPORT. One pass over `transceive`: which command and which start bit each of its ends leaves last written, and
that only a receive interrupt leads to the completion (obligations O56, O57). -/

namespace Sys2Proof.Machine

variable {α : Type}

/-! ## What `transceive` leaves (rules R154, R156) -/

/-- The start bit in the value last written to `BitFramingReg` (rule R156). -/
def startWritten (es : List Event) : Option Byte := (lastWritten 0x0D es).map (fun v => v &&& 0x80)

/-- The command last written before event `n` of a `transceive` (rules R151, R156). -/
def commandBefore (n : Nat) : Option Byte := if n = 0 then none else if n ≤ 5 then some 0x00 else some 0x0C

/-- The start bit last written before event `n` of a `transceive`, where an exchange with address byte `b` fails
(rules R151, R153, R156). -/
def startBefore (n : Nat) (b : Byte) : Option Byte :=
  if n ≤ 4 then none else if n ≤ 7 then some 0x00
  else if b = 0x88 ∨ b = 0x9A ∨ b = 0x1A then some 0x80 else some 0x00

/-- The command and the start bit last written. -/
structure Wrote (command start : Option Byte) (es : List Event) : Prop where
  command : lastWritten 0x01 es = command
  start : startWritten es = start

/-- A read of `ComIrqReg` gave `RxIRq`. -/
def Received (es : List Event) : Prop := ∃ e v, gave 0x04 e v ∈ es ∧ v &&& 0x20 ≠ 0

/-- The read of `ComIrqReg` that was last gave `v`. -/
def PolledLast (v : Byte) (es : List Event) : Prop := (readValues 0x04 es).getLast? = some v ∧ ∃ e, gave 0x04 e v ∈ es

/-- What a `transceive` that returns leaves: a result with data only behind a receive interrupt (rule R154). -/
structure TransceiveReturned (r : TransceiveResult) (es : List Event) : Prop where
  wrote : Wrote (some 0x0C) (some (if r.note = .noNote then 0x00 else 0x80)) es
  silent : Received es ∨ PolledLast r.irqReg es ∧
    r = emptyResult r.irqReg (if r.irqReg &&& 0x01 ≠ 0 then .timerIRq else .timeout)

/-- What a `transceive` that stops leaves: `TransceiveError` comes behind a receive interrupt, a transport error at the
exchange that failed, a refusal for its operands (rules R150, R153, R156). -/
def TransceiveStopped (frame : List Byte) (vb : Byte) : Stop → List Event → Prop
  | .raise (.transceiveError _ _), es => Wrote (some 0x0C) (some 0x00) es ∧ Received es
  | .raise (.transportError r), es => ∃ (done : List Event) (b : Byte) (rest : List Byte) (x : ExchangeAnswer),
      es = done ++ [.exchange (b :: rest) x] ∧ exchangeEnd (b :: rest) x = .error r ∧
      Wrote (commandBefore done.length) (startBefore done.length b) es
  | .raise _, _ => False
  | .refuse _, _ => ¬ (vb.toNat ≤ 7 ∧ 1 ≤ frame.length ∧ frame.length ≤ 64)

variable {frame : List Byte} {vb : Byte} {command start : Option Byte}

/-! ### One more event -/

theorem Wrote.concat {es : List Event} (h : Wrote command start es) (e : Event) :
    Wrote ((writtenValue 0x01 e).or command) (((writtenValue 0x0D e).map (· &&& 0x80)).or start) (es ++ [e]) := by
  refine ⟨by rw [lastWritten_concat, h.command], ?_⟩
  rw [startWritten, lastWritten_concat, ← h.start, startWritten]
  cases writtenValue 0x0D e <;> rfl

theorem Wrote.concat_other {es : List Event} {e : Event} (h : Wrote command start es) (h1 : writtenValue 0x01 e = none)
    (hD : writtenValue 0x0D e = none) : Wrote command start (es ++ [e]) := by
  have hw := h.concat e
  rw [h1, hD] at hw
  exact hw

theorem Wrote.gave {es : List Event} (h : Wrote command start es) (a : RegAddr) (e v : Byte) :
    Wrote command start (es ++ [gave a e v]) :=
  h.concat_other (writtenValue_txRead a _ _) (writtenValue_txRead a _ _)

/-- What an event has written, an answered single write did. -/
theorem eq_of_writtenValue {a : RegAddr} {e : Event} {v : Byte} (h : writtenValue a e = some v) :
    ∃ rx, e = .exchange [encW a, v] (.reply rx) ∧ rx.length = 2 := by
  unfold writtenValue at h
  split at h
  · obtain ⟨⟨rfl, hl⟩, rfl⟩ : _ ∧ _ := by simpa using h
    exact ⟨_, rfl, hl⟩
  · cases h

theorem writtenValue_failed {a : RegAddr} {tx : List Byte} {x : ExchangeAnswer} {r : TransportReason}
    (h : exchangeEnd tx x = .error r) : writtenValue a (.exchange tx x) = none := by
  refine Option.eq_none_iff_forall_ne_some.2 fun v hv => ?_
  obtain ⟨rx, he, hl⟩ := eq_of_writtenValue hv
  cases he
  simp [exchangeEnd, hl] at h

theorem Received.append {es : List Event} (h : Received es) (fs : List Event) : Received (es ++ fs) :=
  have ⟨e, v, hm, hv⟩ := h
  ⟨e, v, List.mem_append_left _ hm, hv⟩

theorem readValue_gave (a : RegAddr) (e v : Byte) : readValue a (gave a e v) = some v := if_pos rfl

theorem polledLast_gave (es : List Event) (e v : Byte) : PolledLast v (es ++ [gave 0x04 e v]) := by
  refine ⟨?_, e, by simp⟩
  simp [readValues, readValue_gave]

theorem PolledLast.expired {es : List Event} {v : Byte} (h : PolledLast v es) (b : Bool) :
    PolledLast v (es ++ [.expired b]) := by
  obtain ⟨hl, e, hm⟩ := h
  exact ⟨by simpa [readValues, readValue] using hl, e, List.mem_append_left _ hm⟩

/-- The exchange that fails has written nothing, and is the last. -/
theorem stopped_of_failed {es : List Event} {b : Byte} {rest : List Byte} {x : ExchangeAnswer} {r : TransportReason}
    (he : exchangeEnd (b :: rest) x = .error r) (h : Wrote (commandBefore es.length) (startBefore es.length b) es) :
    TransceiveStopped frame vb (.raise (.transportError r)) (es ++ [.exchange (b :: rest) x]) :=
  ⟨es, b, rest, x, rfl, he, h.concat_other (writtenValue_failed he) (writtenValue_failed he)⟩

/-! ### The preamble (rule R151) -/

/-- Before event `n` of the preamble, `n ≤ 8`. The address byte 0x88, that of the poll, matters for `n = 8` alone. -/
structure Prepared (n : Nat) (es : List Event) : Prop where
  length : es.length = n
  wrote : Wrote (commandBefore n) (startBefore n 0x88) es

theorem prepared_nil : Prepared 0 [] := ⟨rfl, rfl, rfl⟩

theorem startBefore_congr {n : Nat} (hn : n ≤ 7) (b b' : Byte) : startBefore n b = startBefore n b' := by
  simp [startBefore, hn]

theorem Prepared.stopped {n : Nat} {es : List Event} {b : Byte} {rest : List Byte} {x : ExchangeAnswer}
    {r : TransportReason} (h : Prepared n es) (hn : n ≤ 7) (he : exchangeEnd (b :: rest) x = .error r) :
    TransceiveStopped frame vb (.raise (.transportError r)) (es ++ [.exchange (b :: rest) x]) := by
  obtain ⟨rfl, hw⟩ := h
  exact stopped_of_failed he (startBefore_congr hn 0x88 b ▸ hw)

theorem Prepared.concat {n : Nat} {es : List Event} {e : Event} (h : Prepared n es)
    (hc : (writtenValue 0x01 e).or (commandBefore n) = commandBefore (n + 1))
    (hs : ((writtenValue 0x0D e).map (· &&& 0x80)).or (startBefore n 0x88) = startBefore (n + 1) 0x88) :
    Prepared (n + 1) (es ++ [e]) := by
  refine ⟨by simp [h.length], ?_⟩
  rw [← hc, ← hs]
  exact h.wrote.concat e

theorem writtenValue_other {a b : RegAddr} (hab : a ≠ b) (v : Byte) (x : ExchangeAnswer) :
    writtenValue b (.exchange (txWrite a v) x) = none :=
  Option.eq_none_iff_forall_ne_some.2 fun _ h => hab (eq_of_writtenValue_txWrite h).1

theorem leads_preparing {n : Nat} {a : RegAddr} {v : Byte} (hn : n ≤ 7)
    (hc : (if a = 0x01 then some v else commandBefore n) = commandBefore (n + 1))
    (hs : (if a = 0x0D then some (v &&& 0x80) else startBefore n 0x88) = startBefore (n + 1) 0x88) :
    Leads (Prepared n) (writeRegister a v) (fun _ => Prepared (n + 1)) (TransceiveStopped frame vb) := by
  refine leads_writeRegister (fun es x h hw => h.concat ?_ ?_) fun es x r h he => h.stopped hn he
  · rw [← hc]
    by_cases ha : a = 0x01
    · subst ha; rw [if_pos rfl, hw]; rfl
    · rw [if_neg ha, writtenValue_other ha]; rfl
  · rw [← hs]
    by_cases ha : a = 0x0D
    · subst ha; rw [if_pos rfl, hw]; rfl
    · rw [if_neg ha, writtenValue_other ha]; rfl

theorem startBit_of_validBits {v : Byte} (h : v.toNat ≤ 7) : v &&& 0x80 = 0x00 := by
  have hall : ∀ w : Byte, w.toNat ≤ 7 → w &&& 0x80 = 0x00 := by decide
  exact hall v h

theorem withBits_and_self (v m : Byte) : withBits v m &&& m = m := by
  simpa [allSet] using allSet_withBits v m

theorem withoutBits_and_self (v m : Byte) : withoutBits v m &&& m = 0 := anySet_false.1 (anySet_withoutBits v m)

theorem leads_preamble (hv : vb.toNat ≤ 7) : Leads (Prepared 0) (transceivePreamble frame vb) (fun _ => Prepared 8)
    (TransceiveStopped frame vb) := by
  refine leads_getCfg (leads_bind (leads_preparing (n := 0) (by decide) rfl rfl) fun _ => ?_)
  refine leads_bind (leads_preparing (n := 1) (by decide) rfl rfl) fun _ => ?_
  refine leads_bind (leads_getCfg (leads_preparing (n := 2) (by decide) rfl rfl)) fun _ => ?_
  refine leads_bind (Q := fun _ => Prepared 4) (leads_writeRegisterBurst (fun es x h => ?_) fun es x r h he =>
    h.stopped (n := 3) (by decide) he) fun _ => ?_
  · exact h.concat (by rw [writtenValue_txBurst (by decide)]; rfl) (by rw [writtenValue_txBurst (by decide)]; rfl)
  refine leads_bind (leads_preparing (n := 4) (by decide) rfl ?_) fun _ => ?_
  · rw [startBit_of_validBits hv]; rfl
  refine leads_bind (leads_preparing (n := 5) (by decide) rfl rfl) fun _ => ?_
  refine leads_bind (Q := fun _ => Prepared 7) (leads_readRegister (fun es e v h => ?_) fun es x r h he =>
    h.stopped (n := 6) (by decide) he) fun v => leads_preparing (n := 7) (by decide) rfl ?_
  · exact ⟨by simp [h.length], h.wrote.gave 0x0D e v⟩
  · exact congrArg some (withBits_and_self v 0x80)

/-! ### The poll (rule R152) -/

/-- Behind the preamble, with this start bit last written. -/
structure Sent (start : Byte) (es : List Event) : Prop where
  length : 8 ≤ es.length
  wrote : Wrote (some 0x0C) (some start) es

theorem Prepared.sent {es : List Event} (h : Prepared 8 es) : Sent 0x80 es := ⟨h.length.ge, h.wrote⟩

theorem Sent.concat_other {st : Byte} {es : List Event} {e : Event} (h : Sent st es) (h1 : writtenValue 0x01 e = none)
    (hD : writtenValue 0x0D e = none) : Sent st (es ++ [e]) :=
  ⟨by rw [List.length_append]; exact Nat.le_add_right_of_le h.length, h.wrote.concat_other h1 hD⟩

theorem Sent.gave {st : Byte} {es : List Event} (h : Sent st es) (a : RegAddr) (e v : Byte) :
    Sent st (es ++ [gave a e v]) := h.concat_other (writtenValue_txRead a _ _) (writtenValue_txRead a _ _)

/-- The address bytes of the accesses that find the start bit set. -/
abbrev FindsStart (b : Byte) : Prop := b = 0x88 ∨ b = 0x9A ∨ b = 0x1A

theorem Sent.stopped {st : Byte} {es : List Event} {b : Byte} {rest : List Byte} {x : ExchangeAnswer}
    {r : TransportReason} (h : Sent st es) (hb : (if FindsStart b then 0x80 else 0x00) = st)
    (he : exchangeEnd (b :: rest) x = .error r) :
    TransceiveStopped frame vb (.raise (.transportError r)) (es ++ [.exchange (b :: rest) x]) := by
  obtain ⟨hl, hw⟩ := h
  refine stopped_of_failed he ?_
  have hc : commandBefore es.length = some 0x0C := by
    rw [commandBefore, if_neg (by omega), if_neg (by omega)]
  have hs : startBefore es.length b = some st := by
    rw [startBefore, if_neg (by omega), if_neg (by omega), ← hb, apply_ite some]
  rwa [hc, hs]

theorem leads_transceivePoll (stop : Byte) (ms : Nat) : Leads (Sent 0x80) (pollUntil 0x04 stop ms)
    (fun p es => Sent 0x80 es ∧ PolledLast p.1 es) (TransceiveStopped frame vb) := by
  refine leads_pollUntil (R := fun v es => Sent 0x80 es ∧ PolledLast v es) (fun es h => h.concat_other rfl rfl)
    (leads_readRegister (fun es e v h => ?_) fun es x r h he => ?_) (fun v b es h => ?_) fun v es h => h.1
  · exact ⟨h.gave 0x04 e v, polledLast_gave es e v⟩
  · exact h.stopped (by decide) he
  · exact ⟨h.1.concat_other rfl rfl, h.2.expired b⟩

/-! ### The completion (rule R153) -/

/-- Behind a receive interrupt. -/
def SentReceived (start : Byte) (es : List Event) : Prop := Sent start es ∧ Received es

theorem leads_receivedRead {st : Byte} {a : RegAddr} (hb : (if FindsStart (encR a) then 0x80 else 0x00) = st) :
    Leads (SentReceived st) (readRegister a) (fun _ => SentReceived st) (TransceiveStopped frame vb) :=
  leads_readRegister (fun _ e v h => ⟨h.1.gave a e v, h.2.append _⟩) fun _ _ _ h he => h.1.stopped hb he

theorem leads_clearStart : Leads (SentReceived 0x80) (clearBits 0x0D 0x80) (fun _ => SentReceived 0x00)
    (TransceiveStopped frame vb) := by
  refine leads_bind (leads_receivedRead (by decide)) fun v => leads_writeRegister (fun es x h hw => ?_)
    fun es x r h he => h.1.stopped (by decide) he
  refine ⟨⟨by rw [List.length_append]; exact Nat.le_add_right_of_le h.1.length, ?_⟩, h.2.append _⟩
  have hwrote := h.1.wrote.concat (.exchange (txWrite 0x0D (withoutBits v 0x80)) x)
  rw [writtenValue_other (by decide), hw, Option.map_some, withoutBits_and_self] at hwrote
  exact hwrote

theorem leads_completion (irq : Byte) : Leads (SentReceived 0x80) (transceiveCompletion irq) TransceiveReturned
    (TransceiveStopped frame vb) := by
  refine leads_getCfg (leads_bind leads_clearStart fun _ => leads_bind (leads_receivedRead (by decide)) fun err => ?_)
  split
  · exact leads_raise fun es h => ⟨h.1.wrote, h.2⟩
  refine leads_bind (Q := fun _ => SentReceived 0x00) ?_ fun n => ?_
  · exact leads_getCfg (leads_bind (leads_receivedRead (by decide)) fun _ => leads_pure fun _ h => h)
  refine leads_bind (leads_readFifoBytes (R := fun _ => SentReceived 0x00)
    (fun _ => leads_receivedRead (by decide)) n []) fun data => ?_
  exact leads_bind (leads_receivedRead (by decide)) fun rl => leads_pure fun es h => ⟨h.1.wrote, .inl h.2⟩

/-! ### The whole operation -/

theorem transceiveExit_default (irq : Byte) : transceiveExit Cfg.default irq =
    if irq &&& 0x20 ≠ 0 then .completion else if irq &&& 0x01 ≠ 0 then .timer else .timeout := by
  rw [transceiveExit_eq]
  exact if_congr (and_iff_left (.inl rfl)) rfl rfl

theorem leads_transceive (frame : List Byte) (vb : Byte) (ms : Nat) :
    Leads (· = []) (transceive frame vb ms) TransceiveReturned (TransceiveStopped frame vb) := by
  refine leads_require (fun hv es _ h => absurd h.1 (of_decide_eq_false hv)) fun hv => ?_
  refine leads_require (fun hl es _ h => absurd h.2 (of_decide_eq_false hl)) fun _ => leads_getCfg ?_
  refine leads_bind ((leads_preamble (of_decide_eq_true hv)).of fun _ h => h ▸ prepared_nil) fun _ => ?_
  refine leads_bind ((leads_transceivePoll _ ms).of fun _ => Prepared.sent) fun p => ?_
  obtain ⟨irq, why⟩ := p
  dsimp only
  rw [transceiveExit_default]
  by_cases hrx : irq &&& 0x20 = 0
  · rw [if_neg (not_not.2 hrx)]
    by_cases ht : irq &&& 0x01 = 0
    · rw [if_neg (not_not.2 ht)]
      exact leads_pure fun es ⟨hsent, hlast⟩ =>
        ⟨hsent.wrote, .inr ⟨hlast, congrArg (emptyResult irq) (if_neg (not_not.2 ht)).symm⟩⟩
    · rw [if_pos ht]
      exact leads_pure fun es ⟨hsent, hlast⟩ =>
        ⟨hsent.wrote, .inr ⟨hlast, congrArg (emptyResult irq) (if_pos ht).symm⟩⟩
  · rw [if_pos hrx]
    exact (leads_completion irq).of fun es ⟨hsent, _, e, hm⟩ => ⟨hsent, e, irq, hm, hrx⟩

theorem exec_transceive_ends {s t : State} {frame : List Byte} {vb : Byte} {ms : Nat} (hs : s.cfg = Cfg.default)
    (h : exec (.transceive frame vb ms) s = .next t) :
    CallEnds .transceived TransceiveReturned (TransceiveStopped frame vb) s t := by
  cases h
  exact hostCall_ends (leads_transceive frame vb ms) rfl .transceived hs

end Sys2Proof.Machine
end

section
/-! SUPPORT. One pass over `mifareWriteBlock`: its loads of the FIFO, and the ACK read behind the frame of each phase
(obligation O53). -/

namespace Sys2Proof.Machine

variable {α : Type}

/-! ## The loads of a block write (rules R153, R193, R194, R196) -/

/-- Behind the load that comes after `n` others an ACK was read. -/
def AckBehind (n : Nat) (es : List Event) : Prop :=
  ∃ (first : List Event) (load : Event) (answer : List Event), es = first ++ load :: answer ∧
    (loadsOf Cfg.default first).length = n ∧ loadOf Cfg.default load ≠ none ∧ AckRead Cfg.default answer

/-- Before a third load an ACK was read behind the second. -/
def ThirdBehindAck (es : List Event) : Prop :=
  ∀ (before : List Event) (third : Event) (later : List Event), es = before ++ third :: later →
    loadOf Cfg.default third ≠ none → (loadsOf Cfg.default before).length = 2 → AckBehind 1 before

/-- The loads are a beginning of `all`. -/
structure PartWay (all : List (List Byte)) (es : List Event) : Prop where
  loads : loadsOf Cfg.default es <+: all
  third : ThirdBehindAck es

/-- The loads are `l`, and the next one may come. -/
structure Ready (l : List (List Byte)) (es : List Event) : Prop where
  loads : loadsOf Cfg.default es = l
  third : ThirdBehindAck es
  acked : l.length = 2 → AckBehind 1 es

/-- The loads are `l` and then `frame`; behind it `data` was drained from the FIFO and the control register gave
`ctl`. -/
structure Answered (l : List (List Byte)) (frame data ctl : List Byte) (es : List Event) : Prop where
  third : ThirdBehindAck es
  split : ∃ (first : List Event) (load : Event) (answer : List Event), es = first ++ load :: answer ∧
    loadsOf Cfg.default first = l ∧ loadOf Cfg.default load = some frame ∧ loadsOf Cfg.default answer = [] ∧
    readValues 0x09 answer = data ∧ readValues 0x0C answer = ctl

/-- Stopped on the way, not for a missing ACK. -/
def Broken (all : List (List Byte)) (e : Stop) (es : List Event) : Prop :=
  (∀ n data vb, e ≠ .raise (.writeNotAcked n data vb)) ∧ PartWay all es

/-- An event that loads nothing and drains nothing. -/
structure Quiet (e : Event) : Prop where
  load : loadOf Cfg.default e = none
  drained : readValue 0x09 e = none
  control : readValue 0x0C e = none

variable {l all : List (List Byte)} {frame body data ctl : List Byte}

/-! ### What an event loads and drains -/

theorem encR_injective : Function.Injective encR := fun a b h => by rw [← addrReg_encR a, h, addrReg_encR]

theorem loadOf_txRead (a : RegAddr) (x : ExchangeAnswer) : loadOf Cfg.default (.exchange (txRead a) x) = none :=
  if_neg (encR_ne_encW _ _)

theorem loadOf_txWrite {a : RegAddr} (h : a ≠ 0x09) (v : Byte) (x : ExchangeAnswer) :
    loadOf Cfg.default (.exchange (txWrite a v) x) = none := if_neg fun he => h (encW_injective he)

theorem loadOf_txBurst (bs : List Byte) (x : ExchangeAnswer) :
    loadOf Cfg.default (.exchange (txBurst 0x09 bs) x) = some bs := by
  simp [loadOf, txBurst, Cfg.default]

/-- What a read gives, it was answered with: an exchange of two bytes to the register's read address. -/
theorem eq_of_readValue {a : RegAddr} {e : Event} {v : Byte} (h : readValue a e = some v) :
    ∃ pad echo, e = .exchange [encR a, pad] (.reply [echo, v]) := by
  unfold readValue at h
  split at h
  · obtain ⟨rfl, rfl⟩ : _ ∧ _ := by simpa using h
    exact ⟨_, _, rfl⟩
  · cases h

theorem readValue_txRead {a b : RegAddr} (h : a ≠ b) (x : ExchangeAnswer) :
    readValue b (.exchange (txRead a) x) = none := by
  refine Option.eq_none_iff_forall_ne_some.2 fun v hv => ?_
  obtain ⟨pad, echo, he⟩ := eq_of_readValue hv
  simp only [txRead, Event.exchange.injEq, List.cons.injEq] at he
  exact h (encR_injective he.1.1)

theorem readValue_txWrite (a b : RegAddr) (v : Byte) (x : ExchangeAnswer) :
    readValue b (.exchange (txWrite a v) x) = none := by
  refine Option.eq_none_iff_forall_ne_some.2 fun w hw => ?_
  obtain ⟨pad, echo, he⟩ := eq_of_readValue hw
  simp only [txWrite, Event.exchange.injEq, List.cons.injEq] at he
  exact encR_ne_encW b a he.1.1.symm

theorem readValue_failed {a : RegAddr} {tx : List Byte} {x : ExchangeAnswer} {r : TransportReason}
    (h : exchangeEnd tx x = .error r) : readValue a (.exchange tx x) = none := by
  refine Option.eq_none_iff_forall_ne_some.2 fun v hv => ?_
  obtain ⟨pad, echo, he⟩ := eq_of_readValue hv
  cases he
  cases h

theorem quiet_read {a : RegAddr} (h9 : a ≠ 0x09) (hC : a ≠ 0x0C) (x : ExchangeAnswer) :
    Quiet (.exchange (txRead a) x) := ⟨loadOf_txRead a x, readValue_txRead h9 x, readValue_txRead hC x⟩

theorem quiet_write {a : RegAddr} (h9 : a ≠ 0x09) (v : Byte) (x : ExchangeAnswer) : Quiet (.exchange (txWrite a v) x) :=
  ⟨loadOf_txWrite h9 v x, readValue_txWrite a _ v x, readValue_txWrite a _ v x⟩

theorem quiet_failedRead {a : RegAddr} {x : ExchangeAnswer} {r : TransportReason}
    (h : exchangeEnd (txRead a) x = .error r) : Quiet (.exchange (txRead a) x) :=
  ⟨loadOf_txRead a x, readValue_failed h, readValue_failed h⟩

/-! ### One more event -/

theorem loadsOf_append (es fs : List Event) :
    loadsOf Cfg.default (es ++ fs) = loadsOf Cfg.default es ++ loadsOf Cfg.default fs := List.filterMap_append

theorem loadsOf_cons_load {e : Event} (h : loadOf Cfg.default e = some frame) (es : List Event) :
    loadsOf Cfg.default (e :: es) = frame :: loadsOf Cfg.default es := List.filterMap_cons_some h

theorem loadsOf_concat_none {e : Event} (h : loadOf Cfg.default e = none) (es : List Event) :
    loadsOf Cfg.default (es ++ [e]) = loadsOf Cfg.default es := by
  simp [loadsOf, h]

theorem loadsOf_concat_load {e : Event} (h : loadOf Cfg.default e = some frame) (es : List Event) :
    loadsOf Cfg.default (es ++ [e]) = loadsOf Cfg.default es ++ [frame] := by
  rw [loadsOf_append, loadsOf_cons_load h]
  rfl

theorem readValues_concat_none {a : RegAddr} {e : Event} (h : readValue a e = none) (es : List Event) :
    readValues a (es ++ [e]) = readValues a es := by
  simp [readValues, h]

theorem readValues_concat_some {a : RegAddr} {e : Event} {v : Byte} (h : readValue a e = some v) (es : List Event) :
    readValues a (es ++ [e]) = readValues a es ++ [v] := by
  simp [readValues, h]

theorem thirdBehindAck_nil : ThirdBehindAck [] := by
  intro before third later h
  simp at h

/-- A further event is no third load, or one behind an ACK. -/
theorem ThirdBehindAck.concat {es : List Event} {e : Event} (h : ThirdBehindAck es)
    (hack : loadOf Cfg.default e ≠ none → (loadsOf Cfg.default es).length = 2 → AckBehind 1 es) :
    ThirdBehindAck (es ++ [e]) := by
  intro before third later hes hl hn
  rcases List.eq_nil_or_concat later with rfl | ⟨later', e', rfl⟩
  · obtain ⟨rfl, he⟩ := List.append_inj' hes rfl
    cases he
    exact hack hl hn
  · refine h before third later' (List.append_inj_left' (t₁ := [e]) (t₂ := [e']) ?_ rfl) hl hn
    rw [hes, List.append_assoc, List.cons_append, List.concat_eq_append]

theorem AckBehind.concat {n : Nat} {es : List Event} {e : Event} (h : AckBehind n es) (he : Quiet e) :
    AckBehind n (es ++ [e]) := by
  obtain ⟨first, load, answer, rfl, hn, hl, b, v, rest, hb, hv, hack⟩ := h
  refine ⟨first, load, answer ++ [e], by simp, hn, hl, b, v, rest, ?_, ?_, hack⟩
  · exact (readValues_concat_none he.drained answer).trans hb
  · exact (readValues_concat_none he.control answer).trans hv

theorem ready_nil : Ready [] [] := ⟨rfl, thirdBehindAck_nil, nofun⟩

theorem Ready.quiet {es : List Event} {e : Event} (h : Ready l es) (he : Quiet e) : Ready l (es ++ [e]) where
  loads := (loadsOf_concat_none he.load es).trans h.loads
  third := h.third.concat fun hl => absurd he.load hl
  acked hn := (h.acked hn).concat he

/-- The load that may come. -/
theorem Ready.third_concat {es : List Event} (h : Ready l es) (e : Event) : ThirdBehindAck (es ++ [e]) :=
  h.third.concat fun _ hn => h.acked (h.loads ▸ hn)

theorem Ready.load {es : List Event} (h : Ready l es) (hl : l.length ≠ 1) (x : ExchangeAnswer) :
    Ready (l ++ [frame]) (es ++ [.exchange (txBurst 0x09 frame) x]) where
  loads := by rw [loadsOf_concat_load (loadOf_txBurst frame x), h.loads]
  third := h.third_concat _
  acked hn := absurd (by simpa using hn) hl

theorem Ready.answered {es : List Event} (h : Ready l es) (x : ExchangeAnswer) :
    Answered l frame [] [] (es ++ [.exchange (txBurst 0x09 frame) x]) :=
  ⟨h.third_concat _, es, _, [], rfl, h.loads, loadOf_txBurst frame x, rfl, rfl, rfl⟩

theorem Answered.loads {es : List Event} (h : Answered l frame data ctl es) :
    loadsOf Cfg.default es = l ++ [frame] := by
  obtain ⟨first, load, answer, rfl, hl, hf, hn, -, -⟩ := h.split
  rw [loadsOf_append, loadsOf_cons_load hf, hl, hn]

/-- One more read behind the frame. -/
theorem Answered.concat {es : List Event} {e : Event} {data' ctl' : List Byte} (h : Answered l frame data ctl es)
    (he : loadOf Cfg.default e = none)
    (hd : ∀ answer, readValues 0x09 answer = data → readValues 0x09 (answer ++ [e]) = data')
    (hc : ∀ answer, readValues 0x0C answer = ctl → readValues 0x0C (answer ++ [e]) = ctl') :
    Answered l frame data' ctl' (es ++ [e]) := by
  refine ⟨h.third.concat fun hl => absurd he hl, ?_⟩
  obtain ⟨first, load, answer, rfl, hl, hf, hn, hdata, hctl⟩ := h.split
  exact ⟨first, load, answer ++ [e], by simp, hl, hf, (loadsOf_concat_none he answer).trans hn, hd answer hdata,
    hc answer hctl⟩

theorem Answered.quiet {es : List Event} {e : Event} (h : Answered l frame data ctl es) (he : Quiet e) :
    Answered l frame data ctl (es ++ [e]) :=
  h.concat he.load (fun answer hd => (readValues_concat_none he.drained answer).trans hd)
    fun answer hc => (readValues_concat_none he.control answer).trans hc

theorem Answered.drained {es : List Event} (h : Answered l frame data ctl es) (e v : Byte) :
    Answered l frame (data ++ [v]) ctl (es ++ [gave 0x09 e v]) :=
  h.concat (loadOf_txRead _ _) (fun answer hd => hd ▸ readValues_concat_some (readValue_gave _ e v) answer)
    fun answer hc => (readValues_concat_none (readValue_txRead (by decide) _) answer).trans hc

theorem Answered.controlled {es : List Event} (h : Answered l frame data [] es) (e v : Byte) :
    Answered l frame data [v] (es ++ [gave 0x0C e v]) :=
  h.concat (loadOf_txRead _ _)
    (fun answer hd => (readValues_concat_none (readValue_txRead (by decide) _) answer).trans hd)
    fun answer hc => by rw [readValues_concat_some (readValue_gave _ e v), hc]; rfl

/-! ### Programs that load and drain nothing -/

/-- An assertion that quiet events keep, about loads that are a beginning of `all`. -/
structure Keeps (all : List (List Byte)) (A : List Event → Prop) : Prop where
  quiet : ∀ es e, A es → Quiet e → A (es ++ [e])
  partWay : ∀ es, A es → PartWay all es

theorem keeps_ready (h : l <+: all) : Keeps all (Ready l) :=
  ⟨fun _ _ hr he => hr.quiet he, fun _ hr => ⟨hr.loads ▸ h, hr.third⟩⟩

theorem keeps_answered (data ctl : List Byte) (h : l ++ [frame] <+: all) : Keeps all (Answered l frame data ctl) :=
  ⟨fun _ _ ha he => ha.quiet he, fun _ ha => ⟨ha.loads ▸ h, ha.third⟩⟩

variable {A : List Event → Prop}

theorem Keeps.broken (h : Keeps all A) {e : Stop} {es : List Event}
    (he : ∀ n data vb, e ≠ .raise (.writeNotAcked n data vb)) (ha : A es) : Broken all e es := ⟨he, h.partWay es ha⟩

theorem Keeps.failed (h : Keeps all A) {es : List Event} {ev : Event} (r : TransportReason) (ha : A es)
    (hev : Quiet ev) : Broken all (.raise (.transportError r)) (es ++ [ev]) := h.broken nofun (h.quiet es ev ha hev)

theorem Keeps.read (h : Keeps all A) {a : RegAddr} (h9 : a ≠ 0x09) (hC : a ≠ 0x0C) :
    Leads A (readRegister a) (fun _ => A) (Broken all) :=
  leads_readRegister (fun es _ _ ha => h.quiet es _ ha (quiet_read h9 hC _)) fun _ _ r ha he =>
    h.failed r ha (quiet_failedRead he)

theorem Keeps.write (h : Keeps all A) {a : RegAddr} (h9 : a ≠ 0x09) (v : Byte) :
    Leads A (writeRegister a v) (fun _ => A) (Broken all) :=
  leads_writeRegister (fun es x ha _ => h.quiet es _ ha (quiet_write h9 v x)) fun _ x r ha _ =>
    h.failed r ha (quiet_write h9 v x)

theorem Keeps.poll (h : Keeps all A) {a : RegAddr} (h9 : a ≠ 0x09) (hC : a ≠ 0x0C) (stop : Byte) (ms : Nat) :
    Leads A (pollUntil a stop ms) (fun _ => A) (Broken all) :=
  leads_pollUntil (R := fun _ => A) (fun es ha => h.quiet es _ ha ⟨rfl, rfl, rfl⟩) (h.read h9 hC)
    (fun _ _ es ha => h.quiet es _ ha ⟨rfl, rfl, rfl⟩) fun _ _ ha => ha

theorem Keeps.require (h : Keeps all A) {b : Bool} {r : RefusalReason} {f : Unit → Op α} {Q : α → List Event → Prop}
    (hf : Leads A (f ()) Q (Broken all)) : Leads A (require b r >>= f) Q (Broken all) :=
  leads_require (fun _ _ ha => h.broken nofun ha) fun _ => hf

/-- The load itself, answered or not. -/
theorem leads_load {P Q : List Event → Prop} (hq : ∀ es x, P es → Q (es ++ [.exchange (txBurst 0x09 frame) x]))
    (h : Keeps all Q) : Leads P (writeRegisterBurst 0x09 frame) (fun _ => Q) (Broken all) :=
  leads_writeRegisterBurst hq fun es x _ hp _ => h.broken nofun (hq es x hp)

/-! ### The frame and its CRC (rules R94, R136) -/

theorem leads_calcCrcLoad (body : List Byte) (hl : l.length ≠ 1) :
    Leads (Ready l) (calcCrc body) (fun _ => Ready (l ++ [body])) (Broken (l ++ [body])) := by
  have before : Keeps (l ++ [body]) (Ready l) := keeps_ready (List.prefix_append _ _)
  have behind : Keeps (l ++ [body]) (Ready (l ++ [body])) := keeps_ready List.prefix_rfl
  refine before.require (leads_getCfg (leads_bind (before.write (by decide) _) fun _ => ?_))
  refine leads_bind (before.write (by decide) _) fun _ => ?_
  refine leads_bind (leads_getCfg (before.write (by decide) _)) fun _ => ?_
  refine leads_bind (leads_load (fun es x h => h.load hl x) behind) fun _ => ?_
  refine leads_bind (behind.write (by decide) _) fun _ => ?_
  refine leads_bind (behind.poll (by decide) (by decide) _ _) fun ⟨v, why⟩ => ?_
  cases why with
  | deadline => exact leads_raise fun es h => behind.broken nofun h
  | bit => exact leads_bind (behind.read (by decide) (by decide)) fun _ =>
      leads_bind (behind.read (by decide) (by decide)) fun _ => leads_pure fun _ h => h

/-- What a returned `transceive` has drained is its data; where there is data, the valid bits are those read. -/
def Drained (l : List (List Byte)) (frame : List Byte) (r : TransceiveResult) (es : List Event) : Prop :=
  ∃ ctl, Answered l frame r.data ctl es ∧ (r.data ≠ [] → ∃ v, ctl = [v] ∧ v &&& 0x07 = r.validBits)

theorem leads_preambleLoad (frame : List Byte) (vb : Byte) :
    Leads (Ready l) (transceivePreamble frame vb) (fun _ => Answered l frame [] []) (Broken (l ++ [frame])) := by
  have before : Keeps (l ++ [frame]) (Ready l) := keeps_ready (List.prefix_append _ _)
  have behind : Keeps (l ++ [frame]) (Answered l frame [] []) := keeps_answered [] [] List.prefix_rfl
  refine leads_getCfg (leads_bind (before.write (by decide) _) fun _ => ?_)
  refine leads_bind (before.write (by decide) _) fun _ => ?_
  refine leads_bind (leads_getCfg (before.write (by decide) _)) fun _ => ?_
  refine leads_bind (leads_load (fun es x h => h.answered x) behind) fun _ => ?_
  refine leads_bind (behind.write (by decide) _) fun _ => leads_bind (behind.write (by decide) _) fun _ => ?_
  exact leads_bind (behind.read (by decide) (by decide)) fun _ => behind.write (by decide) _

theorem leads_completionDrain (irq : Byte) : Leads (Answered l frame [] []) (transceiveCompletion irq)
    (Drained l frame) (Broken (l ++ [frame])) := by
  have keeps (data : List Byte) : Keeps (l ++ [frame]) (Answered l frame data []) :=
    keeps_answered data [] List.prefix_rfl
  refine leads_getCfg (leads_bind (leads_bind ((keeps []).read (by decide) (by decide)) fun _ =>
    (keeps []).write (by decide) _) fun _ => leads_bind ((keeps []).read (by decide) (by decide)) fun err => ?_)
  split
  · exact leads_raise fun es h => (keeps []).broken nofun h
  refine leads_bind (Q := fun _ => Answered l frame [] []) ?_ fun n => ?_
  · exact leads_getCfg (leads_bind ((keeps []).read (by decide) (by decide)) fun _ => leads_pure fun _ h => h)
  refine leads_bind (leads_readFifoBytes (R := fun data => Answered l frame data []) (fun data =>
    leads_readRegister (fun es e v h => h.drained e v) fun es x r h he => (keeps data).failed r h (quiet_failedRead he))
    n []) fun data => ?_
  refine leads_bind (Q := fun v => Answered l frame data [v]) (leads_readRegister (fun es e v h => h.controlled e v)
    fun es x r h he => (keeps data).failed r h (quiet_failedRead he)) fun v => ?_
  exact leads_pure fun es h => ⟨[v], h, fun _ => ⟨v, rfl, rfl⟩⟩

theorem leads_transceiveLoad (frame : List Byte) (vb : Byte) (ms : Nat) :
    Leads (Ready l) (transceive frame vb ms) (Drained l frame) (Broken (l ++ [frame])) := by
  have before : Keeps (l ++ [frame]) (Ready l) := keeps_ready (List.prefix_append _ _)
  have behind : Keeps (l ++ [frame]) (Answered l frame [] []) := keeps_answered [] [] List.prefix_rfl
  refine before.require (before.require (leads_getCfg (leads_bind (leads_preambleLoad frame vb) fun _ => ?_)))
  refine leads_bind (behind.poll (by decide) (by decide) _ ms) fun ⟨irq, _⟩ => ?_
  dsimp only
  split
  · exact leads_pure fun es h => ⟨[], h, fun hne => absurd rfl hne⟩
  · exact leads_pure fun es h => ⟨[], h, fun hne => absurd rfl hne⟩
  · exact leads_completionDrain irq

/-! ### The two phases (rules R193, R194, R196) -/

/-- A result that passes the ACK test was an ACK read behind its frame. -/
theorem Drained.ackBehind {r : TransceiveResult} {es : List Event} (h : Drained l frame r es)
    (hr : isAck Cfg.default r = true) : AckBehind l.length es := by
  obtain ⟨⟨b, rest, hd, hack⟩, hvb⟩ := (isAck_iff _ _).1 hr
  obtain ⟨ctl, ha, hctl⟩ := h
  obtain ⟨v, rfl, hv⟩ := hctl (by simp [hd])
  obtain ⟨first, load, answer, rfl, hl, hf, -, hdata, hcontrol⟩ := ha.split
  exact ⟨first, load, answer, rfl, by rw [hl], by simp [hf], b, v, rest, hdata.trans hd, hcontrol, hack, hv ▸ hvb⟩

/-- A phase that returns has loaded its body and its frame, and read an ACK behind it. -/
structure PhaseDone (l : List (List Byte)) (body : List Byte) (es : List Event) : Prop where
  loads : ∃ crc, loadsOf Cfg.default es = l ++ [body, body ++ crc]
  third : ThirdBehindAck es
  acked : AckBehind (l.length + 1) es

/-- A phase that stops has loaded a beginning of its body and its frame, and both if the ACK is missing. -/
structure PhaseStopped (l : List (List Byte)) (phase : Nat) (body : List Byte) (e : Stop) (es : List Event) : Prop where
  partWay : ∃ crc, PartWay (l ++ [body, body ++ crc]) es
  missing : ∀ n data vb, e = .raise (.writeNotAcked n data vb) →
    n = phase ∧ (loadsOf Cfg.default es).length = l.length + 2

theorem Broken.phaseStopped {phase : Nat} {e : Stop} {es : List Event} (h : Broken all e es) {crc : List Byte}
    (hall : all <+: l ++ [body, body ++ crc]) : PhaseStopped l phase body e es :=
  ⟨⟨crc, h.2.loads.trans hall, h.2.third⟩, fun n data vb he => absurd he (h.1 n data vb)⟩

theorem leads_writePhase (phase : Nat) (body : List Byte) (ms : Nat) (hl : l.length ≠ 1) :
    Leads (Ready l) (writePhase phase body ms) (fun _ => PhaseDone l body) (PhaseStopped l phase body) := by
  have two (crc : List Byte) : l ++ [body] ++ [body ++ crc] = l ++ [body, body ++ crc] := List.append_assoc _ _ _
  refine leads_getCfg ?_
  rw [appendCrc, bind_assoc]
  refine leads_bind ((leads_calcCrcLoad body hl).imp_stop fun _ _ h =>
    h.phaseStopped (crc := []) ⟨[body ++ []], two []⟩) fun crc => ?_
  rw [pure_bind]
  refine leads_bind ((leads_transceiveLoad (body ++ crc) 0 ms).imp_stop fun _ _ h =>
    h.phaseStopped (crc := crc) (two crc ▸ List.prefix_rfl)) fun r => ?_
  split
  · rename_i hack
    refine leads_pure fun es h => ?_
    have ⟨ctl, ha, _⟩ := h
    exact ⟨⟨crc, ha.loads.trans (two crc)⟩, ha.third, by simpa using h.ackBehind hack⟩
  · refine leads_raise fun es ⟨ctl, ha, _⟩ => ?_
    have hloads := ha.loads.trans (two crc)
    refine ⟨⟨crc, hloads ▸ List.prefix_rfl, ha.third⟩, fun n data vb he => ?_⟩
    cases he
    exact ⟨rfl, by simp [hloads]⟩

/-- A block write that returns has loaded all four, with an ACK behind the second and the fourth. -/
structure WriteDone (f d : List Byte) (es : List Event) : Prop where
  loads : ∃ c1 c2, loadsOf Cfg.default es = [f, f ++ c1, d, d ++ c2]
  third : ThirdBehindAck es
  acked : AckBehind 3 es

/-- A block write that stops has loaded a beginning of the four, and two if the first ACK is missing. -/
structure WriteStopped (f d : List Byte) (e : Stop) (es : List Event) : Prop where
  partWay : ∃ c1 c2, PartWay [f, f ++ c1, d, d ++ c2] es
  missing : ∀ data vb, e = .raise (.writeNotAcked 1 data vb) → (loadsOf Cfg.default es).length = 2

theorem writeStopped_nil (f d : List Byte) (r : RefusalReason) : WriteStopped f d (.refuse r) [] :=
  ⟨⟨[], [], List.nil_prefix, thirdBehindAck_nil⟩, nofun⟩

theorem PhaseDone.ready {f : List Byte} {es : List Event} (h : PhaseDone [] f es) : ∃ c1, Ready [f, f ++ c1] es :=
  have ⟨c1, hl⟩ := h.loads
  ⟨c1, hl, h.third, fun _ => h.acked⟩

theorem PhaseStopped.first {f d : List Byte} {e : Stop} {es : List Event} (h : PhaseStopped [] 1 f e es) :
    WriteStopped f d e es := by
  obtain ⟨c1, hpart⟩ := h.partWay
  exact ⟨⟨c1, [], hpart.loads.trans ⟨[d, d ++ []], rfl⟩, hpart.third⟩, fun data vb he => (h.missing 1 data vb he).2⟩

theorem PhaseStopped.second {f d c1 : List Byte} {e : Stop} {es : List Event}
    (h : PhaseStopped [f, f ++ c1] 2 d e es) : WriteStopped f d e es := by
  obtain ⟨c2, hpart⟩ := h.partWay
  refine ⟨⟨c1, c2, hpart⟩, fun data vb he => ?_⟩
  have hphase := (h.missing 1 data vb he).1
  contradiction

theorem leads_mifareWriteBlock (blk : Nat) (payload : List Byte) :
    Leads (· = []) (mifareWriteBlock blk payload) (fun _ => WriteDone [0xA0, BitVec.ofNat 8 blk] (sixteenBytes payload))
      (WriteStopped [0xA0, BitVec.ofNat 8 blk] (sixteenBytes payload)) := by
  by_cases hb : blk ≤ 255
  · rw [mifareWriteBlock, blockOperand, if_pos hb, pure_bind]
    have first := leads_writePhase (l := []) 1 [0xA0, BitVec.ofNat 8 blk] Config.tWrite1 nofun
    refine leads_getCfg (leads_bind ((first.imp_stop fun _ _ h => h.first).of ?_) fun _ => ?_)
    · rintro _ rfl
      exact ready_nil
    refine (leads_exists fun c1 => ?_).of fun _ => PhaseDone.ready
    refine (leads_writePhase 2 _ _ (by simp)).imp (fun _ _ h => ?_) fun _ _ h => h.second
    obtain ⟨c2, hl⟩ := h.loads
    exact ⟨⟨c1, c2, hl⟩, h.third, h.acked⟩
  · rw [mifareWriteBlock, blockOperand, if_neg hb]
    exact leads_bind (Q := fun _ _ => False) (leads_refuse (by rintro _ rfl; exact writeStopped_nil _ _ _))
      fun _ _ _ hs => have ⟨_, _, hf⟩ := hs.events; hf.elim

theorem exec_mifareWriteBlock_ends {s t : State} {blk : Nat} {payload : List Byte} (hs : s.cfg = Cfg.default)
    (h : exec (.mifareWriteBlock blk payload) s = .next t) :
    CallEnds (fun _ : Unit => .unit) (fun _ => WriteDone [0xA0, BitVec.ofNat 8 blk] (sixteenBytes payload))
      (WriteStopped [0xA0, BitVec.ofNat 8 blk] (sixteenBytes payload)) s t := by
  cases h
  exact hostCall_ends (x := requireReady >>= fun _ => mifareWriteBlock blk payload)
    (leads_requireReady (by rintro _ rfl; exact writeStopped_nil _ _ _) (leads_mifareWriteBlock blk payload)) rfl _ hs

end Sys2Proof.Machine

/-! ## The transceive engine (rules R150 to R156)

`transceive` has the name of the operation it speaks of, so these theorems stand in a namespace of their own. -/

namespace Sys2Proof.TransceiveEngine

open Machine

/-- Settles O35: behind the open handle `transceive` goes as its dialogue. -/
theorem transceive : Obligations.Transceive := by
  intro s frame vb ms r hs hv h1 h64 hr hg
  exact congrArg _ (hostCall_plays _ (plays_transceive s.cfg frame vb ms r hv ⟨h1, h64⟩ hr) hs hg
    (answered_transceiveTalk _ _ _ _ _))

/-- Settles O56: the writes are counted along the preamble, the poll and the completion. -/
theorem transceiveLeftovers : Obligations.TransceiveLeftovers := by
  intro s t frame vb ms hs h es start
  have hends := exec_transceive_ends hs h
  refine ⟨fun r ho => ?_, fun err irq ho => ?_, fun r ho => ?_⟩
  all_goals
    rcases hends with ⟨r', ho', hq⟩ | ⟨e, ho', he⟩ | ⟨r', ho', -⟩ | ⟨r', ho', -, -⟩ <;>
    cases List.append_cancel_left (ho.symm.trans ho')
  · exact ⟨hq.wrote.command, hq.wrote.start⟩
  · exact ⟨he.1.command, he.1.start⟩
  · obtain ⟨done, b, rest, x, hes, hx, hw⟩ := he
    exact ⟨done, b, rest, x, hes, hx, hw.command, hw.start⟩

/-- Settles O57: the operands are no reason to refuse, no event failed, and only a receive interrupt leads to data or to
`TransceiveError`. -/
theorem noReceiveIsEmpty : Obligations.NoReceiveIsEmpty := by
  intro s t frame vb ms hs hc hv h1 h64 h hok hrx
  have quiet : ¬ Received (newEvents s t) := fun ⟨e, v, hm, hne⟩ => hne (hrx e v hm)
  rcases exec_transceive_ends hs h with ⟨r, ho, hq⟩ | ⟨e, ho, he⟩ | ⟨r, -, he⟩ | ⟨r, -, hn, -⟩
  · obtain ⟨⟨hlast, -⟩, hr⟩ := hq.silent.resolve_left quiet
    exact ⟨r.irqReg, hlast, by rw [ho, hr]; rfl⟩
  · cases e with
    | transceiveError err irq => exact absurd he.2 quiet
    | transportError r =>
      obtain ⟨done, b, rest, x, hes, hx, -⟩ := he
      have hfail := hok (.exchange (b :: rest) x) (by rw [hes]; simp)
      simp [failureOf, hx] at hfail
    | _ => exact he.elim
  · exact absurd ⟨hv, h1, h64⟩ he
  · exact absurd hc hn

/-- Settles O53: the loads are followed through both phases; a third one comes only where the first phase has returned,
and it returns only with an ACK behind its frame. -/
theorem payloadOnlyAfterAck : Obligations.PayloadOnlyAfterAck := by
  intro s t blk payload hs h f d es loads
  rcases (exec_mifareWriteBlock_ends hs h).returned_or_stopped (writeStopped_nil f d) with ⟨_, ho, hd⟩ | ⟨e, ho, hw⟩
  · obtain ⟨⟨c1, c2, hl⟩, hthird, hack⟩ := hd
    exact ⟨⟨c1, c2, hl ▸ List.prefix_rfl⟩, hthird, fun data vb ho' => by simp [ho] at ho',
      fun _ => ⟨congrArg List.length hl, hack⟩⟩
  · obtain ⟨⟨c1, c2, hpart⟩, hmissing⟩ := hw
    refine ⟨⟨c1, c2, hpart.loads⟩, hpart.third, fun data vb ho' => hmissing data vb ?_, fun ho' => ?_⟩
    all_goals cases e <;> cases List.append_cancel_left (ho.symm.trans ho')
    rfl

end Sys2Proof.TransceiveEngine
end

section
/-! SUPPORT. The card protocol family: `requestA`, `detectCard` and the pure helpers as calls of the host (obligations
O36, O44, O45, O46), and one pass over `mifareAuthKeyA` for the last read of `Status2Reg` (O55). -/

namespace Sys2Proof.Machine

variable {α β : Type}

/-! ## The pure helpers (rules R198, R199) -/

/-- A call that only computes its value. -/
theorem hostCall_pure (a : α) (value : α → Value) {s : State} (hb : s.busy = false) :
    hostCall (pure a) value s = report (.returned (value a)) s := by
  rw [hostCall_of_ok value hb (op_pure a _)]
  simp only [report, leaveOperation, ← hb]

theorem sixteenBytes_of_length {xs : List Byte} (h : xs.length = 16) : sixteenBytes xs = xs := by
  simp [sixteenBytes, Config.blockLen, h, List.take_of_length_le h.le]

/-- Settles O44: the call only computes, and the remainder test is that of R198. -/
theorem isTrailerBlock : Obligations.IsTrailerBlock := by
  intro s b hb
  exact congrArg Host.Outcome.next (hostCall_pure (trailerBlock b) .bool hb)

/-- Settles O45: the call only computes; what it returns has sixteen bytes, and such a list it leaves as it is. -/
theorem ensureSixteenBytes : Obligations.EnsureSixteenBytes := by
  refine ⟨fun s xs hb => congrArg Host.Outcome.next (hostCall_pure (sixteenBytes xs) .bytes hb), fun xs => ?_⟩
  exact ⟨length_sixteenBytes xs, sixteenBytes_of_length (length_sixteenBytes xs), sixteenBytes_of_length⟩

/-! ## The detection cycle (rule R202) -/

section

variable {c : Cfg}

/-- A program that makes its result of a dialogue's, and what follows it, as told by the result of the dialogue. -/
theorem plays_bind_result {γ : Type} {y : Op β} {d : Dialogue α} {f : α → β} {k : β → Op γ} {g : α → Dialogue γ}
    (hy : Plays c y (d.andThen fun a => .says [] (f a))) (hk : ∀ a, Plays c (k (f a)) (g a)) :
    Plays c (y >>= k) (d.andThen g) := by
  cases hr : d.result with
  | error err =>
    have hfails : (d.andThen fun a => .says [] (f a)).andThen (fun _ => .fails [] err) = d.andThen g := by
      simp [Dialogue.andThen, hr]
    exact hfails ▸ plays_bind hy fun b hb => by simp [Dialogue.andThen, hr] at hb
  | ok a =>
    have hsays : (d.andThen fun a => .says [] (f a)).andThen (fun _ => g a) = d.andThen g := by
      simp [Dialogue.andThen, Dialogue.says, hr]
    refine hsays ▸ plays_bind hy fun b hb => ?_
    obtain rfl : f a = b := by simpa [Dialogue.andThen, Dialogue.says, hr] using hb
    exact hk a

variable {r1 r2 r3 : Reception} {e : Noise} {coll : Byte} {x : CrcRun}

/-- The dialogue of `detectCard`, with what becomes of its result. -/
def detectTalk (c : Cfg) (r1 : Reception) (e : Noise) (coll : Byte) (r2 : Reception) (x : CrcRun) (r3 : Reception)
    (value : Option Card → α) : Dialogue α :=
  (transceiveTalk c [c.card.reqa] 7 80 r1).andThen fun a => match atqaOf a.data with
    | none => .says [] (value none)
    | some atqa => (anticollTalk c e coll r2).andThen fun u => match uidOf u.data with
      | none => .says [] (value none)
      | some uid =>
        (crcFrameTalk c ([c.card.selCl1, c.card.nvbSelect] ++ uidBytes uid ++ [bcc (uidBytes uid)]) 80 x r3).andThen
          fun k => .says [] (value (some { atqa := atqa, uid := uid, sak := sakOf k.data }))

theorem detectTalk_andThen (value : Option Card → α) :
    ((detectTalk c r1 e coll r2 x r3 id).andThen fun k => .says [] (value k)) =
      detectTalk c r1 e coll r2 x r3 value := by
  rw [detectTalk, detectTalk, andThen_assoc]
  refine congrArg _ (funext fun a => ?_)
  cases atqaOf a.data with
  | none => rfl
  | some atqa =>
    dsimp only
    rw [andThen_assoc]
    refine congrArg _ (funext fun u => ?_)
    cases uidOf u.data with
    | none => rfl
    | some uid => exact andThen_assoc _ _ _

theorem answered_detectTalk (value : Option Card → α) : (detectTalk c r1 e coll r2 x r3 value).Answered := by
  refine answered_andThen (answered_transceiveTalk _ _ _ _ _) fun a => ?_
  cases atqaOf a.data with
  | none => exact answered_says _ _
  | some atqa =>
    refine answered_andThen (answered_anticollTalk _ _ _ _) fun u => ?_
    cases uidOf u.data with
    | none => exact answered_says _ _
    | some uid => exact answered_andThen (answered_crcFrameTalk _ _ _ _ _) fun _ => answered_says _ _

/-- Each stage is the program of its own dialogue. -/
theorem plays_detectCard (h1 : r1.Ok c) (h2 : r2.Ok c) (hx : x.Ok c) (h3 : r3.Ok c) :
    Plays c detectCard (detectTalk c r1 e coll r2 x r3 id) := by
  refine plays_bind_result (plays_requestA c r1 h1) fun a => ?_
  cases atqaOf a.data with
  | none => exact plays_pure c none
  | some atqa =>
    refine plays_bind_result (plays_anticollCL1 c e coll r2 h2) fun u => ?_
    cases uidOf u.data with
    | none => exact plays_pure c none
    | some uid => exact plays_bind_result (plays_selectCL1 c (uidBytes uid) x r3 rfl hx h3) fun _ => plays_pure c _

end

/-! ## The last read of `Status2Reg` (rules R183, R184) -/

/-- The value of a read of `Status2Reg` that is the last event. -/
def statusLast (es : List Event) : Option Byte := es.getLast?.bind (readValue 0x08)

/-- The last event is a read of `Status2Reg` that gave `v`. -/
def StatusGave (v : Byte) (es : List Event) : Prop := ∃ done echo, es = done ++ [gave 0x08 echo v]

/-- What an authentication that returns leaves: the crypto bit read set. -/
def Authenticated (es : List Event) : Prop := ∃ v, StatusGave v es ∧ v &&& 0x08 ≠ 0

/-- What an authentication that stops leaves: a read of `Status2Reg` is the last event only before `AuthFailed` with its
value. -/
def NotAuthenticated (e : Stop) (es : List Event) : Prop :=
  ∀ v, statusLast es = some v → ∃ irq, e = .raise (.authFailed v irq)

variable {Q : α → List Event → Prop}

theorem statusLast_concat (es : List Event) (e : Event) : statusLast (es ++ [e]) = readValue 0x08 e := by
  simp [statusLast]

theorem StatusGave.last {v : Byte} {es : List Event} (h : StatusGave v es) : statusLast es = some v := by
  obtain ⟨done, echo, rfl⟩ := h
  rw [statusLast_concat, readValue_gave]

theorem notAuthenticated_of_none {es : List Event} (h : statusLast es = none) (e : Stop) : NotAuthenticated e es :=
  fun v hv => by simp [h] at hv

theorem readValue_txBurst (a b : RegAddr) (bs : List Byte) (x : ExchangeAnswer) :
    readValue b (.exchange (txBurst a bs) x) = none := by
  refine Option.eq_none_iff_forall_ne_some.2 fun v hv => ?_
  obtain ⟨pad, echo, he⟩ := eq_of_readValue hv
  simp only [txBurst, Event.exchange.injEq, List.cons.injEq] at he
  exact encR_ne_encW b a he.1.1.symm

/-! ### Programs that do not read `Status2Reg` -/

/-- The last event, if there is one, is no read of `Status2Reg`. -/
abbrev NoStatus (es : List Event) : Prop := statusLast es = none

theorem noStatus_concat {e : Event} (h : readValue 0x08 e = none) (es : List Event) : NoStatus (es ++ [e]) :=
  (statusLast_concat es e).trans h

theorem notAuthenticated_concat {ev : Event} (h : readValue 0x08 ev = none) (e : Stop) (es : List Event) :
    NotAuthenticated e (es ++ [ev]) := notAuthenticated_of_none (noStatus_concat h es) e

theorem leads_otherRead {a : RegAddr} (h : a ≠ 0x08) :
    Leads NoStatus (readRegister a) (fun _ => NoStatus) NotAuthenticated :=
  leads_readRegister (fun es _ _ _ => noStatus_concat (readValue_txRead h _) es) fun es _ _ _ he =>
    notAuthenticated_concat (readValue_failed he) _ es

theorem leads_authWrite (a : RegAddr) (v : Byte) :
    Leads NoStatus (writeRegister a v) (fun _ => NoStatus) NotAuthenticated :=
  leads_writeRegister (fun es _ _ _ => noStatus_concat (readValue_txWrite _ _ _ _) es) fun es _ _ _ he =>
    notAuthenticated_concat (readValue_failed he) _ es

theorem leads_authLoad (a : RegAddr) (bs : List Byte) :
    Leads NoStatus (writeRegisterBurst a bs) (fun _ => NoStatus) NotAuthenticated :=
  leads_writeRegisterBurst (fun es _ _ => noStatus_concat (readValue_txBurst _ _ _ _) es) fun es _ _ _ he =>
    notAuthenticated_concat (readValue_failed he) _ es

theorem leads_authPoll {a : RegAddr} (h : a ≠ 0x08) (stop : Byte) (ms : Nat) :
    Leads NoStatus (pollUntil a stop ms) (fun _ => NoStatus) NotAuthenticated :=
  leads_pollUntil (R := fun _ => NoStatus) (fun es _ => noStatus_concat rfl es) (leads_otherRead h)
    (fun _ _ es _ => noStatus_concat rfl es) fun _ _ h => h

/-! ### The whole operation -/

theorem leads_statusRead : Leads NoStatus (readRegister 0x08) StatusGave NotAuthenticated :=
  leads_readRegister (fun es e _ _ => ⟨es, e, rfl⟩) fun es _ _ _ he =>
    notAuthenticated_concat (readValue_failed he) _ es

/-- Only the last exchange reads `Status2Reg`: before it are writes, the poll and the read of the error register. -/
theorem leads_authenticate (input : List Byte) :
    Leads NoStatus (authenticate input) (fun _ => Authenticated) NotAuthenticated := by
  refine leads_getCfg (leads_bind (leads_authWrite _ _) fun _ => leads_bind (leads_authWrite _ _) fun _ => ?_)
  refine leads_bind (leads_getCfg (leads_authWrite _ _)) fun _ => leads_bind (leads_authLoad _ input) fun _ => ?_
  refine leads_bind (leads_authWrite _ _) fun _ => leads_bind (leads_authPoll (by decide) _ _) fun ⟨irq, _⟩ => ?_
  refine leads_bind (leads_otherRead (by decide)) fun err => ?_
  split
  · exact leads_raise fun _ h => notAuthenticated_of_none h _
  refine leads_bind leads_statusRead fun v => ?_
  split
  · next hset => exact leads_pure fun _ h => ⟨v, h, anySet_true.1 hset⟩
  · refine leads_raise fun es h w hw => ⟨irq, ?_⟩
    rw [Option.some.inj (h.last.symm.trans hw)]

theorem leads_blockOperand {P : List Event → Prop} {E : Stop → List Event → Prop} {blk : Nat} {f : Byte → Op α}
    (hr : ∀ h, P h → E (.refuse .badBlockAddress) h) (hf : Leads P (f (blockByte blk)) Q E) :
    Leads P (blockOperand blk >>= f) Q E := by
  by_cases hb : blk ≤ 255
  · rwa [blockOperand_upTo hb, pure_bind]
  · rw [blockOperand_above (Nat.lt_of_not_le hb)]
    exact fun _ _ hs => hs.imp hr

theorem leads_mifareAuthKeyA (blk : Nat) (key uid : List Byte) :
    Leads NoStatus (mifareAuthKeyA blk key uid) (fun _ => Authenticated) NotAuthenticated := by
  refine leads_blockOperand (fun _ h => notAuthenticated_of_none h _) ?_
  refine leads_require (fun _ _ h => notAuthenticated_of_none h _) fun _ => ?_
  split
  · exact leads_raise fun _ h => notAuthenticated_of_none h _
  · exact leads_getCfg (leads_authenticate _)

theorem exec_mifareAuthKeyA_ends {s t : State} {blk : Nat} {key uid : List Byte} (hs : s.cfg = Cfg.default)
    (h : exec (.mifareAuthKeyA blk key uid) s = .next t) :
    CallEnds (fun _ : Unit => .unit) (fun _ => Authenticated) NotAuthenticated s t := by
  cases h
  exact hostCall_ends (x := requireReady >>= fun _ => mifareAuthKeyA blk key uid)
    (leads_requireReady (fun _ h => notAuthenticated_of_none h _) (leads_mifareAuthKeyA blk key uid)) rfl _ hs

theorem events_eq_append_newEvents {i : Instr} {s t : State} (h : exec i s = .next t) :
    t.events = s.events ++ newEvents s t := by
  obtain ⟨es, he⟩ := (extends_exec h).events
  rw [newEvents, ← he, List.drop_left]

/-- Settles O55: the call returns only behind a read with the bit set, and stops behind such a read only with
`AuthFailed`. -/
theorem authSuccessIsCryptoBit : Obligations.AuthSuccessIsCryptoBit := by
  intro s t blk key uid hs h
  have hevents := events_eq_append_newEvents h
  have last : ∀ es echo v, t.events = s.events ++ es ++ [gave 0x08 echo v] → statusLast (newEvents s t) = some v := by
    intro es echo v he
    rw [hevents, List.append_assoc] at he
    exact StatusGave.last ⟨es, echo, List.append_cancel_left he⟩
  rcases (exec_mifareAuthKeyA_ends hs h).returned_or_stopped fun r => notAuthenticated_of_none rfl (.refuse r) with
    ⟨_, -, v, hgave, hset⟩ | ⟨e, ho, hstop⟩
  · refine ⟨fun _ => ?_, fun es echo w he hclear => ?_⟩
    · obtain ⟨done, echo, hnew⟩ := hgave
      exact ⟨done, echo, v, by rw [hevents, hnew, List.append_assoc], hset⟩
    · rw [Option.some.inj (hgave.last.symm.trans (last es echo w he))] at hset
      exact absurd hclear hset
  · refine ⟨fun ho' => ?_, fun es echo w he _ => ?_⟩
    · have houtcome := List.append_cancel_left (ho.symm.trans ho')
      cases e <;> cases houtcome
    · obtain ⟨irq, rfl⟩ := hstop w (last es echo w he)
      exact ⟨irq, ho⟩

end Sys2Proof.Machine

/-! ## Detection (rules R170, R202)

These theorems have the names of the operations they speak of, so they stand in a namespace of their own. -/

namespace Sys2Proof.CardProtocol

open Machine

/-- Settles O36: `requestA` goes as its dialogue; the statement writes out `atqaOf`. -/
theorem requestA : Obligations.RequestA := by
  intro s r hs hr d hg
  refine congrArg _ (cardCall_result (plays_requestA s.cfg r hr) (fun res => ?_) hs
    (answered_transceiveTalk _ _ _ _ _) hg)
  rcases res.data with _ | ⟨b0, _ | ⟨b1, _ | ⟨b2, rest⟩⟩⟩ <;> rfl

/-- Settles O46: `detectCard` goes as its dialogue, of whose result the call makes its value. -/
theorem detectCard : Obligations.DetectCard := by
  intro s r1 e coll r2 x r3 hs h1 h2 hx h3 c d hg
  have hplays := plays_detectCard (e := e) (coll := coll) h1 h2 hx h3
  rw [← detectTalk_andThen id] at hplays
  have hd : d = _ := (detectTalk_andThen cardValue).symm
  rw [hd] at hg ⊢
  exact congrArg _ (cardCall_result hplays (fun _ => rfl) hs (answered_detectTalk id) hg)

end Sys2Proof.CardProtocol
end

section
/-! SUPPORT. The lifecycle family: `softReset`, `antennaOn` and `init` as calls (obligations O42, O33, O43), and the settle
delay behind every reset write (O51). Only `softReset` writes the reset command, and the sleep is its next event; the
programs of every other operation add no such write (`AddsNoReset`). -/

namespace Sys2Proof.Machine

variable {α β : Type}

/-! ## A call on an open handle (rules R250, R262, R265) -/

theorem openCall_of_ok {x : Op α} {s t : State} {a : α} (value : α → Value) (hs : CanCall s)
    (hx : x { s with busy := true } = .ok a t) :
    hostCall (onOpenHandle x) value s = report (.returned (value a)) (leaveOperation t) :=
  hostCall_of_ok value hs.2 ((onOpenHandle_open x (s := { s with busy := true }) hs.1).trans hx)

theorem openCall_of_raise {x : Op α} {s t : State} {e : Error} (value : α → Value) (hs : CanCall s)
    (hx : x { s with busy := true } = .error (.raise e) t) :
    hostCall (onOpenHandle x) value s = report (.raised e) (enterError e t) :=
  hostCall_of_raise value hs.2 ((onOpenHandle_open x (s := { s with busy := true }) hs.1).trans hx)

/-! ## `softReset` and `init` (rules R220, R222) -/

/-- The reset write of rule R220. -/
abbrev resetBytes (c : Cfg) : List Byte := txWrite c.reg.command c.cmd.softReset

theorem asked_busy (s : State) (b : Bool) (tx : List Byte) :
    asked { s with busy := b } tx = { asked s tx with busy := b } := rfl

section

variable {s : State} (ho : isOpen s.handle = true)
include ho

/-- Behind the answered reset write come the delay and the phase. -/
theorem softReset_of_ok {rx : List Byte}
    (he : exchangeEnd (resetBytes s.cfg) (nextAnswer s (resetBytes s.cfg)) = .ok rx) :
    softReset s = .ok () { asked s (resetBytes s.cfg) with
      events := (asked s (resetBytes s.cfg)).events ++ [.sleep Config.tSettle], phase := .opened } := by
  simp [softReset, writeRegister, exchange_open _ ho, he]

/-- The failed reset write is the only event. -/
theorem softReset_of_error {r : TransportReason}
    (he : exchangeEnd (resetBytes s.cfg) (nextAnswer s (resetBytes s.cfg)) = .error r) :
    softReset s = .error (.raise (.transportError r)) (asked s (resetBytes s.cfg)) := by
  simp [softReset, writeRegister, exchange_open _ ho, he]

end

theorem softReset_closed {s : State} (h : isOpen s.handle = false) : softReset s = .error (.refuse .notOpen) s := by
  simp [softReset, writeRegister, exchange_closed _ h]

/-- `init` between its soft reset and its last phase change: the six configuration writes and the antenna (rules R222 to
R224). -/
def configureChip : Op Unit := do
  let c ← getCfg
  writeRegister c.reg.tMode c.init.tMode
  writeRegister c.reg.tPrescaler c.init.tPrescaler
  writeRegister c.reg.tReloadL c.init.tReloadL
  writeRegister c.reg.tReloadH c.init.tReloadH
  writeRegister c.reg.txAsk c.init.txAsk
  writeRegister c.reg.mode c.init.mode
  antennaOn

theorem initChip_eq : initChip = (do requireNotReady; softReset; configureChip; setPhase .ready) := by
  simp only [initChip, configureChip, bind_assoc]

/-- The dialogue of `softReset` before its phase change. -/
def resetTalk (c : Cfg) (e : Noise) : Dialogue Unit := .says [wrote e 0 (resetBytes c), .sleep Config.tSettle] ()

/-- The dialogue of `configureChip`. -/
def configureTalk (c : Cfg) (e f : Noise) (v : Byte) : Dialogue Unit :=
  (Dialogue.says
    [wrote e 1 [encW c.reg.tMode, c.init.tMode], wrote e 2 [encW c.reg.tPrescaler, c.init.tPrescaler],
     wrote e 3 [encW c.reg.tReloadL, c.init.tReloadL], wrote e 4 [encW c.reg.tReloadH, c.init.tReloadH],
     wrote e 5 [encW c.reg.txAsk, c.init.txAsk], wrote e 6 [encW c.reg.mode, c.init.mode]] ()).andThen fun _ =>
  antennaTalk c f v

theorem plays_configureChip (c : Cfg) (e f : Noise) (v : Byte) : Plays c configureChip (configureTalk c e f v) := by
  refine plays_getCfg (plays_next (plays_writeRegister c c.reg.tMode c.init.tMode e 1) ?_)
  refine plays_next (plays_writeRegister c c.reg.tPrescaler c.init.tPrescaler e 2) ?_
  refine plays_next (plays_writeRegister c c.reg.tReloadL c.init.tReloadL e 3) ?_
  refine plays_next (plays_writeRegister c c.reg.tReloadH c.init.tReloadH e 4) ?_
  refine plays_next (plays_writeRegister c c.reg.txAsk c.init.txAsk e 5) ?_
  exact plays_next (plays_writeRegister c c.reg.mode c.init.mode e 6) (plays_antennaOn c f v)

section

variable {s : State} {e f : Noise} {v : Byte}

/-- `softReset` goes as its dialogue, and the phase is then `Opened`. -/
theorem softReset_given (ho : isOpen s.handle = true) (hg : Given (resetTalk s.cfg e) s) :
    softReset s = .ok () { (resetTalk s.cfg e).heard s with phase := .opened } := by
  rw [softReset_reply ho (head_of_prefix hg.1) (by simp [resetBytes, txWrite])]
  simp [resetTalk, Dialogue.says, Dialogue.heard, wrote]

theorem initTalk_eq (c : Cfg) : initTalk c e f v = (resetTalk c e).andThen fun _ => configureTalk c e f v := rfl

theorem initTalk_result (c : Cfg) : (initTalk c e f v).result = .ok () := rfl

/-- What is heard of two dialogues is what is heard of the second after the first. -/
theorem heard_andThen {d : Dialogue α} {g : α → Dialogue β} {a : α} (h : d.result = .ok a) (s : State) :
    (d.andThen g).heard s = (g a).heard (d.heard s) := by
  simp only [Dialogue.andThen, h, Dialogue.heard, answersOf_append, List.length_append, List.append_assoc,
    List.drop_drop, State.mk.injEq, true_and]
  omega

/-- Behind `softReset` the phase is `Opened`, under which `configureChip` goes as it does under any other. -/
theorem initChip_given (ho : isOpen s.handle = true) (hp : s.phase ≠ .ready) (hg : Given (initTalk s.cfg e f v) s) :
    initChip s = .ok () { (initTalk s.cfg e f v).heard s with phase := .ready } := by
  obtain ⟨hanswers, hexpiries⟩ := hg
  rw [initTalk_eq, resetTalk, andThen_says, answersOf_append] at hanswers
  obtain ⟨hreset, hconf⟩ := prefix_split hanswers
  have hnotReady : requireNotReady s = .ok () s := by simp [requireNotReady, hp]
  have hsoft := softReset_given ho (e := e) ⟨hreset, List.nil_prefix⟩
  have hconfigure := plays_configureChip s.cfg e f v { (resetTalk s.cfg e).heard s with phase := .opened } rfl ho
    ⟨hconf, hexpiries⟩
  simp only [initChip_eq, op_bind, hnotReady, hsoft, hconfigure]
  rw [initTalk_eq, heard_andThen rfl]
  rfl

end

/-! ## The settle delay (rules R221, R300) -/

/-- An event that is no answered reset write. -/
def NoReset (c : Cfg) (e : Event) : Prop := isSoftResetWrite c e = false

/-- Under the default configuration the program adds no answered reset write, and keeps handle and phase. -/
abbrev AddsNoReset (x : Op α) : Prop := StaysAt NoReset Cfg.default x

theorem noReset_of_ne {c : Cfg} {e : Event} (h : writtenValue c.reg.command e ≠ some c.cmd.softReset) : NoReset c e := by
  simpa [NoReset, isSoftResetWrite] using h

theorem noReset_read (c : Cfg) (a : RegAddr) (x : ExchangeAnswer) : NoReset c (.exchange (txRead a) x) :=
  noReset_of_ne ((writtenValue_txRead a _ x).trans_ne nofun)

theorem addsNoReset_read (a : RegAddr) : AddsNoReset (readRegister a) := staysAt_readRegister (noReset_read _ a)

/-- A write to another register than `CommandReg`. -/
theorem noReset_write {a : RegAddr} (h : a ≠ 0x01) (v : Byte) (x : ExchangeAnswer) :
    NoReset Cfg.default (.exchange (txWrite a v) x) := noReset_of_ne fun hw => h (eq_of_writtenValue_txWrite hw).1

theorem addsNoReset_write {a : RegAddr} {v : Byte} (h : a ≠ 0x01 := by decide) : AddsNoReset (writeRegister a v) :=
  staysAt_writeRegister (noReset_write h v)

/-- A write of another command, to whichever register. -/
theorem addsNoReset_command {a : RegAddr} {v : Byte} (h : v ≠ 0x0F := by decide) : AddsNoReset (writeRegister a v) :=
  staysAt_writeRegister fun _ => noReset_of_ne fun hw => h (eq_of_writtenValue_txWrite hw).2

theorem addsNoReset_load (bs : List Byte) : AddsNoReset (writeRegisterBurst Cfg.default.reg.fifoData bs) :=
  staysAt_writeRegisterBurst fun x => noReset_of_ne ((writtenValue_txBurst (by decide) bs x).trans_ne nofun)

theorem addsNoReset_setBits {a : RegAddr} {m : Byte} (h : a ≠ 0x01 := by decide) : AddsNoReset (setBits a m) :=
  staysAt_setBits (noReset_read _ a) (noReset_write h)

theorem addsNoReset_clearBits {a : RegAddr} {m : Byte} (h : a ≠ 0x01 := by decide) : AddsNoReset (clearBits a m) :=
  staysAt_clearBits (noReset_read _ a) (noReset_write h)

theorem addsNoReset_poll (a : RegAddr) (m : Byte) (ms : Nat) : AddsNoReset (pollUntil a m ms) :=
  staysAt_pollUntil (noReset_read _ a) (fun _ _ => rfl) fun _ => rfl

theorem addsNoReset_require (b : Bool) (r : RefusalReason) : AddsNoReset (require b r) := (stays_require b r).at _

theorem addsNoReset_issueCommand {code : Commands → Byte} (h : code Cfg.default.cmd ≠ 0x0F := by decide) :
    AddsNoReset (issueCommand code) := staysAt_getCfg (addsNoReset_command h)

/-! ### FIFO and CRC -/

theorem addsNoReset_flushFifo : AddsNoReset flushFifo := staysAt_getCfg addsNoReset_write

theorem addsNoReset_fifoLevel : AddsNoReset fifoLevel :=
  staysAt_getCfg (staysAt_bind (addsNoReset_read _) fun _ => staysAt_pure _)

theorem addsNoReset_readFifoBytes (n : Nat) : AddsNoReset (readFifoBytes n) := by
  induction n with
  | zero => exact staysAt_pure _
  | succ n ih =>
    exact staysAt_getCfg (staysAt_bind (addsNoReset_read _) fun _ => staysAt_bind ih fun _ => staysAt_pure _)

theorem addsNoReset_calcCrc (buffer : List Byte) : AddsNoReset (calcCrc buffer) := by
  refine staysAt_bind (addsNoReset_require _ _) fun _ => staysAt_getCfg ?_
  refine staysAt_bind addsNoReset_command fun _ => staysAt_bind addsNoReset_write fun _ => ?_
  refine staysAt_bind addsNoReset_flushFifo fun _ => staysAt_bind (addsNoReset_load buffer) fun _ => ?_
  refine staysAt_bind addsNoReset_command fun _ => staysAt_bind (addsNoReset_poll _ _ _) fun ⟨v, why⟩ => ?_
  cases why with
  | deadline => exact staysAt_raise _
  | bit =>
    exact staysAt_bind (addsNoReset_read _) fun _ => staysAt_bind (addsNoReset_read _) fun _ => staysAt_pure _

theorem addsNoReset_appendCrc (f : List Byte) : AddsNoReset (appendCrc f) :=
  staysAt_bind (addsNoReset_calcCrc f) fun _ => staysAt_pure _

/-! ### Transceive -/

theorem addsNoReset_preamble (frame : List Byte) (vb : Byte) : AddsNoReset (transceivePreamble frame vb) := by
  refine staysAt_getCfg (staysAt_bind addsNoReset_command fun _ => staysAt_bind addsNoReset_write fun _ => ?_)
  refine staysAt_bind addsNoReset_flushFifo fun _ => staysAt_bind (addsNoReset_load frame) fun _ => ?_
  exact staysAt_bind addsNoReset_write fun _ => staysAt_bind addsNoReset_command fun _ => addsNoReset_setBits

theorem addsNoReset_completion (irq : Byte) : AddsNoReset (transceiveCompletion irq) := by
  refine staysAt_getCfg (staysAt_bind addsNoReset_clearBits fun _ => staysAt_bind (addsNoReset_read _) fun err => ?_)
  split
  · exact staysAt_raise _
  · exact staysAt_bind addsNoReset_fifoLevel fun n => staysAt_bind (addsNoReset_readFifoBytes n) fun _ =>
      staysAt_bind (addsNoReset_read _) fun _ => staysAt_pure _

theorem addsNoReset_transceive (frame : List Byte) (vb : Byte) (ms : Nat) : AddsNoReset (transceive frame vb ms) := by
  refine staysAt_bind (addsNoReset_require _ _) fun _ => staysAt_bind (addsNoReset_require _ _) fun _ => ?_
  refine staysAt_getCfg (staysAt_bind (addsNoReset_preamble frame vb) fun _ => ?_)
  refine staysAt_bind (addsNoReset_poll _ _ _) fun ⟨irq, _⟩ => ?_
  dsimp only
  split
  · exact staysAt_pure _
  · exact staysAt_pure _
  · exact addsNoReset_completion irq

/-! ### Card operations -/

theorem addsNoReset_requestA : AddsNoReset requestA :=
  staysAt_getCfg (staysAt_bind (addsNoReset_transceive _ _ _) fun _ => staysAt_pure _)

theorem addsNoReset_anticollCL1 : AddsNoReset anticollCL1 :=
  staysAt_getCfg (staysAt_bind addsNoReset_clearBits fun _ =>
    staysAt_bind (addsNoReset_transceive _ _ _) fun _ => staysAt_pure _)

theorem addsNoReset_selectCL1 (uid : List Byte) : AddsNoReset (selectCL1 uid) :=
  staysAt_bind (addsNoReset_require _ _) fun _ => staysAt_getCfg (staysAt_bind (addsNoReset_appendCrc _) fun _ =>
    staysAt_bind (addsNoReset_transceive _ _ _) fun _ => staysAt_pure _)

theorem addsNoReset_authenticate (input : List Byte) : AddsNoReset (authenticate input) := by
  refine staysAt_getCfg (staysAt_bind addsNoReset_command fun _ => staysAt_bind addsNoReset_write fun _ => ?_)
  refine staysAt_bind addsNoReset_flushFifo fun _ => staysAt_bind (addsNoReset_load input) fun _ => ?_
  refine staysAt_bind addsNoReset_command fun _ => staysAt_bind (addsNoReset_poll _ _ _) fun _ => ?_
  refine staysAt_bind (addsNoReset_read _) fun err => ?_
  split
  · exact staysAt_raise _
  refine staysAt_bind (addsNoReset_read _) fun status => ?_
  split
  · exact staysAt_pure _
  · exact staysAt_raise _

theorem addsNoReset_blockOperand (blk : Nat) : AddsNoReset (blockOperand blk) := (stays_blockOperand blk).at _

theorem addsNoReset_mifareAuthKeyA (blk : Nat) (key uid : List Byte) : AddsNoReset (mifareAuthKeyA blk key uid) := by
  refine staysAt_bind (addsNoReset_blockOperand blk) fun b => staysAt_bind (addsNoReset_require _ _) fun _ => ?_
  split
  · exact staysAt_raise _
  · exact staysAt_getCfg (addsNoReset_authenticate _)

theorem addsNoReset_mifareReadBlock (blk : Nat) : AddsNoReset (mifareReadBlock blk) := by
  refine staysAt_bind (addsNoReset_blockOperand blk) fun b => staysAt_getCfg ?_
  refine staysAt_bind (addsNoReset_appendCrc _) fun _ => staysAt_bind (addsNoReset_transceive _ _ _) fun r => ?_
  split
  · exact staysAt_raise _
  · exact staysAt_pure _

theorem addsNoReset_writePhase (phase : Nat) (body : List Byte) (ms : Nat) :
    AddsNoReset (writePhase phase body ms) := by
  refine staysAt_getCfg (staysAt_bind (addsNoReset_appendCrc _) fun _ => ?_)
  refine staysAt_bind (addsNoReset_transceive _ _ _) fun r => ?_
  split
  · exact staysAt_pure _
  · exact staysAt_raise _

theorem addsNoReset_mifareWriteBlock (blk : Nat) (payload : List Byte) : AddsNoReset (mifareWriteBlock blk payload) :=
  staysAt_bind (addsNoReset_blockOperand blk) fun _ => staysAt_getCfg
    (staysAt_bind (addsNoReset_writePhase _ _ _) fun _ => addsNoReset_writePhase _ _ _)

theorem addsNoReset_detectCard : AddsNoReset detectCard := by
  refine staysAt_bind addsNoReset_requestA fun a => ?_
  cases a with
  | none => exact staysAt_pure _
  | some atqa =>
    refine staysAt_bind addsNoReset_anticollCL1 fun u => ?_
    cases u with
    | none => exact staysAt_pure _
    | some uid => exact staysAt_bind (addsNoReset_selectCL1 _) fun _ => staysAt_pure _

/-! ### The lifecycle -/

theorem addsNoReset_antennaOn : AddsNoReset antennaOn := by
  refine staysAt_getCfg (staysAt_bind (addsNoReset_read _) fun v => ?_)
  split
  · exact staysAt_pure _
  · exact addsNoReset_write

theorem addsNoReset_configureChip : AddsNoReset configureChip := by
  refine staysAt_getCfg (staysAt_bind addsNoReset_write fun _ => staysAt_bind addsNoReset_write fun _ => ?_)
  refine staysAt_bind addsNoReset_write fun _ => staysAt_bind addsNoReset_write fun _ => ?_
  exact staysAt_bind addsNoReset_write fun _ => staysAt_bind addsNoReset_write fun _ => addsNoReset_antennaOn

/-! ## Programs that keep the settle delay -/

theorem settleKept_cons {c : Cfg} {e : Event} (h : NoReset c e) (es : List Event) :
    settleKept c (e :: es) = settleKept c es := by
  rw [NoReset] at h
  cases es <;> simp [settleKept, h]

theorem settleKept_of_noReset {c : Cfg} {es : List Event} (h : ∀ e ∈ es, NoReset c e) : settleKept c es = true := by
  induction es with
  | nil => rfl
  | cons e es ih =>
    rw [settleKept_cons (h e (by simp))]
    exact ih fun f hf => h f (by simp [hf])

/-- A list that keeps the delay does not end with a reset write, so what follows it does not matter to it. -/
theorem settleKept_append {c : Cfg} {es fs : List Event} (h : settleKept c es = true) (k : settleKept c fs = true) :
    settleKept c (es ++ fs) = true := by
  induction es with
  | nil => exact k
  | cons e es ih =>
    cases es with
    | nil => rwa [List.cons_append, settleKept_cons (by simpa [settleKept, NoReset] using h)]
    | cons f rest =>
      simp only [List.cons_append, settleKept, Bool.and_eq_true] at h ih ⊢
      exact ⟨h.1, ih h.2⟩

/-- From `s` to `t` under the default configuration: the events added keep the settle delay. -/
structure Settles (s t : State) : Prop where
  cfg : t.cfg = s.cfg
  events : ∃ es, t.events = s.events ++ es ∧ settleKept Cfg.default es = true

theorem Settles.silent {s t : State} (hc : t.cfg = s.cfg) (he : t.events = s.events) : Settles s t :=
  ⟨hc, [], by simp [he], rfl⟩

theorem Settles.trans {s t u : State} (h : Settles s t) (k : Settles t u) : Settles s u := by
  obtain ⟨hc, es, he, hes⟩ := h
  obtain ⟨kc, fs, kf, kfs⟩ := k
  exact ⟨kc.trans hc, es ++ fs, by rw [kf, he, List.append_assoc], settleKept_append hes kfs⟩

/-- One event that is no reset write. -/
theorem Settles.single {s t : State} {e : Event} (hc : t.cfg = s.cfg) (he : t.events = s.events ++ [e])
    (hn : NoReset Cfg.default e) : Settles s t := ⟨hc, [e], he, settleKept_of_noReset (by simpa using hn)⟩

/-- Run under the default configuration, the program keeps the settle delay, however it ends. -/
def KeepsSettle (x : Op α) : Prop := ∀ s, s.cfg = Cfg.default → Settles s (reached (x s))

theorem AddsNoReset.keepsSettle {x : Op α} (h : AddsNoReset x) : KeepsSettle x := by
  intro s hs
  obtain ⟨es, he, hn⟩ := (h s hs).events
  exact ⟨(h s hs).cfg, es, he, settleKept_of_noReset (hs ▸ hn)⟩

theorem keepsSettle_bind {x : Op α} {f : α → Op β} (hx : KeepsSettle x) (hf : ∀ a, KeepsSettle (f a)) :
    KeepsSettle (x >>= f) := by
  intro s hs
  have h := hx s hs
  rw [op_bind]
  cases hr : x s with
  | ok a t => rw [hr] at h; exact h.trans (hf a t (h.cfg.trans hs))
  | error e t => rw [hr] at h; exact h

/-- The sleep is the next event behind the answered write; behind a failed one there is no event. -/
theorem keepsSettle_softReset : KeepsSettle softReset := by
  intro s hs
  cases ho : isOpen s.handle with
  | false => rw [softReset_closed ho]; exact .silent rfl rfl
  | true =>
    cases he : exchangeEnd (resetBytes s.cfg) (nextAnswer s (resetBytes s.cfg)) with
    | ok rx =>
      rw [softReset_of_ok ho he]
      refine ⟨rfl, [_, .sleep Config.tSettle], List.append_assoc _ [_] [_], ?_⟩
      simp [settleKept, isSoftResetWrite, writtenValue]
    | error r =>
      rw [softReset_of_error ho he]
      exact .single rfl rfl (noReset_of_ne ((writtenValue_failed he).trans_ne nofun))

theorem keepsSettle_requireNotReady : KeepsSettle requireNotReady := fun s hs =>
  (addsNoReset_require (decide (s.phase ≠ .ready)) .alreadyInitialised).keepsSettle s hs

theorem keepsSettle_initChip : KeepsSettle initChip := by
  rw [initChip_eq]
  exact keepsSettle_bind keepsSettle_requireNotReady fun _ => keepsSettle_bind keepsSettle_softReset fun _ =>
    keepsSettle_bind addsNoReset_configureChip.keepsSettle fun _ _ _ => .silent rfl rfl

theorem keepsSettle_openTransport (bus dev hz : Nat) : KeepsSettle (openTransport bus dev hz) := by
  intro s _
  cases ho : isOpen s.handle with
  | true => rw [openTransport_opened bus dev hz ho]; exact .silent rfl rfl
  | false =>
    rw [openTransport_closed bus dev hz (isOpen_false.1 ho)]
    cases s.links.headD (Config.freeLink s.draws) <;> exact .single rfl rfl rfl

theorem keepsSettle_closeTransport : KeepsSettle closeTransport := by
  intro s _
  cases ho : isOpen s.handle with
  | true => rw [closeTransport_opened ho]; exact .single rfl rfl rfl
  | false => rw [closeTransport_closed (isOpen_false.1 ho)]; exact .silent rfl rfl

/-! ### Calls and steps -/

theorem keepsSettle_onOpenHandle {x : Op α} (h : KeepsSettle x) : KeepsSettle (onOpenHandle x) :=
  keepsSettle_bind (AddsNoReset.keepsSettle (stays_requireOpen.at _)) fun _ => h

theorem settles_hostCall {x : Op α} (hx : KeepsSettle x) (value : α → Value) {s : State} (hs : s.cfg = Cfg.default) :
    Settles s (hostCall x value s) := by
  have h : Settles s (reached (x { s with busy := true })) := { hx { s with busy := true } hs with }
  rcases hostCall_cases x value s with ⟨-, he⟩ | ⟨-, a, t, hr, he⟩ | ⟨-, e, t, hr, he⟩ | ⟨-, r, t, hr, he⟩
  · rw [he]
    exact .silent rfl rfl
  all_goals
    rw [hr] at h
    rw [he]
    exact { h with }

theorem settles_innerStep {x : Op α} (hx : KeepsSettle x) (value : α → Value) {s : State} (hs : s.cfg = Cfg.default) :
    Settles s (innerStep x value s) := by
  have h := hx s hs
  rcases innerStep_cases x value s with ⟨a, t, hr, he⟩ | ⟨e, t, hr, he⟩ | ⟨r, t, hr, he⟩
  all_goals
    rw [hr] at h
    rw [he]
    exact { h with }

/-- An instruction is a host call or an inner step of a program that keeps the settle delay. -/
inductive SettleMeant (i : Instr) : Prop
  | call {α : Type} {x : Op α} {value : α → Value} (hx : KeepsSettle x)
      (h : ∀ s, exec i s = .next (hostCall x value s))
  | step {α : Type} {x : Op α} {value : α → Value} (hx : KeepsSettle x)
      (h : ∀ s, exec i s = .next (innerStep x value s))

/-- A call of the host on an open handle. -/
theorem settleMeant_openCall {i : Instr} {x : Op α} {value : α → Value} (hx : AddsNoReset x)
    (h : ∀ s, exec i s = .next (hostCall (onOpenHandle x) value s)) : SettleMeant i :=
  .call (keepsSettle_onOpenHandle hx.keepsSettle) h

theorem settleMeant_cardCall {i : Instr} {x : Op α} {value : α → Value} (hx : AddsNoReset x)
    (h : ∀ s, exec i s = .next (hostCall (whenReady x) value s)) : SettleMeant i :=
  settleMeant_openCall (staysAt_bind (stays_requireReady.at _) fun _ => hx) h

theorem settleMeant_openStep {i : Instr} {x : Op α} {value : α → Value} (hx : AddsNoReset x)
    (h : ∀ s, exec i s = .next (innerStep (onOpenHandle x) value s)) : SettleMeant i :=
  .step (keepsSettle_onOpenHandle hx.keepsSettle) h

theorem exec_settleMeant {i : Instr} (hraw : isRaw i = false) (hi : i ≠ .cmdSoftReset) : SettleMeant i := by
  cases i with
  | writeRegister | writeRegisterBurst | setBits | clearBits | spiWriteByte | spiBurstWrite => cases hraw
  | cmdSoftReset => exact absurd rfl hi
  | openTransport bus dev hz => exact .call (keepsSettle_openTransport bus dev hz) fun _ => rfl
  | close => exact .call keepsSettle_closeTransport fun _ => rfl
  | softReset => exact .call (keepsSettle_onOpenHandle keepsSettle_softReset) fun _ => rfl
  | init => exact .call (keepsSettle_onOpenHandle keepsSettle_initChip) fun _ => rfl
  | readRegister a =>
    exact settleMeant_openCall (staysAt_bind ((stays_registerOperand a).at _) addsNoReset_read) fun _ => rfl
  | flushFifo => exact settleMeant_openCall addsNoReset_flushFifo fun _ => rfl
  | fifoLevel => exact settleMeant_openCall addsNoReset_fifoLevel fun _ => rfl
  | readFifoBytes n => exact settleMeant_openCall (addsNoReset_readFifoBytes n) fun _ => rfl
  | calcCrc buffer => exact settleMeant_openCall (addsNoReset_calcCrc buffer) fun _ => rfl
  | transceive frame vb ms => exact settleMeant_openCall (addsNoReset_transceive frame vb ms) fun _ => rfl
  | requestA => exact settleMeant_cardCall addsNoReset_requestA fun _ => rfl
  | anticollCL1 => exact settleMeant_cardCall addsNoReset_anticollCL1 fun _ => rfl
  | selectCL1 uid => exact settleMeant_cardCall (addsNoReset_selectCL1 uid) fun _ => rfl
  | mifareAuthKeyA blk key uid => exact settleMeant_cardCall (addsNoReset_mifareAuthKeyA blk key uid) fun _ => rfl
  | mifareReadBlock blk => exact settleMeant_cardCall (addsNoReset_mifareReadBlock blk) fun _ => rfl
  | mifareWriteBlock blk payload => exact settleMeant_cardCall (addsNoReset_mifareWriteBlock blk payload) fun _ => rfl
  | detectCard => exact settleMeant_cardCall addsNoReset_detectCard fun _ => rfl
  | isTrailerBlock | ensure16Bytes => exact .call (AddsNoReset.keepsSettle (staysAt_pure _)) fun _ => rfl
  | pollUntil a m ms => exact settleMeant_openStep (addsNoReset_poll a m ms) fun _ => rfl
  | antennaOn => exact settleMeant_openStep addsNoReset_antennaOn fun _ => rfl
  | spiReadByte a =>
    exact .step (AddsNoReset.keepsSettle (staysAt_exchange (noReset_read _ a))) fun _ => rfl
  | cmdIdle | cmdCalcCrc | cmdTransceive | cmdMfAuthent =>
    exact .step (addsNoReset_issueCommand).keepsSettle fun _ => rfl
  | piccReqa | piccAnticoll | piccSelect | mfRead | mfWrite =>
    exact settleMeant_openStep (staysAt_getCfg (addsNoReset_transceive _ _ _)) fun _ => rfl
  | mfAuthKeyA blk key uid =>
    exact settleMeant_openStep (staysAt_getCfg (staysAt_bind (addsNoReset_require _ _) fun _ =>
      addsNoReset_authenticate _)) fun _ => rfl
  | mfAck high fourBits =>
    exact .step (AddsNoReset.keepsSettle (staysAt_getCfg (f := fun c => pure (isAck c (ackAnswer c high fourBits)))
      (staysAt_pure _))) fun _ => rfl

end Sys2Proof.Machine

/-! ## The lifecycle family

These theorems have the names of the operations they speak of, so they stand in a namespace of their own. -/

namespace Sys2Proof.Lifecycle

open Machine

/-- Settles O51: the reset write of `softReset`, alone or in `init`, has its sleep behind it, and no other program writes
the reset command. -/
theorem settleKept : Obligations.SettleKept := by
  intro i s t hs hraw hi h
  have hsettles : Settles s t := by
    rcases exec_settleMeant hraw hi with ⟨hx, hi⟩ | ⟨hx, hi⟩ <;> cases (hi s).symm.trans h
    · exact settles_hostCall hx _ hs
    · exact settles_innerStep hx _ hs
  obtain ⟨es, he, hkept⟩ := hsettles.events
  rwa [newEvents, he, List.drop_left]

/-- Settles O43: `softReset` and `configureChip` go as their dialogues, and the phase set last is `Ready`. -/
theorem initChip : Obligations.InitChip := by
  intro s e f v hs hp hg
  have ⟨ho, hb⟩ := hs
  refine congrArg Host.Outcome.next ?_
  rw [openCall_of_ok _ hs (initChip_given (s := { s with busy := true }) ho hp hg)]
  simp [report, leaveOperation, Dialogue.endState, Dialogue.heard, initTalk_result, endOutcome, hb]

/-- Settles O33: the step goes as its dialogue. -/
theorem antennaOn : Obligations.AntennaOn := by
  intro s e v ho hg
  exact congrArg _ (innerStep_plays _ (plays_antennaOn s.cfg e v) ho hg (answered_says _ _))

/-- Settles O42: the end of the one exchange decides whether the call returns or raises. -/
theorem softReset : Obligations.SoftReset := by
  intro s hs tx
  have ⟨ho, hb⟩ := hs
  have htx : tx = resetBytes s.cfg := rfl
  clear_value tx
  subst htx
  refine ⟨fun rx hrx hl => congrArg Host.Outcome.next ?_, fun r hr => congrArg Host.Outcome.next ?_⟩
  · have hend : exchangeEnd (resetBytes s.cfg) (nextAnswer s (resetBytes s.cfg)) = .ok rx := by
      rw [hrx]
      exact if_pos hl
    rw [openCall_of_ok _ hs (softReset_of_ok (s := { s with busy := true }) ho hend), asked_busy]
    simp [report, leaveOperation, asked, hrx, hb, Config.tSettle]
  · rw [openCall_of_raise _ hs (softReset_of_error (s := { s with busy := true }) ho hr), asked_busy]
    simp [exchanged, hr, report, enterError, asked, isTransport, ho]

end Sys2Proof.Lifecycle
end

section
/-! SUPPORT. The host boundary family: the reference cycle asked for a write that the host's policy forbids is
`detectCard` as one call, and `detectCard` loads no write command (obligation O58). -/

namespace Sys2Proof.Machine

variable {α β : Type}

/-! ## Programs that load no write command (rules R92, R202) -/

/-- No load of the FIFO begins with the write command. -/
def NoWriteLoad (es : List Event) : Prop := ∀ load ∈ loadsOf Cfg.default es, load.head? ≠ some 0xA0

/-- Under the default configuration and with the handle open, the program loads no write command, however it ends. -/
abbrev LoadsNoWrite (x : Op α) : Prop := Leads NoWriteLoad x (fun _ => NoWriteLoad) fun _ => NoWriteLoad

variable {es fs : List Event} {frame : List Byte}

theorem noWriteLoad_nil : NoWriteLoad [] := nofun

theorem NoWriteLoad.append (h : NoWriteLoad es) (k : NoWriteLoad fs) : NoWriteLoad (es ++ fs) := by
  intro load hm
  rw [loadsOf_append, List.mem_append] at hm
  exact hm.elim (h load) (k load)

/-- The loads are a beginning of frames none of which is a write command. -/
theorem noWriteLoad_of_prefix {all : List (List Byte)} (h : loadsOf Cfg.default es <+: all)
    (hall : ∀ load ∈ all, load.head? ≠ some 0xA0) : NoWriteLoad es := fun load hm => hall load (h.subset hm)

/-- What a program loads from an empty history, it loads behind any other. -/
theorem loadsNoWrite_of_ready {x : Op α} {Q : α → List Event → Prop} {E : Stop → List Event → Prop}
    (hx : Leads (Ready []) x Q E) (hq : ∀ a es, Q a es → NoWriteLoad es) (he : ∀ e es, E e es → NoWriteLoad es) :
    LoadsNoWrite x := by
  intro s t hs
  obtain ⟨es, hes, hn⟩ := hs.events
  have behind {u : State} (h : Since t NoWriteLoad u) : Since s NoWriteLoad u :=
    have ⟨fs, hfs, hm⟩ := h.events
    ⟨h.cfg, h.opened, h.outcomes.trans hs.outcomes, es ++ fs, by rw [hfs, hes, List.append_assoc], hn.append hm⟩
  have h := hx.imp hq he t t ⟨hs.cfg, hs.opened, rfl, [], (List.append_nil _).symm, ready_nil⟩
  cases hr : x t with
  | ok a u => rw [hr] at h; exact behind h
  | error e u => rw [hr] at h; exact behind h

theorem loadsNoWrite_calcCrc {body : List Byte} (hb : body.head? ≠ some 0xA0) : LoadsNoWrite (calcCrc body) :=
  have hall : ∀ load ∈ [body], load.head? ≠ some 0xA0 := List.forall_mem_singleton.2 hb
  loadsNoWrite_of_ready (leads_calcCrcLoad body nofun)
    (fun _ _ h => noWriteLoad_of_prefix (h.loads ▸ List.prefix_rfl) hall)
    fun _ _ h => noWriteLoad_of_prefix h.2.loads hall

theorem loadsNoWrite_transceive (hf : frame.head? ≠ some 0xA0) (vb : Byte) (ms : Nat) :
    LoadsNoWrite (transceive frame vb ms) :=
  have hall : ∀ load ∈ [frame], load.head? ≠ some 0xA0 := List.forall_mem_singleton.2 hf
  loadsNoWrite_of_ready (leads_transceiveLoad frame vb ms)
    (fun _ _ ⟨_, h, _⟩ => noWriteLoad_of_prefix (h.loads ▸ List.prefix_rfl) hall)
    fun _ _ h => noWriteLoad_of_prefix h.2.loads hall

/-- An update of a register other than the FIFO and the control register. -/
theorem loadsNoWrite_clearBits {a : RegAddr} (h9 : a ≠ 0x09) (hC : a ≠ 0x0C) (m : Byte) :
    LoadsNoWrite (clearBits a m) :=
  have keeps : Keeps [] (Ready []) := keeps_ready List.nil_prefix
  loadsNoWrite_of_ready (leads_bind (keeps.read h9 hC) fun _ => keeps.write h9 _)
    (fun _ es h => noWriteLoad_of_prefix (keeps.partWay es h).loads nofun)
    fun _ _ h => noWriteLoad_of_prefix h.2.loads nofun

theorem loadsNoWrite_bind {x : Op α} {f : α → Op β} (hx : LoadsNoWrite x) (hf : ∀ a, LoadsNoWrite (f a)) :
    LoadsNoWrite (x >>= f) := leads_bind hx hf

theorem loadsNoWrite_pure (a : α) : LoadsNoWrite (pure a : Op α) := leads_pure fun _ h => h

/-- A frame with its CRC begins as its body does (rule R94). -/
theorem loadsNoWrite_crcTransceive {b : Byte} {rest : List Byte} (hb : b ≠ 0xA0) (vb : Byte) (ms : Nat) :
    LoadsNoWrite (appendCrc (b :: rest) >>= fun frame => transceive frame vb ms) := by
  rw [appendCrc, bind_assoc]
  refine loadsNoWrite_bind (loadsNoWrite_calcCrc (by simpa using hb)) fun crc => ?_
  rw [pure_bind]
  exact loadsNoWrite_transceive (by simpa using hb) vb ms

theorem loadsNoWrite_requestA : LoadsNoWrite requestA :=
  leads_getCfg (loadsNoWrite_bind (loadsNoWrite_transceive (by decide) _ _) fun _ => loadsNoWrite_pure _)

theorem loadsNoWrite_anticollCL1 : LoadsNoWrite anticollCL1 :=
  leads_getCfg (loadsNoWrite_bind (loadsNoWrite_clearBits (by decide) (by decide) _) fun _ =>
    loadsNoWrite_bind (loadsNoWrite_transceive (by decide) _ _) fun _ => loadsNoWrite_pure _)

theorem loadsNoWrite_selectCL1 (uid : List Byte) : LoadsNoWrite (selectCL1 uid) := by
  refine leads_require (fun _ _ h => h) fun _ => leads_getCfg ?_
  rw [← bind_assoc]
  exact loadsNoWrite_bind (loadsNoWrite_crcTransceive (by decide) _ _) fun _ => loadsNoWrite_pure _

theorem loadsNoWrite_detectCard : LoadsNoWrite detectCard := by
  refine loadsNoWrite_bind loadsNoWrite_requestA fun a => ?_
  cases a with
  | none => exact loadsNoWrite_pure _
  | some atqa =>
    refine loadsNoWrite_bind loadsNoWrite_anticollCL1 fun u => ?_
    cases u with
    | none => exact loadsNoWrite_pure _
    | some uid => exact loadsNoWrite_bind (loadsNoWrite_selectCL1 _) fun _ => loadsNoWrite_pure _

/-! ## Calls of the host inside its own program (rule R238) -/

/-- A call inside the host's program reaches the state of the same call put on its own. -/
theorem reached_called (x : Op α) (value : α → Value) (s : State) :
    reached (called x value s) = hostCall x value s := by
  unfold called hostCall
  cases asHostCall x s with
  | ok a t => rfl
  | error e t => cases e <;> rfl

/-- A call of a card operation that loads no write command, refused or not. -/
theorem noWriteLoad_called {x : Op α} (hx : LoadsNoWrite x) (value : α → Value) {s : State}
    (hs : s.cfg = Cfg.default) : NoWriteLoad (newEvents s (reached (called (whenReady x) value s))) := by
  have hready : LoadsNoWrite (requireReady >>= fun _ => x) := leads_requireReady (fun _ h => h) hx
  rw [reached_called]
  cases hostCall_ends hready noWriteLoad_nil value hs with
  | returned _ _ h | raised _ _ h | refused _ _ h => exact h
  | notBegun _ _ _ h => exact h ▸ noWriteLoad_nil

/-! ## The reference cycle (rules R238, R240) -/

/-- How the cycle ends behind `detectCard` when it is asked for a write that is not allowed. -/
def refusedResult : Option Card → CycleResult
  | none => .nothing
  | some _ => .writeNotAllowed

theorem referenceCycle_forbidden {inp : CycleInput} (ha : inp.action = .write) (hw : writeAllowed inp.blk = false) :
    referenceCycle inp = called (whenReady detectCard) cardValue >>= fun found => pure (refusedResult found) := by
  unfold referenceCycle
  congr 1
  funext found
  cases found <;> simp [ha, hw, refusedResult]

/-- A result computed from a program's value changes nothing of the state. -/
theorem reached_bind_pure (x : Op α) (f : α → β) (s : State) :
    reached ((x >>= fun a => pure (f a)) s) = reached (x s) := by
  rw [op_bind]
  cases x s <;> rfl

theorem referenceCycle_forbidden_result {inp : CycleInput} {s t : State} {r : CycleResult} (ha : inp.action = .write)
    (hw : writeAllowed inp.blk = false) (h : referenceCycle inp s = .ok r t) : r = .nothing ∨ r = .writeNotAllowed := by
  rw [referenceCycle_forbidden ha hw, op_bind] at h
  cases hc : called (whenReady detectCard) cardValue s with
  | error e u => simp [hc] at h
  | ok found u =>
    rw [hc] at h
    cases h
    cases found with
    | none => exact .inl rfl
    | some _ => exact .inr rfl

theorem referenceCycle_forbidden_loads {inp : CycleInput} {s : State} (hs : s.cfg = Cfg.default)
    (ha : inp.action = .write) (hw : writeAllowed inp.blk = false) :
    NoWriteLoad (newEvents s (reached (referenceCycle inp s))) := by
  rw [referenceCycle_forbidden ha hw, reached_bind_pure]
  exact noWriteLoad_called loadsNoWrite_detectCard cardValue hs

theorem writeAllowed_iff (b : Nat) : writeAllowed b = true ↔ b ≠ 0 ∧ b % 4 ≠ 3 := by
  simp [writeAllowed, trailerBlock]

/-- Settles O58: asked for a forbidden write, the cycle is `detectCard` and a result made of what it found; none of the
frames of `detectCard` begins with the write command. -/
theorem writePolicy : Obligations.WritePolicy := by
  refine ⟨writeAllowed_iff, fun _ _ => beq_iff_eq, fun inp s t hs ha hw => ⟨fun r h => ?_, fun h => ?_⟩⟩
  · exact referenceCycle_forbidden_result ha hw h
  · have hloads := referenceCycle_forbidden_loads hs ha hw
    obtain ⟨r, hr⟩ | ⟨e, hr⟩ := h <;> rw [hr] at hloads <;> exact hloads

end Sys2Proof.Machine
end

section
/-! SUPPORT. The exceptions family: how an instruction ends (obligations O13 to O16 and O23). A program first tests its
operands and then proceeds. Behind the tests nothing is refused (`Proceeds`), so a refusal comes while the state is
still the one the program began in (`Starts`, `Begins`). `exec_ends` says once what an instruction can end in. -/

namespace Sys2Proof.Machine

variable {α β : Type}

/-! ## Programs behind their operand tests (rules R119, R255, R263) -/

/-- From `s` to `t` handle, mark and outcomes stayed, and so did the phase unless the program is one that sets it. -/
structure Kept (resets : Bool) (s t : State) : Prop where
  handle : t.handle = s.handle
  refused : t.refused = s.refused
  outcomes : t.outcomes = s.outcomes
  phase : resets = true ∨ t.phase = s.phase

/-- The errors behind the operand tests: those of the transport, and in a program that does not set the phase all others
but the one about a key (rules R251, R257). -/
def Permitted (resets : Bool) (e : Error) : Prop :=
  isTransport e = true ∨ resets = false ∧ ∀ n, e ≠ .invalidKeyLength n

/-- The end of a program from `s` that refuses nothing, with a value that satisfies `Q` if it returns. -/
def Proceeded (resets : Bool) (s : State) (Q : α → Prop) : EStateM.Result Stop State α → Prop
  | .ok a t => Kept resets s t ∧ Q a
  | .error (.raise e) t => Kept resets s t ∧ Permitted resets e
  | .error (.refuse _) _ => False

/-- On an open handle the program refuses nothing. -/
def Proceeds (resets : Bool) (x : Op α) (Q : α → Prop := fun _ => True) : Prop :=
  ∀ s, isOpen s.handle = true → Proceeded resets s Q (x s)

variable {resets : Bool} {Q : α → Prop} {R : β → Prop}

theorem Kept.refl (s : State) : Kept resets s s := ⟨rfl, rfl, rfl, .inr rfl⟩

theorem Kept.trans {s t u : State} (h : Kept resets s t) (k : Kept resets t u) : Kept resets s u :=
  ⟨k.handle.trans h.handle, k.refused.trans h.refused, k.outcomes.trans h.outcomes,
    h.phase.elim .inl fun h => k.phase.imp_right fun k => k.trans h⟩

theorem Proceeded.behind {s t : State} {r : EStateM.Result Stop State β} (k : Proceeded resets t R r)
    (h : Kept resets s t) : Proceeded resets s R r := by
  rcases r with ⟨b, u⟩ | ⟨e | q, u⟩
  · exact ⟨h.trans k.1, k.2⟩
  · exact ⟨h.trans k.1, k.2⟩
  · exact k

theorem proceeds_pure {a : α} (h : Q a) : Proceeds resets (pure a) Q := fun s _ => ⟨.refl s, h⟩

theorem proceeds_value (a : α) : Proceeds resets (pure a) := proceeds_pure trivial

theorem proceeds_raise {e : Error} (h : Permitted resets e) : Proceeds resets (raise e : Op α) Q :=
  fun s _ => ⟨.refl s, h⟩

theorem proceeds_bind {x : Op α} {f : α → Op β} (hx : Proceeds resets x Q) (hf : ∀ a, Q a → Proceeds resets (f a) R) :
    Proceeds resets (x >>= f) R := by
  intro s hs
  have h := hx s hs
  rw [op_bind]
  rcases hr : x s with ⟨a, t⟩ | ⟨e | r, t⟩ <;> rw [hr] at h
  · obtain ⟨hk, ha⟩ := h
    exact (hf a ha t (hk.handle ▸ hs)).behind hk
  · exact h
  · exact h

/-- A sequence in which the second program proceeds whatever the value of the first. -/
theorem proceeds_then {x : Op α} {f : α → Op β} (hx : Proceeds resets x Q) (hf : ∀ a, Proceeds resets (f a) R) :
    Proceeds resets (x >>= f) R := proceeds_bind hx fun a _ => hf a

theorem proceeds_getCfg {f : Cfg → Op α} (hf : ∀ c, Proceeds resets (f c) Q) : Proceeds resets (getCfg >>= f) Q :=
  fun s hs => hf s.cfg s hs

theorem proceeds_ite {p : Prop} [Decidable p] {x y : Op α} (hx : Proceeds resets x Q) (hy : Proceeds resets y Q) :
    Proceeds resets (if p then x else y) Q := by split <;> assumption

/-- An operand test that the operand passes. -/
theorem proceeds_require {p : Prop} [Decidable p] {r : RefusalReason} {f : Unit → Op α} (hp : p)
    (hf : Proceeds resets (f ()) Q) : Proceeds resets (require (decide p) r >>= f) Q := by
  rw [require_of hp]; exact hf

theorem proceeds_record (e : Event) : Proceeds resets (record e) := fun s _ => ⟨{ Kept.refl s with }, trivial⟩

theorem proceeds_drawExpiry : Proceeds resets drawExpiry := fun s _ => by
  rw [drawExpiry_apply]
  exact ⟨{ Kept.refl s with }, trivial⟩

theorem proceeds_setPhase (p : Phase) : Proceeds true (setPhase p) := fun _ _ => ⟨⟨rfl, rfl, rfl, .inl rfl⟩, trivial⟩

/-! ### The register interface -/

/-- The handle is open, so the exchange is put, and what can go wrong is the transport. -/
theorem proceeds_exchange (tx : List Byte) : Proceeds resets (exchange tx) := by
  intro s hs
  have hk : Kept resets s (asked s tx) := ⟨rfl, rfl, rfl, .inr rfl⟩
  rw [exchange_open tx hs]
  cases exchangeEnd tx (nextAnswer s tx) with
  | ok rx => exact ⟨hk, trivial⟩
  | error r => exact ⟨hk, .inl rfl⟩

theorem proceeds_readRegister (a : RegAddr) : Proceeds resets (readRegister a) :=
  proceeds_then (proceeds_exchange _) fun _ => proceeds_value _

theorem proceeds_writeRegister (a : RegAddr) (v : Byte) : Proceeds resets (writeRegister a v) :=
  proceeds_then (proceeds_exchange _) fun _ => proceeds_value _

theorem proceeds_writeRegisterBurst (a : RegAddr) (bs : List Byte) : Proceeds resets (writeRegisterBurst a bs) :=
  proceeds_then (proceeds_exchange _) fun _ => proceeds_value _

theorem proceeds_setBits (a : RegAddr) (m : Byte) : Proceeds resets (setBits a m) :=
  proceeds_then (proceeds_readRegister a) fun _ => proceeds_writeRegister a _

theorem proceeds_clearBits (a : RegAddr) (m : Byte) : Proceeds resets (clearBits a m) :=
  proceeds_then (proceeds_readRegister a) fun _ => proceeds_writeRegister a _

theorem proceeds_pollLoop (a : RegAddr) (stopMask : Byte) (k : Nat) : Proceeds resets (pollLoop a stopMask k) := by
  induction k with
  | zero =>
    exact proceeds_then (proceeds_readRegister a) fun _ => proceeds_ite (proceeds_value _)
      (proceeds_then (proceeds_record _) fun _ => proceeds_value _)
  | succ k ih =>
    exact proceeds_then (proceeds_readRegister a) fun _ => proceeds_ite (proceeds_value _)
      (proceeds_then (proceeds_record _) fun _ => ih)

theorem proceeds_pollUntil (a : RegAddr) (stopMask : Byte) (ms : Nat) : Proceeds resets (pollUntil a stopMask ms) :=
  proceeds_then (proceeds_record _) fun _ => proceeds_then proceeds_drawExpiry fun k => proceeds_pollLoop a stopMask k

theorem proceeds_issueCommand (code : Commands → Byte) : Proceeds resets (issueCommand code) :=
  proceeds_getCfg fun _ => proceeds_writeRegister _ _

/-! ### FIFO and CRC -/

theorem proceeds_flushFifo : Proceeds resets flushFifo := proceeds_getCfg fun _ => proceeds_writeRegister _ _

theorem proceeds_fifoLevel : Proceeds resets fifoLevel :=
  proceeds_getCfg fun _ => proceeds_then (proceeds_readRegister _) fun _ => proceeds_value _

theorem proceeds_readFifoBytes (n : Nat) : Proceeds resets (readFifoBytes n) := by
  induction n with
  | zero => exact proceeds_value _
  | succ n ih =>
    exact proceeds_getCfg fun _ => proceeds_then (proceeds_readRegister _) fun _ => proceeds_then ih fun _ =>
      proceeds_value _

/-- The CRC of a buffer that fits the FIFO has two bytes. -/
theorem proceeds_calcCrc {buffer : List Byte} (hl : buffer.length ≤ 64) :
    Proceeds false (calcCrc buffer) fun crc => crc.length = 2 := by
  refine proceeds_require hl (proceeds_getCfg fun c => ?_)
  refine proceeds_then (proceeds_writeRegister _ _) fun _ => proceeds_then (proceeds_writeRegister _ _) fun _ => ?_
  refine proceeds_then proceeds_flushFifo fun _ => proceeds_then (proceeds_writeRegisterBurst _ _) fun _ => ?_
  refine proceeds_then (proceeds_writeRegister _ _) fun _ => proceeds_then (proceeds_pollUntil _ _ _) fun ⟨v, why⟩ => ?_
  cases why with
  | deadline => exact proceeds_raise (.inr ⟨rfl, nofun⟩)
  | bit =>
    exact proceeds_then (proceeds_readRegister _) fun _ => proceeds_then (proceeds_readRegister _) fun _ =>
      proceeds_pure rfl

theorem proceeds_appendCrc {f : List Byte} (hl : f.length ≤ 64) :
    Proceeds false (appendCrc f) fun frame => frame.length = f.length + 2 :=
  proceeds_bind (proceeds_calcCrc hl) fun crc hcrc => proceeds_pure (by rw [List.length_append, hcrc])

/-! ### Transceive -/

theorem proceeds_transceivePreamble (frame : List Byte) (vb : Byte) :
    Proceeds resets (transceivePreamble frame vb) := by
  refine proceeds_getCfg fun c => proceeds_then (proceeds_writeRegister _ _) fun _ => ?_
  refine proceeds_then (proceeds_writeRegister _ _) fun _ => proceeds_then proceeds_flushFifo fun _ => ?_
  refine proceeds_then (proceeds_writeRegisterBurst _ _) fun _ => proceeds_then (proceeds_writeRegister _ _) fun _ => ?_
  exact proceeds_then (proceeds_writeRegister _ _) fun _ => proceeds_setBits _ _

theorem proceeds_transceiveCompletion (irq : Byte) : Proceeds false (transceiveCompletion irq) :=
  proceeds_getCfg fun _ => proceeds_then (proceeds_clearBits _ _) fun _ =>
    proceeds_then (proceeds_readRegister _) fun _ => proceeds_ite (proceeds_raise (.inr ⟨rfl, nofun⟩))
      (proceeds_then proceeds_fifoLevel fun n => proceeds_then (proceeds_readFifoBytes n) fun _ =>
        proceeds_then (proceeds_readRegister _) fun _ => proceeds_value _)

theorem proceeds_transceive {frame : List Byte} {vb : Byte} (hv : vb.toNat ≤ 7)
    (hl : 1 ≤ frame.length ∧ frame.length ≤ 64) (ms : Nat) : Proceeds false (transceive frame vb ms) := by
  refine proceeds_require hv (proceeds_require hl (proceeds_getCfg fun c => ?_))
  refine proceeds_then (proceeds_transceivePreamble frame vb) fun _ =>
    proceeds_then (proceeds_pollUntil _ _ _) fun ⟨irq, _⟩ => ?_
  dsimp only
  split
  · exact proceeds_value _
  · exact proceeds_value _
  · exact proceeds_transceiveCompletion irq

/-- A frame that leaves the FIFO room for its CRC, and what is made of the answer to it. -/
theorem proceeds_crcTransceive {body : List Byte} {ms : Nat} {k : TransceiveResult → Op α} (hb : body.length ≤ 62)
    (hk : ∀ r, Proceeds false (k r) Q) :
    Proceeds false (appendCrc body >>= fun frame => transceive frame 0 ms >>= k) Q := by
  refine proceeds_bind (proceeds_appendCrc (by omega)) fun frame hf => ?_
  exact proceeds_then (proceeds_transceive (by decide) (by omega) ms) hk

/-! ### Card operations -/

theorem proceeds_requestA : Proceeds false requestA :=
  proceeds_getCfg fun _ => proceeds_then (proceeds_transceive (by decide) (by simp [reqaFrame]) _) fun _ =>
    proceeds_value _

theorem proceeds_anticollCL1 : Proceeds false anticollCL1 :=
  proceeds_getCfg fun _ => proceeds_then (proceeds_clearBits _ _) fun _ =>
    proceeds_then (proceeds_transceive (by decide) (by simp [anticollFrame]) _) fun _ => proceeds_value _

theorem uidOperand_four {uid : List Byte} (h : uid.length = 4) : uidOperand uid = pure () := by
  simp [uidOperand, require, Config.uidLen, h]

theorem proceeds_selectCL1 {uid : List Byte} (h : uid.length = 4) : Proceeds false (selectCL1 uid) := by
  rw [selectCL1, uidOperand_four h, pure_bind]
  exact proceeds_getCfg fun _ => proceeds_crcTransceive (by simp [selectBody, h]) fun _ => proceeds_value _

theorem proceeds_authenticate (f : List Byte) : Proceeds false (authenticate f) := by
  refine proceeds_getCfg fun c => proceeds_then (proceeds_writeRegister _ _) fun _ => ?_
  refine proceeds_then (proceeds_writeRegister _ _) fun _ => proceeds_then proceeds_flushFifo fun _ => ?_
  refine proceeds_then (proceeds_writeRegisterBurst _ _) fun _ => proceeds_then (proceeds_writeRegister _ _) fun _ => ?_
  refine proceeds_then (proceeds_pollUntil _ _ _) fun _ => proceeds_then (proceeds_readRegister _) fun _ => ?_
  exact proceeds_ite (proceeds_raise (.inr ⟨rfl, nofun⟩)) (proceeds_then (proceeds_readRegister _) fun _ =>
    proceeds_ite (proceeds_value _) (proceeds_raise (.inr ⟨rfl, nofun⟩)))

theorem proceeds_writePhase {body : List Byte} (phase ms : Nat) (hb : body.length ≤ 62) :
    Proceeds false (writePhase phase body ms) :=
  proceeds_getCfg fun _ => proceeds_crcTransceive hb fun _ => proceeds_ite (proceeds_value _)
    (proceeds_raise (.inr ⟨rfl, nofun⟩))

/-- The UID that `detectCard` selects is the four bytes of the anticollision's answer. -/
theorem proceeds_detectCard : Proceeds false detectCard := by
  refine proceeds_then proceeds_requestA fun a => ?_
  cases a with
  | none => exact proceeds_value _
  | some atqa =>
    refine proceeds_then proceeds_anticollCL1 fun u => ?_
    cases u with
    | none => exact proceeds_value _
    | some uid => exact proceeds_then (proceeds_selectCL1 rfl) fun _ => proceeds_value _

/-! ### The lifecycle -/

theorem proceeds_softReset : Proceeds true softReset :=
  proceeds_getCfg fun _ => proceeds_then (proceeds_writeRegister _ _) fun _ =>
    proceeds_then (proceeds_record _) fun _ => proceeds_setPhase _

theorem proceeds_antennaOn : Proceeds resets antennaOn :=
  proceeds_getCfg fun _ => proceeds_then (proceeds_readRegister _) fun _ => proceeds_ite (proceeds_value _)
    (proceeds_writeRegister _ _)

theorem proceeds_configureChip : Proceeds resets configureChip := by
  refine proceeds_getCfg fun c => proceeds_then (proceeds_writeRegister _ _) fun _ => ?_
  refine proceeds_then (proceeds_writeRegister _ _) fun _ => proceeds_then (proceeds_writeRegister _ _) fun _ => ?_
  refine proceeds_then (proceeds_writeRegister _ _) fun _ => proceeds_then (proceeds_writeRegister _ _) fun _ => ?_
  exact proceeds_then (proceeds_writeRegister _ _) fun _ => proceeds_antennaOn

/-! ## Programs from their start (rules R252, R255, R257, R262 to R264) -/

/-- What the program of instruction `i`, begun in `s`, has brought about when it raises `e` in `t`: the phase has
changed at most where the entry of the error sets it, and `InvalidKeyLength` is raised with the length of the
instruction's key and before any event. -/
structure Raised (i : Instr) (s : State) (e : Error) (t : State) : Prop where
  handle : t.handle = s.handle
  refused : t.refused = s.refused
  outcomes : t.outcomes = s.outcomes
  phase : (isTransport e = true ∧ isOpen s.handle = true) ∨ t.phase = s.phase
  keyLength : ∀ n, e = .invalidKeyLength n →
    t.events = s.events ∧ ∃ blk key uid, i = .mifareAuthKeyA blk key uid ∧ key.length = n ∧ n ≠ 6

/-- How the program of instruction `i` ends that began in `s`: a refusal comes before the state has changed. -/
def EndsFrom (i : Instr) (s : State) : EStateM.Result Stop State α → Prop
  | .ok _ t => t.outcomes = s.outcomes ∧ t.refused = s.refused
  | .error (.raise e) t => Raised i s e t
  | .error (.refuse _) t => t = s

/-- On an open handle the program of `i` ends so. -/
def Starts (i : Instr) (x : Op α) : Prop := ∀ s, isOpen s.handle = true → EndsFrom i s (x s)

/-- Whatever the state, the program of `i` ends so. -/
def Begins (i : Instr) (x : Op α) : Prop := ∀ s, EndsFrom i s (x s)

variable {i : Instr}

/-- A program without operand tests, or behind them. -/
theorem starts_of_proceeds {x : Op α} (hx : Proceeds resets x Q) : Starts i x := by
  intro s hs
  have h := hx s hs
  rcases hr : x s with ⟨a, t⟩ | ⟨e | r, t⟩ <;> rw [hr] at h
  · exact ⟨h.1.outcomes, h.1.refused⟩
  · obtain ⟨hk, hp⟩ := h
    refine ⟨hk.handle, hk.refused, hk.outcomes, ?_, ?_⟩
    · rcases hp with ht | ⟨hn, -⟩
      · exact .inl ⟨ht, hs⟩
      · exact .inr (hk.phase.resolve_left (by simp [hn]))
    · rintro n rfl
      rcases hp with ht | ⟨-, hne⟩
      · cases ht
      · exact absurd rfl (hne n)
  · exact h.elim

theorem starts_getCfg {f : Cfg → Op α} (hf : ∀ c, Starts i (f c)) : Starts i (getCfg >>= f) := fun s hs => hf s.cfg s hs

/-- A test of the state or of an operand: it refuses, or goes on in the state it was put in. -/
theorem starts_test {x : Op Unit} {b : State → Bool} {r : RefusalReason} {f : Unit → Op α}
    (hx : ∀ s, x s = require (b s) r s) (hf : Starts i (f ())) : Starts i (x >>= f) := by
  intro s hs
  rw [op_bind, hx]
  cases b s with
  | true => exact hf s hs
  | false => exact rfl

theorem starts_require {b : Bool} {r : RefusalReason} {f : Unit → Op α} (hf : Starts i (f ())) :
    Starts i (require b r >>= f) := starts_test (fun _ => rfl) hf

theorem starts_registerOperand (a : Byte) {f : RegAddr → Op α} (hf : ∀ a', Starts i (f a')) :
    Starts i (registerOperand a >>= f) := by
  unfold registerOperand
  split
  · exact hf _
  · exact fun _ _ => rfl

theorem starts_blockOperand (blk : Nat) {f : Byte → Op α} (hf : ∀ b, Starts i (f b)) :
    Starts i (blockOperand blk >>= f) := by
  unfold blockOperand
  split
  · exact hf _
  · exact fun _ _ => rfl

theorem starts_calcCrc (buffer : List Byte) : Starts i (calcCrc buffer) := by
  by_cases hl : buffer.length ≤ 64
  · exact starts_of_proceeds (proceeds_calcCrc hl)
  · intro s _
    rw [calcCrc_badFrameLength (Nat.lt_of_not_le hl)]
    exact rfl

theorem starts_transceive (frame : List Byte) (vb : Byte) (ms : Nat) : Starts i (transceive frame vb ms) := by
  by_cases hv : vb.toNat ≤ 7
  · by_cases hl : 1 ≤ frame.length ∧ frame.length ≤ 64
    · exact starts_of_proceeds (proceeds_transceive hv hl ms)
    · intro s _
      rw [transceive_badFrameLength hv (by rw [← List.length_eq_zero_iff]; omega)]
      exact rfl
  · intro s _
    rw [transceive_badValidBits (Nat.lt_of_not_le hv)]
    exact rfl

theorem starts_selectCL1 (uid : List Byte) : Starts i (selectCL1 uid) := by
  by_cases h : uid.length = 4
  · exact starts_of_proceeds (proceeds_selectCL1 h)
  · rw [selectCL1, uidOperand_other h]
    exact fun _ _ => rfl

/-- The key is tested last of the operands, and its error raised in the state the operation began in (rule R257). -/
theorem starts_mifareAuthKeyA (blk : Nat) (key uid : List Byte) :
    Starts (.mifareAuthKeyA blk key uid) (mifareAuthKeyA blk key uid) := by
  refine starts_blockOperand blk fun b => starts_require ?_
  split
  · next hk => exact fun s _ => ⟨rfl, rfl, rfl, .inr rfl, by rintro n ⟨⟩; exact ⟨rfl, blk, key, uid, rfl, rfl, hk⟩⟩
  · exact starts_of_proceeds (proceeds_getCfg fun _ => proceeds_authenticate _)

theorem starts_mifareReadBlock (blk : Nat) : Starts i (mifareReadBlock blk) :=
  starts_blockOperand blk fun _ => starts_of_proceeds (Q := fun _ => True) (proceeds_getCfg fun _ =>
    proceeds_crcTransceive (by simp [readBody]) fun _ =>
      proceeds_ite (proceeds_raise (.inr ⟨rfl, nofun⟩)) (proceeds_value _))

theorem starts_mifareWriteBlock (blk : Nat) (payload : List Byte) : Starts i (mifareWriteBlock blk payload) :=
  starts_blockOperand blk fun _ => starts_of_proceeds (proceeds_getCfg fun _ =>
    proceeds_then (proceeds_writePhase 1 _ (by simp [writeBody])) fun _ =>
      proceeds_writePhase 2 _ (by simp [length_sixteenBytes]))

theorem starts_initChip : Starts i initChip := by
  rw [initChip_eq]
  exact starts_test (fun _ => rfl) (starts_of_proceeds (proceeds_then proceeds_softReset fun _ =>
    proceeds_then proceeds_configureChip fun _ => proceeds_setPhase _))

/-! ### On any handle -/

/-- A program that refuses a closed handle at once. -/
theorem begins_of_starts {x : Op α} (hx : Starts i x)
    (hc : ∀ s, isOpen s.handle = false → x s = .error (.refuse .notOpen) s) : Begins i x := by
  intro s
  cases ho : isOpen s.handle with
  | true => exact hx s ho
  | false => rw [hc s ho]; exact rfl

theorem begins_onOpenHandle {x : Op α} (hx : Starts i x) : Begins i (onOpenHandle x) :=
  begins_of_starts (starts_test (fun _ => rfl) hx) fun _ ho => onOpenHandle_closed x (isOpen_false.1 ho)

theorem begins_whenReady {x : Op α} (hx : Starts i x) : Begins i (whenReady x) :=
  begins_onOpenHandle (starts_test (fun _ => rfl) hx)

theorem begins_exchange (tx : List Byte) : Begins i (exchange tx) :=
  begins_of_starts (starts_of_proceeds (resets := false) (proceeds_exchange tx)) fun _ => exchange_closed tx

theorem begins_issueCommand (code : Commands → Byte) : Begins i (issueCommand code) :=
  begins_of_starts (starts_of_proceeds (resets := false) (proceeds_issueCommand code)) fun s ho => by
    rw [issueCommand_apply, op_bind, exchange_closed _ ho]

theorem begins_pure (a : α) : Begins i (pure a : Op α) := fun _ => ⟨rfl, rfl⟩

/-- A failed opening leaves the handle closed and the phase as it was (rule R117). -/
theorem begins_openTransport (bus dev hz : Nat) : Begins i (openTransport bus dev hz) := by
  intro s
  cases ho : isOpen s.handle with
  | true => rw [openTransport_opened bus dev hz ho]; exact rfl
  | false =>
    rw [openTransport_closed bus dev hz (isOpen_false.1 ho)]
    cases s.links.headD (Config.freeLink s.draws) with
    | ok => exact ⟨rfl, rfl⟩
    | fail code => exact ⟨rfl, rfl, rfl, .inr rfl, nofun⟩

theorem begins_closeTransport : Begins i closeTransport := by
  intro s
  cases ho : isOpen s.handle with
  | true => rw [closeTransport_opened ho]; exact ⟨rfl, rfl⟩
  | false => rw [closeTransport_closed (isOpen_false.1 ho)]; exact ⟨rfl, rfl⟩

/-! ## How an instruction ends (rules R250, R252, R255, R262) -/

/-- Instruction `i`, begun in `s`, has ended with the outcome `o` in a state. -/
inductive Ended (i : Instr) (s : State) : CallOutcome → State → Prop
  | returned (v : Value) (u : State) (ho : u.outcomes = s.outcomes) (hr : u.refused = s.refused) :
    Ended i s (.returned v) (report (.returned v) u)
  | raised (e : Error) (u : State) (h : Raised i s e u) : Ended i s (.raised e) (report (.raised e) (enterError e u))
  | refused (r : RefusalReason) : Ended i s (.refused r) (refusedWith r s)

theorem Ended.outcomes_eq {s t : State} {o : CallOutcome} (h : Ended i s o t) : t.outcomes = s.outcomes ++ [o] := by
  cases h with
  | returned v u ho => rw [report_outcomes, ho]
  | raised e u h => rw [report_outcomes, enterError_outcomes, h.outcomes]
  | refused r => rfl

/-- The mark is set by a refusal and by nothing else. -/
theorem Ended.refused_iff {s t : State} {o : CallOutcome} (h : Ended i s o t) :
    t.refused = true ↔ s.refused = true ∨ ∃ r, o = .refused r := by
  cases h with
  | returned v u _ hr => simp [hr]
  | raised e u h => simp [h.refused]
  | refused r => simp [refusedWith]

/-- `busy`, set when the call begins, is cleared at its end. -/
theorem ended_hostCall {x : Op α} (hx : Begins i x) (value : α → Value) (s : State) :
    ∃ o, Ended i s o (hostCall x value s) := by
  have h := hx { s with busy := true }
  rcases hostCall_cases x value s with ⟨hb, he⟩ | ⟨-, a, t, hr, he⟩ | ⟨-, e, t, hr, he⟩ | ⟨hb, r, t, hr, he⟩
  · rw [hostCall_busy x value hb]
    exact ⟨_, .refused _⟩
  all_goals
    rw [hr] at h
    rw [he]
  · exact ⟨_, .returned _ _ h.1 h.2⟩
  · exact ⟨_, .raised e t { h with }⟩
  · obtain rfl : t = { s with busy := true } := h
    rw [show report (.refused r) (leaveOperation (markRefused { s with busy := true })) = refusedWith r s by
      simp [report, leaveOperation, markRefused, refusedWith, hb]]
    exact ⟨_, .refused r⟩

theorem ended_innerStep {x : Op α} (hx : Begins i x) (value : α → Value) (s : State) :
    ∃ o, Ended i s o (innerStep x value s) := by
  have h := hx s
  rcases innerStep_cases x value s with ⟨a, t, hr, he⟩ | ⟨e, t, hr, he⟩ | ⟨r, t, hr, he⟩
  all_goals
    rw [hr] at h
    rw [he]
  · exact ⟨_, .returned _ _ h.1 h.2⟩
  · exact ⟨_, .raised e t h⟩
  · obtain rfl : t = s := h
    exact ⟨_, .refused r⟩

/-- A meaning that is one call of the host. It is stated with the outcome of `exec`, which unfolds to it. -/
theorem ends_call {x : Op α} (hx : Begins i x) {value : α → Value} {s : State} :
    ∃ t o, Host.Outcome.next (φ := Fault) (ρ := Refusal) (hostCall x value s) = .next t ∧ Ended i s o t :=
  have ⟨o, h⟩ := ended_hostCall hx value s
  ⟨_, o, rfl, h⟩

/-- A meaning that is one step of an inner layer. -/
theorem ends_step {x : Op α} (hx : Begins i x) {value : α → Value} {s : State} :
    ∃ t o, Host.Outcome.next (φ := Fault) (ρ := Refusal) (innerStep x value s) = .next t ∧ Ended i s o t :=
  have ⟨o, h⟩ := ended_innerStep hx value s
  ⟨_, o, rfl, h⟩

theorem begins_frameStep {frame : Cfg → List Byte} {vb : Byte} {ms : Nat} :
    Begins i (onOpenHandle (getCfg >>= fun c => transceive (frame c) vb ms)) :=
  begins_onOpenHandle (starts_getCfg fun _ => starts_transceive _ _ _)

theorem begins_registerCall (a : Byte) {f : RegAddr → Op α} (hf : ∀ a', Proceeds false (f a')) :
    Begins i (onOpenHandle (registerOperand a >>= f)) :=
  begins_onOpenHandle (starts_registerOperand a fun a' => starts_of_proceeds (hf a'))

/-- A program that tests the handle and no operand. -/
theorem begins_openProceeding {x : Op α} (hx : Proceeds false x Q) : Begins i (onOpenHandle x) :=
  begins_onOpenHandle (starts_of_proceeds hx)

/-- Every instruction leads to a next state, which is an end of it. -/
theorem exec_ends (i : Instr) (s : State) : ∃ t o, exec i s = .next t ∧ Ended i s o t := by
  cases i with
  | openTransport bus dev hz => exact ends_call (begins_openTransport bus dev hz)
  | close => exact ends_call begins_closeTransport
  | writeRegister a v => exact ends_call (begins_registerCall a fun _ => proceeds_writeRegister _ v)
  | readRegister a => exact ends_call (begins_registerCall a proceeds_readRegister)
  | writeRegisterBurst a bs => exact ends_call (begins_registerCall a fun _ => proceeds_writeRegisterBurst _ bs)
  | flushFifo => exact ends_call (begins_openProceeding proceeds_flushFifo)
  | fifoLevel => exact ends_call (begins_openProceeding proceeds_fifoLevel)
  | readFifoBytes n => exact ends_call (begins_openProceeding (proceeds_readFifoBytes n))
  | calcCrc buffer => exact ends_call (begins_onOpenHandle (starts_calcCrc buffer))
  | transceive frame vb ms => exact ends_call (begins_onOpenHandle (starts_transceive frame vb ms))
  | requestA => exact ends_call (begins_whenReady (starts_of_proceeds proceeds_requestA))
  | anticollCL1 => exact ends_call (begins_whenReady (starts_of_proceeds proceeds_anticollCL1))
  | selectCL1 uid => exact ends_call (begins_whenReady (starts_selectCL1 uid))
  | mifareAuthKeyA blk key uid => exact ends_call (begins_whenReady (starts_mifareAuthKeyA blk key uid))
  | mifareReadBlock blk => exact ends_call (begins_whenReady (starts_mifareReadBlock blk))
  | mifareWriteBlock blk payload => exact ends_call (begins_whenReady (starts_mifareWriteBlock blk payload))
  | softReset => exact ends_call (begins_onOpenHandle (starts_of_proceeds proceeds_softReset))
  | init => exact ends_call (begins_onOpenHandle starts_initChip)
  | isTrailerBlock | ensure16Bytes => exact ends_call (begins_pure _)
  | detectCard => exact ends_call (begins_whenReady (starts_of_proceeds proceeds_detectCard))
  | setBits a m => exact ends_step (begins_openProceeding (proceeds_setBits a m))
  | clearBits a m => exact ends_step (begins_openProceeding (proceeds_clearBits a m))
  | pollUntil a m ms => exact ends_step (begins_openProceeding (proceeds_pollUntil a m ms))
  | antennaOn => exact ends_step (begins_openProceeding proceeds_antennaOn)
  | spiWriteByte | spiReadByte | spiBurstWrite => exact ends_step (begins_exchange _)
  | cmdIdle | cmdCalcCrc | cmdTransceive | cmdMfAuthent | cmdSoftReset => exact ends_step (begins_issueCommand _)
  | piccReqa | piccAnticoll | piccSelect | mfRead | mfWrite => exact ends_step begins_frameStep
  | mfAuthKeyA blk key uid =>
    exact ends_step (begins_onOpenHandle (starts_getCfg fun _ => starts_require
      (starts_of_proceeds (proceeds_authenticate _))))
  | mfAck high fourBits => exact ends_step fun s => begins_pure (isAck s.cfg (ackAnswer s.cfg high fourBits)) s

/-- The outcome that was added says how the instruction ended. -/
theorem exec_ended {s t : State} {o : CallOutcome} (h : exec i s = .next t) (ho : t.outcomes = s.outcomes ++ [o]) :
    Ended i s o t := by
  obtain ⟨t', o', ht, hend⟩ := exec_ends i s
  cases ht.symm.trans h
  cases List.append_cancel_left (hend.outcomes_eq.symm.trans ho)
  exact hend

/-- Settles O14: no program refuses anything once the state has changed. -/
theorem refusalChangesNothing : Obligations.RefusalChangesNothing := by
  intro i s t r h ho
  cases exec_ended h ho
  rfl

/-! ## Every call ends (rule R250) -/

/-- A call that waits is refused or runs an instruction, which ends. -/
theorem step_ends (s : State) : ∃ t, step s = .next t := by
  cases hc : s.calls with
  | nil => exact ⟨s, stepRunsDecoded.2 s hc⟩
  | cons c rest =>
    cases hd : decode s.cfg c.layer c.bytes with
    | error e => exact ⟨_, unknownWordRefused s c rest e hc hd⟩
    | ok i =>
      obtain ⟨t, _, ht, -⟩ := exec_ends i { s with calls := rest, busy := s.busy || c.overlaps }
      exact ⟨_, by rw [stepRunsDecoded.1 s c rest i hc hd, ht]⟩

/-- Settles O13: `exec` answers no fault and no refusal of the model, and each end of an instruction adds an outcome. -/
theorem everyCallEnds : Obligations.EveryCallEnds := by
  refine ⟨fun i s => ?_, step_ends⟩
  obtain ⟨t, o, ht, hend⟩ := exec_ends i s
  exact ⟨t, o, ht, hend.outcomes_eq⟩

/-! ## The mark of a refusal (rule R255) -/

theorem exec_refused_iff {s t : State} (h : exec i s = .next t) :
    t.refused = true ↔ s.refused = true ∨ ∃ r, t.outcomes = s.outcomes ++ [.refused r] := by
  obtain ⟨t', o, ht, hend⟩ := exec_ends i s
  cases ht.symm.trans h
  simp [hend.refused_iff, hend.outcomes_eq]

/-- Settles O15: only a refusal touches the mark, and sets it; the queue and the end of a call leave it alone. -/
theorem refusedMarkStays : Obligations.RefusedMarkStays := by
  refine ⟨fun i s t => exec_refused_iff, fun s t h hs => ?_⟩
  rcases step_cases h with ⟨-, rfl⟩ | ⟨c, rest, -, ⟨e, -, rfl⟩ | ⟨i, u, -, hx, rfl⟩⟩
  · exact hs
  · rw [endCall_refused, unknownCall_eq]
    rfl
  · rw [endCall_refused]
    exact (exec_refused_iff hx).2 (.inl hs)

/-! ## Entering an error (rules R252, R262, R265) -/

/-- Settles O16: the program has kept handle and mark, and its phase where `enterError` does not set it. -/
theorem errorEntry : Obligations.ErrorEntry := by
  intro i s t e h ho
  cases exec_ended h ho with
  | raised _ u hu =>
    refine ⟨rfl, hu.handle, hu.refused, ?_⟩
    have hopen : s.handle ≠ .closed ↔ isOpen s.handle = true := by rw [ne_eq, ← isOpen_false, Bool.not_eq_false]
    simp only [report_phase, enterError_phase, hu.handle, hopen, Bool.and_eq_true]
    split
    · rfl
    · next hn => exact hu.phase.resolve_left hn

/-! ## The length of a key (rule R257) -/

theorem mifareAuthKeyA_otherKey {blk : Nat} {key uid : List Byte} (hb : blk ≤ 255) (hu : uid.length = 4)
    (hk : key.length ≠ 6) (s : State) :
    mifareAuthKeyA blk key uid s = .error (.raise (.invalidKeyLength key.length)) s := by
  rw [mifareAuthKeyA, blockOperand_upTo hb, uidOperand_four hu]
  exact congrFun (if_pos hk) s

/-- Settles O23: the test of the key stands behind those of block and UID and before the first exchange, and is the only
place that raises this error. -/
theorem invalidKeyLength : Obligations.InvalidKeyLength := by
  refine ⟨fun s blk key uid hs hb hu hk => congrArg Host.Outcome.next ?_, fun i s t n h ho => ?_⟩
  · obtain ⟨hc, hp⟩ := hs
    have hx : (requireReady >>= fun _ => mifareAuthKeyA blk key uid) { s with busy := true } =
        .error (.raise (.invalidKeyLength key.length)) { s with busy := true } := by
      rw [op_bind, requireReady_ready (s := { s with busy := true }) hp]
      exact mifareAuthKeyA_otherKey hb hu hk _
    refine (openCall_of_raise _ hc hx).trans ?_
    simp [report, enterError, isTransport, hc.2]
  · cases exec_ended h ho with
    | raised _ u hu => exact hu.keyLength n rfl

end Sys2Proof.Machine
end
